-- ==== Sys2Proof/Word.lean ====
section
/-! DEFINITION. The two word types of the Feistel-cipher-engine (spec/00_scope.md R8): the 32-bit word of the
registers and of the cipher, and the byte of the data buffer. Their arithmetic is BitVec's: +, - and * wrap mod
2^32, <<< and >>> are logical (spec/00_scope.md R9). -/

namespace Sys2Proof

/-- A 32-bit value (spec/00_scope.md R6 WORD, R8). -/
abbrev Word := BitVec 32

/-- A byte (spec/00_scope.md R8). -/
abbrev Byte := BitVec 8

end Sys2Proof
end

