-- ==== Sys2Proof/Syntax.lean ====
section
/-! DEFINITION. The commands of the FCE (one constructor of Instr per row of spec/opcode_table.json), and the host's
side of the bus: register names, access widths, bus accesses, and the statements of FCE host assembly
(spec/30_encoding.md R105 to R107). -/

namespace Sys2Proof

/-- The 16 commands of FCE command set version 1 (spec/30_encoding.md R102). A command has no operand field
(R101): every operand comes from a fixed register, so no constructor has an argument. -/
inductive Instr where
  | nop         -- NOP            0x00000000, R250
  | keypack     -- KEYPACK        0x00000001, R131
  | keytake     -- KEYTAKE        0x00000002, R132
  | padFb       -- PAD.FB         0x00000003, R221
  | padVb       -- PAD.VB         0x00000023, R222
  | cryptFbEnc  -- CRYPT.FB.ENC   0x00000004, R186
  | cryptFbDec  -- CRYPT.FB.DEC   0x00000014, R187
  | cryptVbEnc  -- CRYPT.VB.ENC   0x00000024, R205
  | cryptVbDec  -- CRYPT.VB.DEC   0x00000034, R206
  | b64enc      -- B64ENC         0x00000005, R154
  | b64dec      -- B64DEC         0x00000006, R155
  | encryptFb   -- ENCRYPT.FB     0x00000007, R223
  | encryptVb   -- ENCRYPT.VB     0x00000027, R224
  | decryptFb   -- DECRYPT.FB     0x00000008, R225
  | decryptVb   -- DECRYPT.VB     0x00000028, R226
  | sreset      -- SRESET         0x00000009, R251
deriving DecidableEq, Repr

/-- The registers of the block window, in the order of their offsets (spec/20_memory.md R70). -/
inductive Reg where
  | cmd | status | rounds | len | key0 | key1 | key2 | key3 | irqen | cap | id
deriving DecidableEq, Repr

/-- The widths of a host access: 8, 16 or 32 bits (spec/20_memory.md R72). -/
inductive Width where
  | w8 | w16 | w32
deriving DecidableEq, Repr

/-- One host bus access at a host address (spec/00_scope.md R11: MemRead and MemWrite; the block offset is the
address less BASE). A write of fewer than four bytes carries its value in the low bits. -/
inductive BusAccess where
  | read (addr : Nat) (w : Width)
  | write (addr : Nat) (w : Width) (v : Word)
deriving DecidableEq, Repr

/-- The statements of FCE host assembly (spec/30_encoding.md R106). `bus` is any single bus access, the form in which
R106 gives a program's encoding: the named statements cannot spell a misaligned access or a wrong width, and a host
can make one. A label is a number. -/
inductive HostStmt where
  | wr (r : Reg) (imm : Word)
  | rd (r : Reg)
  | wrb (i : Nat) (imm : Byte)
  | wrh (i : Nat) (imm : BitVec 16)
  | wrw (i : Nat) (imm : Word)
  | rdb (i : Nat)
  | rdh (i : Nat)
  | rdw (i : Nat)
  | label (l : Nat)
  | bbs (k : Fin 32) (l : Nat)
  | bus (a : BusAccess)
deriving DecidableEq, Repr

end Sys2Proof
end

