-- ==== Sys2Proof/Decode.lean ====
section
/-! DEFINITION. The command word: its fields, the decoder (total on every 32-bit word, rejecting by name) and the
encoder (spec/30_encoding.md R100, R102, R103). -/

namespace Sys2Proof

/-- Field OP, bits 3:0 (spec/30_encoding.md R100). -/
def opField (w : Word) : BitVec 4 := w.extractLsb' 0 4

/-- Field DIR, bit 4: 0 encrypt, 1 decrypt (R100). -/
def dirField (w : Word) : Bool := w.getLsbD 4

/-- Field VAR, bit 5: 0 FixedBlock, 1 VariableBlock (R100). -/
def varField (w : Word) : Bool := w.getLsbD 5

/-- Field RSV, bits 31:6, reserved (R100). -/
def rsvField (w : Word) : BitVec 26 := w.extractLsb' 6 26

/-- Why a word is ILLEGAL (spec/30_encoding.md R103, "In particular each of these words is illegal"). All four raise
IllegalCommand at the word's completion. -/
inductive IllegalWord where
  /-- A 1 in bits 31:6. -/
  | reservedBits
  /-- OP = 10 to 15. -/
  | undefinedOp
  /-- DIR = 1 with OP other than 4. -/
  | directionNotAllowed
  /-- VAR = 1 with OP in 0, 1, 2, 5, 6, 9. -/
  | variantNotAllowed
deriving DecidableEq, Repr

/-- A command with neither a direction nor a variant: DIR and VAR must be 0. -/
def decodePlain (dir var : Bool) (i : Instr) : Except IllegalWord Instr :=
  if dir then .error .directionNotAllowed else if var then .error .variantNotAllowed else .ok i

/-- A command with a variant and no direction: DIR must be 0, VAR selects. -/
def decodeVariant (dir var : Bool) (fb vb : Instr) : Except IllegalWord Instr :=
  if dir then .error .directionNotAllowed else if var then .ok vb else .ok fb

/-- The rows of spec/30_encoding.md R102, by OP, DIR and VAR. -/
def decodeFields (op : Nat) (dir var : Bool) : Except IllegalWord Instr :=
  match op with
  | 0 => decodePlain dir var .nop
  | 1 => decodePlain dir var .keypack
  | 2 => decodePlain dir var .keytake
  | 3 => decodeVariant dir var .padFb .padVb
  | 4 =>
    match dir, var with
    | false, false => .ok .cryptFbEnc
    | true, false => .ok .cryptFbDec
    | false, true => .ok .cryptVbEnc
    | true, true => .ok .cryptVbDec
  | 5 => decodePlain dir var .b64enc
  | 6 => decodePlain dir var .b64dec
  | 7 => decodeVariant dir var .encryptFb .encryptVb
  | 8 => decodeVariant dir var .decryptFb .decryptVb
  | 9 => decodePlain dir var .sreset
  | _ => .error .undefinedOp

/-- decode(W) (spec/30_encoding.md R103): the command of the row whose word equals W, or why W is ILLEGAL. -/
def decode (w : Word) : Except IllegalWord Instr :=
  if rsvField w = 0 then decodeFields (opField w).toNat (dirField w) (varField w) else .error .reservedBits

/-- The word with RSV = 0 and the given fields, VAR above DIR above OP (spec/30_encoding.md R100). -/
def encodeFields (op : BitVec 4) (dir var : Bool) : Word :=
  0#26 ++ BitVec.ofBool var ++ BitVec.ofBool dir ++ op

/-- The one word of each command (spec/30_encoding.md R102, columns OP, DIR, VAR). -/
def encode : Instr → Word
  | .nop => encodeFields 0 false false
  | .keypack => encodeFields 1 false false
  | .keytake => encodeFields 2 false false
  | .padFb => encodeFields 3 false false
  | .padVb => encodeFields 3 false true
  | .cryptFbEnc => encodeFields 4 false false
  | .cryptFbDec => encodeFields 4 true false
  | .cryptVbEnc => encodeFields 4 false true
  | .cryptVbDec => encodeFields 4 true true
  | .b64enc => encodeFields 5 false false
  | .b64dec => encodeFields 6 false false
  | .encryptFb => encodeFields 7 false false
  | .encryptVb => encodeFields 7 false true
  | .decryptFb => encodeFields 8 false false
  | .decryptVb => encodeFields 8 false true
  | .sreset => encodeFields 9 false false

/-- The command word that a number of `nbits` bits stands for, every bit above `nbits` zero. A command is one 32-bit
word (R100): there is no further word. -/
def tableWord (nbits w : Nat) : Word := BitVec.ofNat 32 (w % 2 ^ nbits)

/-- The command the decoder reads from a row of spec/opcode_table.json, numbered as the table numbers its bits. -/
def decodeTableWord (nbits w : Nat) : Option Instr :=
  match decode (tableWord nbits w) with
  | .ok i => some i
  | .error _ => none

end Sys2Proof
end

