-- ==== Sys2Proof/Config.lean ====
section
/-! DEFINITION. What one implementation of the FCE fixes, and what the spec leaves free. The two open parameters
of spec/00_scope.md R7 are plain data that State carries and no step changes (notes/assumptions/1.md, 2.md); the
one free value, the draw of spec/70_reset_and_hazards.md R295, is a constant without a body (notes/assumptions/3.md). -/

namespace Sys2Proof

/-- The open parameters of spec/00_scope.md R7. `bufCap` is BUF_CAP, the capacity of BUF in bytes; `base` is BASE, the
host address of offset 0 of the register window. Which values are legal: `Config.valid` in WellFormed. -/
structure Config where
  bufCap : Nat
  base : Nat
deriving DecidableEq, Repr

/-- DESIGN CHOICE (notes/assumptions/1.md and 2.md): the parameters State.reset stands on. 4096 is the capacity that
spec/95_test_vectors.md section 4 takes for its programs; base 0 is the least address aligned to 2^25. -/
def Config.standard : Config := { bufCap := 4096, base := 0 }

/-- The n-th draw: what a host read of LEN, KEY0-KEY3 or BUF returns while STATUS.BUSY = 1
(spec/70_reset_and_hazards.md R295, spec/93_implementation_defined.md S3). Nothing constrains it. -/
opaque Config.draw : Nat → Word

end Sys2Proof
end

