-- ==== Sys2Proof/WellFormed.lean ====
section
/-! DEFINITION. What is well formed: a command, the open parameters, a host program. The machine is total and needs
none of these checks to step; claims name them as hypotheses. -/

namespace Sys2Proof

/-- Every command is well formed: it has no operand field that could hold a wrong value (spec/30_encoding.md R101). -/
def Instr.wellFormed : Instr → Bool
  | .nop | .keypack | .keytake | .padFb | .padVb | .cryptFbEnc | .cryptFbDec | .cryptVbEnc | .cryptVbDec
  | .b64enc | .b64dec | .encryptFb | .encryptVb | .decryptFb | .decryptVb | .sreset => true

/-- The constraints of spec/00_scope.md R7: BUF_CAP is a multiple of 8 with 16 <= BUF_CAP <= 2^24; BASE is aligned
to 2^25. -/
def Config.valid (c : Config) : Bool :=
  c.bufCap % 8 == 0 && decide (16 ≤ c.bufCap) && decide (c.bufCap ≤ 2 ^ 24) && c.base % 2 ^ 25 == 0

/-- The label a statement declares, if it is a label. -/
def HostStmt.declares : HostStmt → Option Nat
  | .label l => some l
  | _ => none

/-- Whether a value fits the width it is written with. -/
def Width.fits : Width → Word → Bool
  | .w8, v => decide (v.toNat < 2 ^ 8)
  | .w16, v => decide (v.toNat < 2 ^ 16)
  | .w32, _ => true

/-- A statement within a program whose labels are `ls`: a branch names a label of the program, and a raw write's value
fits its width (spec/30_encoding.md R106: imm8, imm16, imm32). -/
def HostStmt.wellFormed (ls : List Nat) : HostStmt → Bool
  | .bbs _ l => ls.contains l
  | .bus (.write _ w v) => w.fits v
  | _ => true

/-- A host program (spec/30_encoding.md R106): no label is declared twice, and every statement is well formed. -/
def hostProgramWellFormed (p : List HostStmt) : Bool :=
  decide (p.filterMap HostStmt.declares).Nodup && p.all (HostStmt.wellFormed (p.filterMap HostStmt.declares))

end Sys2Proof
end

