-- ==== Sys2Proof/Machine/State.lean ====
section
/-! DEFINITION. The state of the FCE and of the two agents that step it, the state after reset, the six command errors,
and the reasons a step can stop (spec/10_state.md, spec/60_exceptions.md, spec/70_reset_and_hazards.md). Every field is
plain data. INVENTORY.md lists each with its rule. -/

namespace Sys2Proof.Machine

open Sys2Proof

/-- STATUS (spec/10_state.md R34) as its fields; bits 7:4 and 31:12 are reserved and read as 0 (R39), so no storage
stands for them. The 32-bit word is `Status.word` in Flags. -/
structure Status where
  busy : Bool
  done : Bool
  err : Bool
  werr : Bool
  errcode : BitVec 4
deriving DecidableEq, Repr

/-- STATUS after reset: 0x00000000 (R34). -/
def Status.reset : Status := { busy := false, done := false, err := false, werr := false, errcode := 0#4 }

/-- IRQEN (spec/10_state.md R35) as its fields; bits 31:3 are reserved and read as 0 (R39). -/
structure IrqEnable where
  doneIe : Bool
  errIe : Bool
  werrIe : Bool
deriving DecidableEq, Repr

/-- IRQEN after reset: 0x00000000 (R35). -/
def IrqEnable.reset : IrqEnable := { doneIe := false, errIe := false, werrIe := false }

/-- KEY0 to KEY3, the 128-bit key, always exactly four words (spec/10_state.md R30). -/
structure KeyFile where
  k0 : Word
  k1 : Word
  k2 : Word
  k3 : Word
deriving DecidableEq, Repr

/-- The key after reset: 0x00000000 in each of the four (R30). -/
def KeyFile.reset : KeyFile := { k0 := 0x00000000#32, k1 := 0x00000000#32, k2 := 0x00000000#32, k3 := 0x00000000#32 }

/-- The bytes of BUF (spec/10_state.md R31), by index: the cell (i, b) says BUF[i] = b. An unlisted index reads as
0x00, BUF's reset value, so empty memory is BUF after reset. -/
abbrev Memory := List Host.Cell

/-- The canonical form of a memory: indices strictly rise, and no cell holds the value 0x00 that an unlisted index
reads as. -/
abbrev Memory.wf (m : Memory) : Prop := m.Pairwise (fun a b => a.1 < b.1) ∧ ∀ c ∈ m, c.2 ≠ 0#8

/-- Every listed index lies below `cap`: BUF has BUF_CAP bytes. -/
abbrev Memory.below (m : Memory) (cap : Nat) : Prop := ∀ c ∈ m, c.1 < cap

/-- Whose step comes next (spec/10_state.md R46: the host's or the engine's) or that the platform asserts `rst`
(spec/70_reset_and_hazards.md R290). -/
inductive Turn where
  | host
  | engine
  | rst
deriving DecidableEq, Repr

/-- The FCE's registers and buffer, the open parameters, and the agents' own data. -/
structure State where
  /-- BUF_CAP and BASE (spec/00_scope.md R7): parameters, never changed by a step. CAP reads `cfg.bufCap` (R38). -/
  cfg : Config
  /-- CMD_LATCH, offset 0x000: the last accepted command word (R36). -/
  cmdLatch : Word
  /-- STATUS, offset 0x004 (R34). -/
  status : Status
  /-- ROUNDS, offset 0x008: the magnitude M of the FixedBlock round count (R33). -/
  rounds : Word
  /-- LEN, offset 0x00C: the length of the data in BUF, in bytes (R32). -/
  len : Word
  /-- KEY0-KEY3, offsets 0x010 to 0x01C (R30). -/
  key : KeyFile
  /-- IRQEN, offset 0x020 (R35). -/
  irqen : IrqEnable
  /-- BUF, offsets 0x10000 and up (R31). -/
  buf : Memory
  /-- The host's program (spec/30_encoding.md R106); loaded from outside (notes/assumptions/4.md). -/
  prog : List HostStmt
  /-- The index of the host's next statement; the model's own field. -/
  hpc : Nat
  /-- The host's 32-bit scratch value t (R106). -/
  scratch : Word
  /-- The turns to come, first first; the model's own field (notes/assumptions/5.md). -/
  sched : List Turn
  /-- How many draws have been taken; the model's own field, the argument of the next `Config.draw`. -/
  drawCount : Nat
deriving DecidableEq, Repr

/-- The machine right after reset, for parameters `c` (spec/70_reset_and_hazards.md R291: "the reset state is fully
determined by BUF_CAP"), with no host program, no turn fixed and no draw taken. -/
def State.resetWith (c : Config) : State :=
  { cfg := c
    cmdLatch := 0x00000000#32
    status := Status.reset
    rounds := 0x00000040#32
    len := 0x00000000#32
    key := KeyFile.reset
    irqen := IrqEnable.reset
    buf := []
    prog := []
    hpc := 0
    scratch := 0x00000000#32
    sched := []
    drawCount := 0 }

/-- The machine right after reset (R291), on the standard parameters (notes/assumptions/1.md, 2.md). -/
def State.reset : State := State.resetWith Config.standard

/-- The errors a command can complete with (spec/60_exceptions.md R261). They are command outcomes, recorded in
STATUS, and stop nothing (R260). -/
inductive CmdError where
  | decodeError
  | invalidBlockLength
  | inputTooLarge
  | missingKeyMaterial
  | invalidBufferLength
  | illegalCommand
deriving DecidableEq, Repr

/-- What a successful command commits (spec/10_state.md R45, R47): a new key, if it writes KEY, and the bytes
BUF[0..LEN') of its result, if it writes BUF and LEN. -/
structure CmdResult where
  key : Option KeyFile
  data : Option (List Byte)
deriving DecidableEq, Repr

/-- The reasons a step stops with a fault. -/
inductive Fault where
  /-- Raised by a host access at block offset `off` of width `w` that spec/20_memory.md R71, R72 or R74 refuses.
  The block's state is unchanged (spec/60_exceptions.md R263: "In a model: the host's access faults, named by its offset
  and width"). DEDUCED (notes/assumptions/7.md). Safe: the hardware answers with an error response and goes on. -/
  | busError (off : Nat) (w : Width)
  /-- Raised by a host branch taken to a label that the host's program does not declare: such a text is no program of
  spec/30_encoding.md R106. DESIGN CHOICE (notes/assumptions/9.md). Safe: no host executes it. -/
  | undefinedLabel (l : Nat)
deriving DecidableEq, Repr

/-- The reasons a step is refused. -/
inductive Refusal where
  /-- An instruction with no meaning in the model; no arm of exec answers it. Safe. -/
  | notModelled (mnemonic : String)
  /-- Raised by a host access at a host address outside the block window: "An offset at or above 2^25 is not the
  block's: the platform decodes it" (spec/20_memory.md R74). The spec does not say what the platform does. DESIGN CHOICE
  (notes/assumptions/8.md). Safe. -/
  | platformAccess (addr : Nat)
deriving DecidableEq, Repr

end Sys2Proof.Machine
end

