-- ==== Sys2Proof/Machine/Flags.lean ====
section
/-! DEFINITION. STATUS, IRQEN and `irq`: the words a host reads, and every way the status bits change
(spec/10_state.md R34, R35, R36, R43, R44; spec/60_exceptions.md R261, R262, R264, R266). The FCE has no other flag. -/

namespace Sys2Proof.Machine

open Sys2Proof

/-- ERRCODE of each error (spec/60_exceptions.md R261). -/
def CmdError.code : CmdError → BitVec 4
  | .decodeError => 1#4
  | .invalidBlockLength => 2#4
  | .inputTooLarge => 3#4
  | .missingKeyMaterial => 4#4
  | .invalidBufferLength => 5#4
  | .illegalCommand => 6#4

/-- STATUS as the host reads it: ERRCODE in bits 11:8, WERR, ERR, DONE, BUSY in bits 3 to 0, every reserved bit 0
(spec/10_state.md R34, R39). -/
def Status.word (st : Status) : Word :=
  0#20 ++ st.errcode ++ 0#4 ++ BitVec.ofBool st.werr ++ BitVec.ofBool st.err ++ BitVec.ofBool st.done ++
    BitVec.ofBool st.busy

/-- Acceptance of a command word (spec/10_state.md R36): DONE, ERR and ERRCODE clear, BUSY sets, WERR stays. -/
def Status.accepted (st : Status) : Status :=
  { st with busy := true, done := false, err := false, errcode := 0#4 }

/-- Successful completion (spec/60_exceptions.md R266). -/
def Status.succeeded (st : Status) : Status :=
  { st with busy := false, done := true, err := false, errcode := 0#4 }

/-- Completion with the error `e` (spec/60_exceptions.md R262). -/
def Status.failed (st : Status) (e : CmdError) : Status :=
  { st with busy := false, done := false, err := true, errcode := e.code }

/-- A host write was dropped (spec/60_exceptions.md R264): WERR sets, nothing else changes. -/
def Status.dropped (st : Status) : Status := { st with werr := true }

/-- A host write of `x` to STATUS (spec/10_state.md R34): each of bits 1 (DONE), 2 (ERR), 3 (WERR) that is 1 in `x`
clears, ERRCODE becomes 0 with ERR, and BUSY is read-only. -/
def Status.writeOneToClear (st : Status) (x : Word) : Status :=
  { busy := st.busy
    done := st.done && !x.getLsbD 1
    err := st.err && !x.getLsbD 2
    werr := st.werr && !x.getLsbD 3
    errcode := if x.getLsbD 2 then 0#4 else st.errcode }

/-- IRQEN as the host reads it: WERR_IE, ERR_IE, DONE_IE in bits 2 to 0, every reserved bit 0
(spec/10_state.md R35). -/
def IrqEnable.word (en : IrqEnable) : Word :=
  0#29 ++ BitVec.ofBool en.werrIe ++ BitVec.ofBool en.errIe ++ BitVec.ofBool en.doneIe

/-- IRQEN after a host write of `x` (R35): bits 2:0 are stored, the rest are ignored. -/
def IrqEnable.ofWord (x : Word) : IrqEnable :=
  { doneIe := x.getLsbD 0, errIe := x.getLsbD 1, werrIe := x.getLsbD 2 }

/-- The interrupt output (spec/10_state.md R44): a function of STATUS and IRQEN alone, so it changes in the same step
as they do. -/
def State.irq (s : State) : Bool :=
  (s.status.done && s.irqen.doneIe) || (s.status.err && s.irqen.errIe) || (s.status.werr && s.irqen.werrIe)

end Sys2Proof.Machine
end

