-- ==== Sys2Proof/Machine/Operands.lean ====
section
/-! DEFINITION. The forms in which a command reads its operands: single bytes of BUF, its first LEN bytes, the
little-endian word view of a byte list, and the key words (spec/00_scope.md R12, spec/20_memory.md R76,
spec/30_encoding.md R101, spec/40_key_wordpack.md R130). -/

namespace Sys2Proof.Machine

open Sys2Proof

/-- BUF[i]; an unlisted index reads as 0x00. -/
def Memory.read : Memory → Nat → Byte
  | [], _ => 0#8
  | (j, b) :: m, i => if j = i then b else Memory.read m i

/-- The bytes at indices i, i+1, ..., i+n-1. -/
def Memory.readBytes (m : Memory) (i n : Nat) : List Byte := (List.range n).map (fun k => m.read (i + k))

/-- The 32-bit word of four bytes, the first least significant (spec/00_scope.md R12). -/
def wordOfBytes (b0 b1 b2 b3 : Byte) : Word := b3 ++ b2 ++ b1 ++ b0

/-- words(b): a byte list of length 4n as n little-endian words (spec/00_scope.md R12). -/
def wordsOf : List Byte → List Word
  | b0 :: b1 :: b2 :: b3 :: bs => wordOfBytes b0 b1 b2 b3 :: wordsOf bs
  | _ => []

/-- The four bytes of a word, least significant first (SetBufWord, spec/20_memory.md R76). -/
def bytesOfWord (w : Word) : List Byte :=
  [w.extractLsb' 0 8, w.extractLsb' 8 8, w.extractLsb' 16 8, w.extractLsb' 24 8]

/-- bytes(v), the inverse view of `wordsOf` (spec/00_scope.md R12). -/
def bytesOf : List Word → List Byte
  | [] => []
  | w :: ws => bytesOfWord w ++ bytesOf ws

/-- BufWord(j): the little-endian word at bytes 4j..4j+3 of BUF (spec/20_memory.md R76). -/
def Memory.word (m : Memory) (j : Nat) : Word :=
  wordOfBytes (m.read (4 * j)) (m.read (4 * j + 1)) (m.read (4 * j + 2)) (m.read (4 * j + 3))

/-- LEN as a count of bytes. -/
def State.lenBytes (s : State) : Nat := s.len.toNat

/-- BUF[0..LEN). -/
def State.input (s : State) : List Byte := s.buf.readBytes 0 s.lenBytes

/-- LEN > BUF_CAP, which every command that reads BUF checks before anything else (spec/10_state.md R32,
spec/60_exceptions.md R265). -/
def State.inputTooLarge (s : State) : Bool := decide (s.cfg.bufCap < s.lenBytes)

/-- KEY[i], the key word a two-bit selector names (spec/10_state.md R30). -/
def KeyFile.get (k : KeyFile) (i : BitVec 2) : Word :=
  if i = 0#2 then k.k0 else if i = 1#2 then k.k1 else if i = 2#2 then k.k2 else k.k3

/-- pack16 (spec/40_key_wordpack.md R130): KEY[i] from bytes 4i..4i+3, least significant first. `kb` has 16 bytes
(the callers' zero-fill and length check); a missing byte would read as 0x00 (notes/assumptions/14.md). -/
def pack16 (kb : List Byte) : KeyFile :=
  { k0 := wordOfBytes (kb.getD 0 0#8) (kb.getD 1 0#8) (kb.getD 2 0#8) (kb.getD 3 0#8)
    k1 := wordOfBytes (kb.getD 4 0#8) (kb.getD 5 0#8) (kb.getD 6 0#8) (kb.getD 7 0#8)
    k2 := wordOfBytes (kb.getD 8 0#8) (kb.getD 9 0#8) (kb.getD 10 0#8) (kb.getD 11 0#8)
    k3 := wordOfBytes (kb.getD 12 0#8) (kb.getD 13 0#8) (kb.getD 14 0#8) (kb.getD 15 0#8) }

/-- zeros(k) (spec/00_scope.md R12). -/
def zeros (k : Nat) : List Byte := List.replicate k 0#8

end Sys2Proof.Machine
end

