-- ==== Sys2Proof/Machine/Ops.lean ====
section
/-! DEFINITION. The named operations over BUF and the registers: writing bytes, committing a result, acceptance,
completion with success or with an error (the whole of the FCE's exception entry, spec/60_exceptions.md R260, R262,
R268), and reset. -/

namespace Sys2Proof.Machine

open Sys2Proof

/-- BUF[i] <- b, keeping the canonical form: writing 0x00 removes the cell. -/
def Memory.write : Memory → Nat → Byte → Memory
  | [], i, b => if b = 0#8 then [] else [(i, b)]
  | (j, c) :: m, i, b =>
    if i < j then (if b = 0#8 then (j, c) :: m else (i, b) :: (j, c) :: m)
    else if i = j then (if b = 0#8 then m else (i, b) :: m)
    else (j, c) :: Memory.write m i b

/-- The bytes written at indices i, i+1, ... -/
def Memory.writeBytes (m : Memory) (i : Nat) : List Byte → Memory
  | [] => m
  | b :: bs => Memory.writeBytes (m.write i b) (i + 1) bs

/-- The memory that holds the bytes at indices i, i+1, ... and 0x00 everywhere else. -/
def Memory.ofBytes (i : Nat) : List Byte → Memory
  | [] => []
  | b :: bs => if b = 0#8 then Memory.ofBytes (i + 1) bs else (i, b) :: Memory.ofBytes (i + 1) bs

/-- The commit of a result's data bytes (spec/10_state.md R47, tail rule): LEN' is their number, BUF[0..LEN') holds
them, and every tail byte becomes 0x00. With no data, BUF and LEN stay as they are, tail included. -/
def State.commitData (s : State) : Option (List Byte) → State
  | none => s
  | some bs => { s with buf := Memory.ofBytes 0 bs, len := BitVec.ofNat 32 bs.length }

/-- The commit of a result's key: all four words at once, or none. -/
def State.commitKey (s : State) : Option KeyFile → State
  | none => s
  | some k => { s with key := k }

/-- The completion of a command that raised `e` (spec/60_exceptions.md R262): nothing changes but STATUS. This is the
FCE's exception entry: nothing is saved, no mode changes, there is no vector (R268). The return from it is
`Status.writeOneToClear` or the next acceptance. -/
def State.failCommand (s : State) (e : CmdError) : State := { s with status := s.status.failed e }

/-- The completion of a command that succeeded: its KEY, BUF and LEN writes commit all at once and DONE sets
(spec/10_state.md R45, spec/60_exceptions.md R266). -/
def State.finishCommand (s : State) (r : CmdResult) : State :=
  { (s.commitKey r.key).commitData r.data with status := s.status.succeeded }

/-- The completion step (spec/10_state.md R45), from what running the command gave. -/
def State.complete (s : State) : Except CmdError CmdResult → State
  | .ok r => s.finishCommand r
  | .error e => s.failCommand e

/-- A result that writes BUF and LEN only. -/
def CmdResult.ofData (bs : List Byte) : CmdResult := { key := none, data := some bs }

/-- A result that writes KEY only. -/
def CmdResult.ofKey (k : KeyFile) : CmdResult := { key := some k, data := none }

/-- A result that writes nothing but STATUS. -/
def CmdResult.empty : CmdResult := { key := none, data := none }

/-- The result with data `bs` where they fit in BUF, InputTooLarge where they do not: the output check that ends
B64ENC and ENCRYPT.* (spec/60_exceptions.md R265, point 4). -/
def State.outputResult (s : State) (bs : List Byte) : Except CmdError CmdResult :=
  if s.cfg.bufCap < bs.length then .error .inputTooLarge else .ok (CmdResult.ofData bs)

/-- Reset (spec/70_reset_and_hazards.md R291), the effect of both `rst` and SRESET (R290): a pending command is
discarded and every piece of the block's state takes its reset value. The parameters, the host's own data, the turns to
come and the count of draws are no state of the block. -/
def State.blockReset (s : State) : State :=
  { State.resetWith s.cfg with
    prog := s.prog, hpc := s.hpc, scratch := s.scratch, sched := s.sched, drawCount := s.drawCount }

/-- Acceptance of the command word `w` (spec/10_state.md R36, second case). -/
def State.acceptCommand (s : State) (w : Word) : State :=
  { s with cmdLatch := w, status := s.status.accepted }

/-- A host write dropped under BUSY = 1 (spec/70_reset_and_hazards.md R294). -/
def State.dropWrite (s : State) : State := { s with status := s.status.dropped }

/-- What the engine reads at completion: decode(CMD_LATCH) (spec/10_state.md R45). -/
def State.fetchCommand (s : State) : Except IllegalWord Instr := decode s.cmdLatch

/-- The next turn, and the state with that turn taken off the schedule. Where the schedule is used up the engine
completes a pending command before the host acts again (notes/assumptions/5.md): every interleaving of
spec/10_state.md R46 is some schedule, and a finite schedule leaves completion weakly fair
(spec/70_reset_and_hazards.md R296). -/
def State.nextTurn (s : State) : Turn × State :=
  match s.sched with
  | [] => (if s.status.busy then .engine else .host, s)
  | a :: as => (a, { s with sched := as })

end Sys2Proof.Machine
end

