-- ==== Sys2Proof/Machine/Control.lean ====
section
/-! DEFINITION. The control commands NOP and SRESET (spec/45_control.md), and the completion of an illegal word. -/

namespace Sys2Proof.Machine

open Sys2Proof

/-- NOP (spec/45_control.md R250): completes with no effect but STATUS; it does not check LEN. -/
def execNop (s : State) : Host.Outcome State Fault Refusal := .next (s.complete (.ok CmdResult.empty))

/-- SRESET (spec/45_control.md R251): the reset of the whole block, at any BUSY value. DONE is not set. The host's CMD
write performs it (Bus, `cmdWrite`); no run latches the SRESET word, and the
engine's turn on a latched one resets too (DESIGN CHOICE, notes/assumptions/6.md). -/
def execSreset (s : State) : Host.Outcome State Fault Refusal := .next s.blockReset

/-- The completion of a latched word that is no command (spec/30_encoding.md R103): IllegalCommand, no other effect. -/
def completeIllegal (s : State) : Host.Outcome State Fault Refusal := .next (s.complete (.error .illegalCommand))

end Sys2Proof.Machine
end

