-- ==== Sys2Proof/Machine/KeyPack.lean ====
section
/-! DEFINITION. The key word-pack unit: KEYPACK and KEYTAKE (spec/40_key_wordpack.md). -/

namespace Sys2Proof.Machine

open Sys2Proof

/-- The pseudocode of KEYPACK (spec/40_key_wordpack.md R131). -/
def runKeypack (s : State) : Except CmdError CmdResult :=
  if s.inputTooLarge then .error .inputTooLarge
  else
    let m := min s.lenBytes 16
    .ok (CmdResult.ofKey (pack16 (s.buf.readBytes 0 m ++ zeros (16 - m))))

/-- The pseudocode of KEYTAKE (spec/40_key_wordpack.md R132). -/
def runKeytake (s : State) : Except CmdError CmdResult :=
  if s.inputTooLarge then .error .inputTooLarge
  else if s.lenBytes < 16 then .error .missingKeyMaterial
  else .ok { key := some (pack16 (s.buf.readBytes 0 16)), data := some (s.buf.readBytes 16 (s.lenBytes - 16)) }

/-- KEYPACK (R131). -/
def execKeypack (s : State) : Host.Outcome State Fault Refusal := .next (s.complete (runKeypack s))

/-- KEYTAKE (R132). -/
def execKeytake (s : State) : Host.Outcome State Fault Refusal := .next (s.complete (runKeytake s))

end Sys2Proof.Machine
end

