-- ==== Sys2Proof/Machine/Codec.lean ====
section
/-! DEFINITION. The base-64 codec: alphabet, transforms, B64ENC and B64DEC (spec/41_codec.md). -/

namespace Sys2Proof.Machine

open Sys2Proof

/-- sym(i), the byte of symbol i (spec/41_codec.md R150): A-Z, a-z, 0-9, then - and _. -/
def symOf (i : BitVec 6) : Byte :=
  if i.toNat ≤ 25 then BitVec.ofNat 8 (0x41 + i.toNat)
  else if i.toNat ≤ 51 then BitVec.ofNat 8 (0x61 + (i.toNat - 26))
  else if i.toNat ≤ 61 then BitVec.ofNat 8 (0x30 + (i.toNat - 52))
  else if i.toNat = 62 then 0x2D#8
  else 0x5F#8

/-- idx(c), the index of the symbol c; `none` is the NONE of spec/41_codec.md R151. -/
def idxOf (c : Byte) : Option (BitVec 6) :=
  if 0x41 ≤ c.toNat ∧ c.toNat ≤ 0x5A then some (BitVec.ofNat 6 (c.toNat - 0x41))
  else if 0x61 ≤ c.toNat ∧ c.toNat ≤ 0x7A then some (BitVec.ofNat 6 (c.toNat - 0x47))
  else if 0x30 ≤ c.toNat ∧ c.toNat ≤ 0x39 then some (BitVec.ofNat 6 (c.toNat + 4))
  else if c.toNat = 0x2D then some 62#6
  else if c.toNat = 0x5F then some 63#6
  else none

/-- Bit q of the bit stream of a byte list: each byte most significant bit first, and 0 past the end
(spec/41_codec.md R152). -/
def byteStreamBit (b : List Byte) (q : Nat) : Bool :=
  decide (q < 8 * b.length) && (b.getD (q / 8) 0#8).getLsbD (7 - q % 8)

/-- Bit q of the bit stream of a list of 6-bit indices, each most significant bit first (spec/41_codec.md R153). -/
def indexStreamBit (v : List (BitVec 6)) (q : Nat) : Bool := (v.getD (q / 6) 0#6).getLsbD (5 - q % 6)

/-- The number of `n` bits from a stream at position `q`, the first bit most significant: val <- 2 * val + bit. -/
def streamValue (bit : Nat → Bool) (q n : Nat) : Nat :=
  (List.range n).foldl (fun val t => 2 * val + (bit (q + t)).toNat) 0

/-- b64enc (spec/41_codec.md R152): ceil(8L / 6) symbols, one for each 6-bit group. -/
def b64enc (b : List Byte) : List Byte :=
  (List.range ((8 * b.length + 5) / 6)).map
    (fun g => symOf (BitVec.ofNat 6 (streamValue (byteStreamBit b) (6 * g) 6)))

/-- The indices of a symbol string, `none` if any byte is no symbol (the first loop of spec/41_codec.md R153). -/
def symbolIndices : List Byte → Option (List (BitVec 6))
  | [] => some []
  | c :: cs =>
    match idxOf c, symbolIndices cs with
    | some i, some is => some (i :: is)
    | _, _ => none

/-- The complete bytes of an index list; the bits left over are discarded (the second loop of
spec/41_codec.md R153). -/
def bytesOfIndices (v : List (BitVec 6)) : List Byte :=
  (List.range (6 * v.length / 8)).map (fun j => BitVec.ofNat 8 (streamValue (indexStreamBit v) (8 * j) 8))

/-- b64dec (spec/41_codec.md R153); `none` is `raise DecodeError`. -/
def b64dec (s : List Byte) : Option (List Byte) := (symbolIndices s).map bytesOfIndices

/-- The pseudocode of B64ENC (spec/41_codec.md R154). -/
def runB64enc (s : State) : Except CmdError CmdResult :=
  if s.inputTooLarge then .error .inputTooLarge else s.outputResult (b64enc s.input)

/-- The pseudocode of B64DEC (spec/41_codec.md R155). -/
def runB64dec (s : State) : Except CmdError CmdResult :=
  if s.inputTooLarge then .error .inputTooLarge
  else
    match b64dec s.input with
    | none => .error .decodeError
    | some out => .ok (CmdResult.ofData out)

/-- B64ENC (R154). -/
def execB64enc (s : State) : Host.Outcome State Fault Refusal := .next (s.complete (runB64enc s))

/-- B64DEC (R155). -/
def execB64dec (s : State) : Host.Outcome State Fault Refusal := .next (s.complete (runB64dec s))

end Sys2Proof.Machine
end

