-- ==== Sys2Proof/Machine/FixedBlock.lean ====
section
/-! DEFINITION. The Block Cipher Engine, FixedBlock variant: the round function, the block transforms, CRYPT.FB.ENC and
CRYPT.FB.DEC (spec/42_fixed_block.md). -/

namespace Sys2Proof.Machine

open Sys2Proof

/-- DELTA, the round constant of both variants (spec/42_fixed_block.md R180). -/
def delta : Word := 0x9E3779B9#32

/-- F(a) (spec/42_fixed_block.md R181). -/
def mixF (a : Word) : Word := ((a <<< 4) ^^^ (a >>> 5)) + a

/-- T(a, acc, kw) (spec/42_fixed_block.md R181). -/
def mixT (a acc kw : Word) : Word := mixF a ^^^ (acc + kw)

/-- The key selector acc & 3 of the v0 update (spec/42_fixed_block.md R182). -/
def lowSelector (acc : Word) : BitVec 2 := (acc &&& 3#32).setWidth 2

/-- The key selector (acc >> 11) & 3 of the v1 update (spec/42_fixed_block.md R182). -/
def highSelector (acc : Word) : BitVec 2 := ((acc >>> 11) &&& 3#32).setWidth 2

/-- The loop of fbEncrypt, from the accumulator `acc` (spec/42_fixed_block.md R182). -/
def fbEncryptLoop (k : KeyFile) : Nat → Word → Word × Word → Word × Word
  | 0, _, v => v
  | m + 1, acc, v =>
    let v0 := v.1 + mixT v.2 acc (k.get (lowSelector acc))
    let acc' := acc + delta
    let v1 := v.2 + mixT v0 acc' (k.get (highSelector acc'))
    fbEncryptLoop k m acc' (v0, v1)

/-- fbEncrypt(v0, v1, K, M) (spec/42_fixed_block.md R182). -/
def fbEncrypt (k : KeyFile) (m : Nat) (v : Word × Word) : Word × Word := fbEncryptLoop k m 0#32 v

/-- The loop of fbDecrypt, from the accumulator `acc` (spec/42_fixed_block.md R183). -/
def fbDecryptLoop (k : KeyFile) : Nat → Word → Word × Word → Word × Word
  | 0, _, v => v
  | m + 1, acc, v =>
    let v1 := v.2 - mixT v.1 acc (k.get (highSelector acc))
    let acc' := acc - delta
    let v0 := v.1 - mixT v1 acc' (k.get (lowSelector acc'))
    fbDecryptLoop k m acc' (v0, v1)

/-- fbDecrypt(v0, v1, K, M) (spec/42_fixed_block.md R183). -/
def fbDecrypt (k : KeyFile) (m : Nat) (v : Word × Word) : Word × Word :=
  fbDecryptLoop k m (delta * BitVec.ofNat 32 m) v

/-- fixedBlock(v0, v1, K, R), by the sign of the round count R (spec/42_fixed_block.md R184); R = 0 is the identity. -/
def fixedBlock (k : KeyFile) (r : Int) (v : Word × Word) : Word × Word :=
  if 0 < r then fbEncrypt k r.toNat v else if r < 0 then fbDecrypt k (-r).toNat v else v

/-- Each consecutive pair of words as one block, in ascending order, none chained to another
(spec/42_fixed_block.md R185). -/
def fbWords (k : KeyFile) (r : Int) : List Word → List Word
  | v0 :: v1 :: ws => (fixedBlock k r (v0, v1)).1 :: (fixedBlock k r (v0, v1)).2 :: fbWords k r ws
  | ws => ws

/-- A byte list of whole blocks through the engine with round count R. -/
def fbBytes (k : KeyFile) (r : Int) (b : List Byte) : List Byte := bytesOf (fbWords k r (wordsOf b))

/-- +ROUNDS, the signed count of encryption (spec/42_fixed_block.md R184). -/
def State.encryptCount (s : State) : Int := s.rounds.toNat

/-- -ROUNDS, the signed count of decryption (spec/42_fixed_block.md R184). -/
def State.decryptCount (s : State) : Int := -(s.rounds.toNat : Int)

/-- The pseudocode of CRYPT.FB.* with round count R (spec/42_fixed_block.md R186, R187). -/
def runCryptFb (r : Int) (s : State) : Except CmdError CmdResult :=
  if s.inputTooLarge then .error .inputTooLarge
  else if s.lenBytes % 8 ≠ 0 then .error .invalidBufferLength
  else .ok (CmdResult.ofData (fbBytes s.key r s.input))

/-- CRYPT.FB.ENC (R186). -/
def execCryptFbEnc (s : State) : Host.Outcome State Fault Refusal :=
  .next (s.complete (runCryptFb s.encryptCount s))

/-- CRYPT.FB.DEC (R187). -/
def execCryptFbDec (s : State) : Host.Outcome State Fault Refusal :=
  .next (s.complete (runCryptFb s.decryptCount s))

end Sys2Proof.Machine
end

