-- ==== Sys2Proof/Machine/VariableBlock.lean ====
section
/-! DEFINITION. The Block Cipher Engine, VariableBlock variant: the mix term, the transforms of a whole word list,
CRYPT.VB.ENC and CRYPT.VB.DEC (spec/43_variable_block.md). -/

namespace Sys2Proof.Machine

open Sys2Proof

/-- Q(n), the round count for n words (spec/43_variable_block.md R200). -/
def vbRounds (n : Nat) : Nat := 6 + 52 / n

/-- e, the key-index selector of a round (spec/43_variable_block.md R202, R203). -/
def vbSelector (acc : Word) : BitVec 2 := ((acc >>> 2) &&& 3#32).setWidth 2

/-- MX(z, y, acc, p, e, K) (spec/43_variable_block.md R201). -/
def mixMX (z y acc : Word) (p : Nat) (e : BitVec 2) (k : KeyFile) : Word :=
  (((z >>> 5) ^^^ (y <<< 2)) + ((y >>> 3) ^^^ (z <<< 4))) ^^^
    ((acc ^^^ y) + (k.get (BitVec.ofNat 2 p ^^^ e) ^^^ z))

/-- The mix term at position p of the word list, from the current circular neighbours
(spec/43_variable_block.md R202). -/
def vbMixAt (k : KeyFile) (acc : Word) (v : List Word) (p : Nat) : Word :=
  mixMX (v.getD ((p + v.length - 1) % v.length) 0#32) (v.getD ((p + 1) % v.length) 0#32) acc p (vbSelector acc) k

/-- v[p] <- v[p] + MX, one update of encryption (spec/43_variable_block.md R202). -/
def vbAddAt (k : KeyFile) (acc : Word) (v : List Word) (p : Nat) : List Word :=
  v.set p (v.getD p 0#32 + vbMixAt k acc v p)

/-- v[p] <- v[p] - MX, one update of decryption (spec/43_variable_block.md R203). -/
def vbSubAt (k : KeyFile) (acc : Word) (v : List Word) (p : Nat) : List Word :=
  v.set p (v.getD p 0#32 - vbMixAt k acc v p)

/-- The positions 0 to n-1 in ascending order, each updated once: one round of encryption. -/
def vbEncryptRound (k : KeyFile) (acc : Word) (v : List Word) : List Word :=
  (List.range v.length).foldl (vbAddAt k acc) v

/-- The positions n-1 down to 0, each updated once: one round of decryption. -/
def vbDecryptRound (k : KeyFile) (acc : Word) (v : List Word) : List Word :=
  (List.range v.length).reverse.foldl (vbSubAt k acc) v

/-- The rounds of vbEncrypt: the accumulator grows before each (spec/43_variable_block.md R202). -/
def vbEncryptLoop (k : KeyFile) : Nat → Word → List Word → List Word
  | 0, _, v => v
  | q + 1, acc, v => vbEncryptLoop k q (acc + delta) (vbEncryptRound k (acc + delta) v)

/-- The rounds of vbDecrypt: the accumulator shrinks after each (spec/43_variable_block.md R203). -/
def vbDecryptLoop (k : KeyFile) : Nat → Word → List Word → List Word
  | 0, _, v => v
  | q + 1, acc, v => vbDecryptLoop k q (acc - delta) (vbDecryptRound k acc v)

/-- vbEncrypt(v, K) (spec/43_variable_block.md R202). -/
def vbEncrypt (k : KeyFile) (v : List Word) : List Word := vbEncryptLoop k (vbRounds v.length) 0#32 v

/-- vbDecrypt(v, K) (spec/43_variable_block.md R203). -/
def vbDecrypt (k : KeyFile) (v : List Word) : List Word :=
  vbDecryptLoop k (vbRounds v.length) (delta * BitVec.ofNat 32 (vbRounds v.length)) v

/-- The pseudocode of CRYPT.VB.* with the word transform `f` (spec/43_variable_block.md R205, R206). -/
def runCryptVb (f : KeyFile → List Word → List Word) (s : State) : Except CmdError CmdResult :=
  if s.inputTooLarge then .error .inputTooLarge
  else if s.lenBytes % 4 ≠ 0 then .error .invalidBufferLength
  else if s.lenBytes / 4 < 2 then .error .invalidBlockLength
  else .ok (CmdResult.ofData (bytesOf (f s.key (wordsOf s.input))))

/-- CRYPT.VB.ENC (R205). -/
def execCryptVbEnc (s : State) : Host.Outcome State Fault Refusal := .next (s.complete (runCryptVb vbEncrypt s))

/-- CRYPT.VB.DEC (R206). -/
def execCryptVbDec (s : State) : Host.Outcome State Fault Refusal := .next (s.complete (runCryptVb vbDecrypt s))

end Sys2Proof.Machine
end

