-- ==== Sys2Proof/Machine/Pipeline.lean ====
section
/-! DEFINITION. The block-padding controller and the pipeline commands: PAD.*, ENCRYPT.*, DECRYPT.*
(spec/44_padding_pipeline.md). -/

namespace Sys2Proof.Machine

open Sys2Proof

/-- padTo(b, u) (spec/44_padding_pipeline.md R220): zero bytes up to the next multiple of u; an exact multiple gains
none. -/
def padTo (b : List Byte) (u : Nat) : List Byte := b ++ zeros ((u - b.length % u) % u)

/-- The pseudocode of PAD.* with unit u (spec/44_padding_pipeline.md R221, R222). -/
def runPad (u : Nat) (s : State) : Except CmdError CmdResult :=
  if s.inputTooLarge then .error .inputTooLarge else .ok (CmdResult.ofData (padTo s.input u))

/-- The pseudocode of ENCRYPT.FB (spec/44_padding_pipeline.md R223). -/
def runEncryptFb (s : State) : Except CmdError CmdResult :=
  if s.inputTooLarge then .error .inputTooLarge
  else s.outputResult (b64enc (fbBytes s.key s.encryptCount (padTo s.input 8)))

/-- The engine stage of ENCRYPT.VB and DECRYPT.VB (spec/44_padding_pipeline.md R224, R226): the empty buffer never
reaches the engine, and one word is InvalidBlockLength. -/
def vbStage (f : KeyFile → List Word → List Word) (k : KeyFile) (b : List Byte) : Except CmdError (List Byte) :=
  if b.length = 0 then .ok []
  else if b.length / 4 < 2 then .error .invalidBlockLength
  else .ok (bytesOf (f k (wordsOf b)))

/-- The pseudocode of ENCRYPT.VB (spec/44_padding_pipeline.md R224). -/
def runEncryptVb (s : State) : Except CmdError CmdResult :=
  if s.inputTooLarge then .error .inputTooLarge
  else
    match vbStage vbEncrypt s.key (padTo s.input 4) with
    | .error e => .error e
    | .ok c => s.outputResult (b64enc c)

/-- The pseudocode of DECRYPT.FB (spec/44_padding_pipeline.md R225). The padding is not stripped (R227). -/
def runDecryptFb (s : State) : Except CmdError CmdResult :=
  if s.inputTooLarge then .error .inputTooLarge
  else
    match b64dec s.input with
    | none => .error .decodeError
    | some c =>
      if c.length % 8 ≠ 0 then .error .invalidBufferLength
      else .ok (CmdResult.ofData (fbBytes s.key s.decryptCount c))

/-- The pseudocode of DECRYPT.VB (spec/44_padding_pipeline.md R226). The padding is not stripped (R227). -/
def runDecryptVb (s : State) : Except CmdError CmdResult :=
  if s.inputTooLarge then .error .inputTooLarge
  else
    match b64dec s.input with
    | none => .error .decodeError
    | some c =>
      if c.length % 4 ≠ 0 then .error .invalidBufferLength
      else
        match vbStage vbDecrypt s.key c with
        | .error e => .error e
        | .ok p => .ok (CmdResult.ofData p)

/-- PAD.FB (R221). -/
def execPadFb (s : State) : Host.Outcome State Fault Refusal := .next (s.complete (runPad 8 s))

/-- PAD.VB (R222). -/
def execPadVb (s : State) : Host.Outcome State Fault Refusal := .next (s.complete (runPad 4 s))

/-- ENCRYPT.FB (R223). -/
def execEncryptFb (s : State) : Host.Outcome State Fault Refusal := .next (s.complete (runEncryptFb s))

/-- ENCRYPT.VB (R224). -/
def execEncryptVb (s : State) : Host.Outcome State Fault Refusal := .next (s.complete (runEncryptVb s))

/-- DECRYPT.FB (R225). -/
def execDecryptFb (s : State) : Host.Outcome State Fault Refusal := .next (s.complete (runDecryptFb s))

/-- DECRYPT.VB (R226). -/
def execDecryptVb (s : State) : Host.Outcome State Fault Refusal := .next (s.complete (runDecryptVb s))

end Sys2Proof.Machine
end

