-- ==== Sys2Proof/Machine/Dispatch.lean ====
section
/-! DEFINITION. exec: the meaning of each command, one arm per constructor of Instr (spec/30_encoding.md R102). -/

namespace Sys2Proof.Machine

open Sys2Proof

def exec (i : Instr) (s : State) : Host.Outcome State Fault Refusal :=
  match i with
  | .nop => Sys2Proof.Machine.execNop s
  | .keypack => Sys2Proof.Machine.execKeypack s
  | .keytake => Sys2Proof.Machine.execKeytake s
  | .padFb => Sys2Proof.Machine.execPadFb s
  | .padVb => Sys2Proof.Machine.execPadVb s
  | .cryptFbEnc => Sys2Proof.Machine.execCryptFbEnc s
  | .cryptFbDec => Sys2Proof.Machine.execCryptFbDec s
  | .cryptVbEnc => Sys2Proof.Machine.execCryptVbEnc s
  | .cryptVbDec => Sys2Proof.Machine.execCryptVbDec s
  | .b64enc => Sys2Proof.Machine.execB64enc s
  | .b64dec => Sys2Proof.Machine.execB64dec s
  | .encryptFb => Sys2Proof.Machine.execEncryptFb s
  | .encryptVb => Sys2Proof.Machine.execEncryptVb s
  | .decryptFb => Sys2Proof.Machine.execDecryptFb s
  | .decryptVb => Sys2Proof.Machine.execDecryptVb s
  | .sreset => Sys2Proof.Machine.execSreset s

end Sys2Proof.Machine
end

