-- ==== Sys2Proof/Machine/Bus.lean ====
section
/-! DEFINITION. The host's bus accesses to the block window: the map, the registers, the buffer window, and what BUSY
does to each (spec/20_memory.md, spec/10_state.md R30 to R40, spec/70_reset_and_hazards.md R294, R295). -/

namespace Sys2Proof.Machine

open Sys2Proof

/-- The number of bytes an access of this width takes. -/
def widthBytes : Width → Nat
  | .w8 => 1
  | .w16 => 2
  | .w32 => 4

/-- off(REG), the offset of each register (spec/10_state.md section 9, spec/20_memory.md R70). -/
def regOffset : Reg → Nat
  | .cmd => 0x000
  | .status => 0x004
  | .rounds => 0x008
  | .len => 0x00C
  | .key0 => 0x010
  | .key1 => 0x014
  | .key2 => 0x018
  | .key3 => 0x01C
  | .irqen => 0x020
  | .cap => 0x024
  | .id => 0x028

/-- The registers in the order of their offsets. -/
def allRegs : List Reg := [.cmd, .status, .rounds, .len, .key0, .key1, .key2, .key3, .irqen, .cap, .id]

/-- The register at an offset, if one stands there. -/
def regAt (off : Nat) : Option Reg := allRegs.find? (fun r => regOffset r == off)

/-- The offset of BUF[0] in the window (spec/20_memory.md R70). -/
def bufOffset : Nat := 0x10000

/-- The size of the block window in bytes (spec/20_memory.md R70). -/
def windowSize : Nat := 2 ^ 25

/-- The block offset of a host address: the address less BASE, where it lies in the window. -/
def windowOffset (c : Config) (addr : Nat) : Option Nat :=
  if c.base ≤ addr ∧ addr < c.base + windowSize then some (addr - c.base) else none

/-- What a legal access reaches. -/
inductive Target where
  | reg (r : Reg)
  | buf (i : Nat)
deriving DecidableEq, Repr

/-- What an access of width `w` at offset `off` reaches; `none` is BusError. A register access is 32 bits wide and
aligned (spec/20_memory.md R71); a buffer access is naturally aligned and ends within BUF (R72); every other offset is
unmapped (R74). -/
def busTarget (c : Config) (off : Nat) (w : Width) : Option Target :=
  if off < 0x2C then
    if w = .w32 then (regAt off).map .reg else none
  else if bufOffset ≤ off then
    if (off - bufOffset) % widthBytes w = 0 ∧ off - bufOffset + widthBytes w ≤ c.bufCap then some (.buf (off - bufOffset)) else none
  else none

/-- ID: the ASCII bytes "FCE1", most significant first (spec/10_state.md R40). -/
def idValue : Word := 0x46434531#32

/-- The value a register holds, as a 32-bit word (spec/10_state.md R30 to R40). -/
def regValue (s : State) : Reg → Word
  | .cmd => s.cmdLatch
  | .status => s.status.word
  | .rounds => s.rounds
  | .len => s.len
  | .key0 => s.key.k0
  | .key1 => s.key.k1
  | .key2 => s.key.k2
  | .key3 => s.key.k3
  | .irqen => s.irqen.word
  | .cap => BitVec.ofNat 32 s.cfg.bufCap
  | .id => idValue

/-- The registers whose reads are draws while BUSY = 1 (spec/70_reset_and_hazards.md R295). -/
def drawnWhileBusy : Reg → Bool
  | .len | .key0 | .key1 | .key2 | .key3 => true
  | .cmd | .status | .rounds | .irqen | .cap | .id => false

/-- The low `w` bits of a word, zero-extended (spec/00_scope.md R11: no value is signed). -/
def truncateTo (w : Width) (v : Word) : Word :=
  match w with
  | .w8 => (v.setWidth 8).setWidth 32
  | .w16 => (v.setWidth 16).setWidth 32
  | .w32 => v

/-- MemRead of BUF: the sum of BUF[i + k] << 8k, little-endian (spec/20_memory.md R72, R77). -/
def bufValue (m : Memory) (i : Nat) : Width → Word
  | .w8 => wordOfBytes (m.read i) 0#8 0#8 0#8
  | .w16 => wordOfBytes (m.read i) (m.read (i + 1)) 0#8 0#8
  | .w32 => wordOfBytes (m.read i) (m.read (i + 1)) (m.read (i + 2)) (m.read (i + 3))

/-- A read that returns a draw (spec/70_reset_and_hazards.md R295): the next free value, cut to the access's width; the
block's state does not change. -/
def drawRead (s : State) (w : Width) : Word × State :=
  (truncateTo w (Config.draw s.drawCount), { s with drawCount := s.drawCount + 1 })

/-- A legal host read (spec/20_memory.md R71 to R73, spec/70_reset_and_hazards.md R295). -/
def readTarget (s : State) (w : Width) : Target → Word × State
  | .reg r => if s.status.busy && drawnWhileBusy r then drawRead s w else (regValue s r, s)
  | .buf i => if s.status.busy then drawRead s w else (bufValue s.buf i w, s)

/-- A host write of `x` to CMD (spec/10_state.md R36): SRESET at any BUSY value, acceptance while idle, else
dropped. -/
def cmdWrite (s : State) (x : Word) : State :=
  if x = 0x00000009#32 then s.blockReset
  else if s.status.busy then s.dropWrite
  else s.acceptCommand x

/-- A host write under the lock of spec/70_reset_and_hazards.md R294: dropped while BUSY = 1. -/
def lockedWrite (s : State) (written : State) : State := if s.status.busy then s.dropWrite else written

/-- A host write of `x` to a register (spec/10_state.md R30 to R40). CAP and ID ignore writes (R39). -/
def writeReg (s : State) (x : Word) : Reg → State
  | .cmd => cmdWrite s x
  | .status => { s with status := s.status.writeOneToClear x }
  | .rounds => lockedWrite s { s with rounds := x }
  | .len => lockedWrite s { s with len := x }
  | .key0 => lockedWrite s { s with key := { s.key with k0 := x } }
  | .key1 => lockedWrite s { s with key := { s.key with k1 := x } }
  | .key2 => lockedWrite s { s with key := { s.key with k2 := x } }
  | .key3 => lockedWrite s { s with key := { s.key with k3 := x } }
  | .irqen => { s with irqen := IrqEnable.ofWord x }
  | .cap => s
  | .id => s

/-- A legal host write (spec/20_memory.md R71 to R73): to a register, or of the access's bytes to BUF, least
significant first; LEN never changes with BUF (R72). -/
def writeTarget (s : State) (w : Width) (x : Word) : Target → State
  | .reg r => writeReg s x r
  | .buf i => lockedWrite s { s with buf := s.buf.writeBytes i ((bytesOfWord x).take (widthBytes w)) }

/-- The block's answer to a bus access at a block offset: BusError, or the value read and the state after
(spec/60_exceptions.md R263). -/
def busRead (s : State) (off : Nat) (w : Width) : Option (Word × State) :=
  (busTarget s.cfg off w).map (readTarget s w)

/-- As `busRead`, for a write. -/
def busWrite (s : State) (off : Nat) (w : Width) (x : Word) : Option State :=
  (busTarget s.cfg off w).map (writeTarget s w x)

end Sys2Proof.Machine
end

