-- ==== Sys2Proof/Machine/HostAgent.lean ====
section
/-! DEFINITION. The host agent: one statement of FCE host assembly a step (spec/10_state.md R46, spec/30_encoding.md
R106), and the pseudo-instructions of R107. -/

namespace Sys2Proof.Machine

open Sys2Proof

/-- One host bus access. A read leaves its value in the scratch value t; an access that the block refuses faults, named
by its offset and width (spec/60_exceptions.md R263); an address outside the window is the platform's
(spec/20_memory.md R74). -/
def hostAccess (s : State) : BusAccess → Host.Outcome State Fault Refusal
  | .read addr w =>
    match windowOffset s.cfg addr with
    | none => .refused (.platformAccess addr)
    | some off =>
      match busRead s off w with
      | none => .fault (.busError off w)
      | some (v, s') => .next { s' with scratch := v }
  | .write addr w x =>
    match windowOffset s.cfg addr with
    | none => .refused (.platformAccess addr)
    | some off =>
      match busWrite s off w x with
      | none => .fault (.busError off w)
      | some s' => .next s'

/-- The index of a label in a host program, if it is declared. -/
def labelIndex (p : List HostStmt) (l : Nat) : Option Nat := p.findIdx? (fun st => st == .label l)

/-- The host address of a register. -/
def regAddr (c : Config) (r : Reg) : Nat := c.base + regOffset r

/-- The host address of BUF[i]. -/
def bufAddr (c : Config) (i : Nat) : Nat := c.base + (bufOffset + i)

/-- The bus access of a statement (spec/30_encoding.md R106, column "bus access"); labels and branches have none. -/
def stmtAccess (c : Config) : HostStmt → Option BusAccess
  | .wr r x => some (.write (regAddr c r) .w32 x)
  | .rd r => some (.read (regAddr c r) .w32)
  | .wrb i x => some (.write (bufAddr c i) .w8 (x.setWidth 32))
  | .wrh i x => some (.write (bufAddr c i) .w16 (x.setWidth 32))
  | .wrw i x => some (.write (bufAddr c i) .w32 x)
  | .rdb i => some (.read (bufAddr c i) .w8)
  | .rdh i => some (.read (bufAddr c i) .w16)
  | .rdw i => some (.read (bufAddr c i) .w32)
  | .bus a => some a
  | .label _ => none
  | .bbs _ _ => none

/-- A host branch (spec/30_encoding.md R106): if bit k of t is 1, continue at the label. -/
def hostBranch (s : State) (k : Fin 32) (l : Nat) : Host.Outcome State Fault Refusal :=
  if s.scratch.getLsbD k.val then
    match labelIndex s.prog l with
    | some i => .next { s with hpc := i }
    | none => .fault (.undefinedLabel l)
  else .next s

/-- One statement, in a state whose `hpc` has moved past it. -/
def hostStatement (s : State) : HostStmt → Host.Outcome State Fault Refusal
  | .bbs k l => hostBranch s k l
  | st =>
    match stmtAccess s.cfg st with
    | some a => hostAccess s a
    | none => .next s

/-- The host's step: its next statement. A host whose program has ended does nothing, and the block holds its state
(spec/60_exceptions.md R274). -/
def hostStep (s : State) : Host.Outcome State Fault Refusal :=
  match s.prog[s.hpc]? with
  | none => .next s
  | some st => hostStatement { s with hpc := s.hpc + 1 } st

/-- `cmd MNEMONIC` (spec/30_encoding.md R107). -/
def asmCmd (i : Instr) : List HostStmt := [.wr .cmd (encode i)]

/-- `wait`: poll STATUS until BUSY = 0 (R107); `l` is the label the expansion declares. -/
def asmWait (l : Nat) : List HostStmt := [.label l, .rd .status, .bbs 0 l]

/-- `run MNEMONIC` (R107). -/
def asmRun (l : Nat) (i : Instr) : List HostStmt := asmCmd i ++ asmWait l

/-- `ldbuf "s"` (R107): one byte write for each byte of `bs`, then LEN. -/
def asmLdbuf (bs : List Byte) : List HostStmt :=
  (List.range bs.length).map (fun i => .wrb i (bs.getD i 0#8)) ++ [.wr .len (BitVec.ofNat 32 bs.length)]

/-- `ldkey "s"` (R107). -/
def asmLdkey (l : Nat) (bs : List Byte) : List HostStmt := asmLdbuf bs ++ asmRun l .keypack

/-- `clrst` (R107): clear DONE, ERR and WERR. -/
def asmClrst : List HostStmt := [.wr .status 0x0000000E#32]

end Sys2Proof.Machine
end

