-- ==== Sys2Proof/Machine/Step.lean ====
section
/-! DEFINITION. One step of the machine: one host access, one engine completion, or a reset by the platform
(spec/10_state.md R45, R46; spec/70_reset_and_hazards.md R290). -/

namespace Sys2Proof.Machine

open Sys2Proof

/-- The engine's step (spec/10_state.md R45): while BUSY = 1, the completion of the command in CMD_LATCH; while
BUSY = 0 it has none. -/
def engineStep (s : State) : Host.Outcome State Fault Refusal :=
  if s.status.busy then
    match s.fetchCommand with
    | .ok i => exec i s
    | .error _ => completeIllegal s
  else .next s

/-- One step of the agent whose turn it is. -/
def step (s : State) : Host.Outcome State Fault Refusal :=
  match s.nextTurn with
  | (.host, s') => hostStep s'
  | (.engine, s') => engineStep s'
  | (.rst, s') => .next s'.blockReset

/-- The state in which the next step completes the command word `w`: accepted into CMD_LATCH, where the engine reads its
command (spec/10_state.md R45), with no other agent's turn before it (notes/assumptions/4.md). -/
def State.withFetchWord (s : State) (nbits w : Nat) : State :=
  { s.acceptCommand (tableWord nbits w) with sched := [] }

end Sys2Proof.Machine
end

