-- ==== Sys2Proof/Safety.lean ====
section
/-! DEFINITION. The terms in which claims speak of the machine: the invariant of every run, the status reports of a
completion, which error a command reports, host accesses by block offset, and a host that keeps its obligation
(spec/70_reset_and_hazards.md R297). -/

namespace Sys2Proof.Machine

open Sys2Proof

/-- What holds of every state that a run from a reset state reaches. The parameters are legal (spec/00_scope.md R7); BUF
is in canonical form and within BUF_CAP (spec/10_state.md R31); the STATUS invariants of spec/10_state.md R34 hold, and
ERRCODE 7 to 15 never occur (spec/60_exceptions.md R261); no pending command is SRESET, which is acted on when it is
written (spec/10_state.md R36). -/
structure State.Inv (s : State) : Prop where
  cfg_valid : s.cfg.valid = true
  buf_wf : s.buf.wf
  buf_below : s.buf.below s.cfg.bufCap
  not_done_and_err : ¬(s.status.done = true ∧ s.status.err = true)
  errcode_zero : s.status.err = false → s.status.errcode = 0#4
  errcode_named : s.status.err = true → 1 ≤ s.status.errcode.toNat ∧ s.status.errcode.toNat ≤ 6
  busy_clear : s.status.busy = true → s.status.done = false ∧ s.status.err = false
  pending_not_sreset : s.status.busy = true → s.cmdLatch ≠ 0x00000009#32

/-- STATUS after a successful completion (spec/60_exceptions.md R266), field by field. -/
def doneStatus (st : Status) : Status :=
  { busy := false, done := true, err := false, werr := st.werr, errcode := 0#4 }

/-- STATUS after a completion with error code `c` (spec/60_exceptions.md R262), field by field. -/
def errorStatus (st : Status) (c : BitVec 4) : Status :=
  { busy := false, done := false, err := true, werr := st.werr, errcode := c }

/-- A byte is a codec symbol (spec/41_codec.md R150): its index exists. -/
def isSymbol (c : Byte) : Prop := ∃ i : BitVec 6, c = symOf i

/-- Every byte of BUF[0..LEN) is a codec symbol. -/
def State.inputSymbols (s : State) : Bool := s.input.all (fun c => (idxOf c).isSome)

/-- The error a command reports on a state, if any: the first that applies, in the order of spec/60_exceptions.md R265,
from the lengths and symbols alone (R261, columns "cause" and "raised by"). -/
def expectedError (i : Instr) (s : State) : Option CmdError :=
  let cap := s.cfg.bufCap
  let len := s.len.toNat
  let decoded := 6 * len / 8
  match i with
  | .nop | .sreset => none
  | .keypack | .padFb | .padVb => if cap < len then some .inputTooLarge else none
  | .keytake => if cap < len then some .inputTooLarge else if len < 16 then some .missingKeyMaterial else none
  | .cryptFbEnc | .cryptFbDec =>
    if cap < len then some .inputTooLarge else if len % 8 ≠ 0 then some .invalidBufferLength else none
  | .cryptVbEnc | .cryptVbDec =>
    if cap < len then some .inputTooLarge
    else if len % 4 ≠ 0 then some .invalidBufferLength
    else if len = 0 ∨ len = 4 then some .invalidBlockLength
    else none
  | .b64enc =>
    if cap < len then some .inputTooLarge else if cap < (8 * len + 5) / 6 then some .inputTooLarge else none
  | .b64dec => if cap < len then some .inputTooLarge else if s.inputSymbols then none else some .decodeError
  | .encryptFb =>
    if cap < len then some .inputTooLarge
    else if cap < (8 * (8 * ((len + 7) / 8)) + 5) / 6 then some .inputTooLarge
    else none
  | .encryptVb =>
    if cap < len then some .inputTooLarge
    else if 1 ≤ len ∧ len ≤ 4 then some .invalidBlockLength
    else if cap < (8 * (4 * ((len + 3) / 4)) + 5) / 6 then some .inputTooLarge
    else none
  | .decryptFb =>
    if cap < len then some .inputTooLarge
    else if !s.inputSymbols then some .decodeError
    else if decoded % 8 ≠ 0 then some .invalidBufferLength
    else none
  | .decryptVb =>
    if cap < len then some .inputTooLarge
    else if !s.inputSymbols then some .decodeError
    else if decoded % 4 ≠ 0 then some .invalidBufferLength
    else if decoded = 4 then some .invalidBlockLength
    else none

/-- MemRead(off, n) (spec/00_scope.md R11): a host read of width `w` at block offset `off`; the value comes to t. -/
def memRead (s : State) (off : Nat) (w : Width) : Host.Outcome State Fault Refusal :=
  hostAccess s (.read (s.cfg.base + off) w)

/-- MemWrite(off, n, v) (spec/00_scope.md R11): a host write. -/
def memWrite (s : State) (off : Nat) (w : Width) (x : Word) : Host.Outcome State Fault Refusal :=
  hostAccess s (.write (s.cfg.base + off) w x)

/-- The next step of `s` is the host's, its next statement makes the bus access `a`, and `s1` is the state in which the
access is performed: the turn taken, the program moved past the statement. -/
def HostAccesses (s : State) (a : BusAccess) (s1 : State) : Prop :=
  ∃ s0 st, s.nextTurn = (.host, s0) ∧ s0.prog[s0.hpc]? = some st ∧ stmtAccess s0.cfg st = some a ∧
    s1 = { s0 with hpc := s0.hpc + 1 }

/-- In state `u`, the command that is pending in `s` is still pending, with the inputs it had (spec/10_state.md R45: KEY, BUF,
LEN, ROUNDS), the turn is the engine's, and the step is the command's completion, which leaves `t`. -/
def CompletesPending (s u t : State) : Prop :=
  u.status.busy = true ∧ u.cmdLatch = s.cmdLatch ∧ u.key = s.key ∧ u.buf = s.buf ∧ u.len = s.len ∧ u.rounds = s.rounds ∧
    ∃ u0, u.nextTurn = (.engine, u0) ∧ (∀ i, decode s.cmdLatch = .ok i → step u = exec i u0) ∧ step u = .next t ∧
      t.status.busy = false ∧ (t.status.done = true ∨ t.status.err = true)

/-- The offsets a host may not write while BUSY = 1 (spec/70_reset_and_hazards.md R294): CMD, ROUNDS, LEN, KEY0-KEY3,
BUF. -/
def lockedForWrite (off : Nat) : Prop :=
  off = 0x000 ∨ off = 0x008 ∨ off = 0x00C ∨ off = 0x010 ∨ off = 0x014 ∨ off = 0x018 ∨ off = 0x01C ∨ 0x10000 ≤ off

/-- The offsets a host may not read while BUSY = 1 (spec/70_reset_and_hazards.md R295): LEN, KEY0-KEY3, BUF. -/
def lockedForRead (off : Nat) : Prop :=
  off = 0x00C ∨ off = 0x010 ∨ off = 0x014 ∨ off = 0x018 ∨ off = 0x01C ∨ 0x10000 ≤ off

/-- The access keeps the host's obligation in state `s` (spec/70_reset_and_hazards.md R297): while BUSY = 1 it does not
touch a locked offset; writing the SRESET word is no breach. -/
def keepsObligation (s : State) : BusAccess → Prop
  | .read addr _ => s.status.busy = true → ¬lockedForRead (addr - s.cfg.base)
  | .write addr _ x =>
    s.status.busy = true → ¬lockedForWrite (addr - s.cfg.base) ∨ (addr = s.cfg.base ∧ x = 0x00000009#32)

end Sys2Proof.Machine
end

