-- ==== Sys2Proof/Certificates/Slice0/Obligations.lean ====
section
/-! DEFINITION. The statements for the provers, in the order of the spec's files. Each docstring says which rule a
statement formalises. Commands are stated at their completion (`exec`), host accesses at a block offset (`memRead`,
`memWrite`), whole-machine rules at `step`. -/

open Sys2Proof Sys2Proof.Machine

/-! Encoding (spec/30_encoding.md). -/

/-- R102: the word of each row, written out from the table, decodes to its command. A check of written-out words. -/
def Obligations.CommandWordsDecodeToTheirCommands : Prop :=
  decode 0x00000000#32 = .ok .nop ∧ decode 0x00000001#32 = .ok .keypack ∧ decode 0x00000002#32 = .ok .keytake ∧
  decode 0x00000003#32 = .ok .padFb ∧ decode 0x00000023#32 = .ok .padVb ∧ decode 0x00000004#32 = .ok .cryptFbEnc ∧
  decode 0x00000014#32 = .ok .cryptFbDec ∧ decode 0x00000024#32 = .ok .cryptVbEnc ∧
  decode 0x00000034#32 = .ok .cryptVbDec ∧ decode 0x00000005#32 = .ok .b64enc ∧ decode 0x00000006#32 = .ok .b64dec ∧
  decode 0x00000007#32 = .ok .encryptFb ∧ decode 0x00000027#32 = .ok .encryptVb ∧
  decode 0x00000008#32 = .ok .decryptFb ∧ decode 0x00000028#32 = .ok .decryptVb ∧ decode 0x00000009#32 = .ok .sreset

/-- R102, R103: every bit of the word takes part. A 32-bit word decodes to a command exactly if it is that command's
encoded word, so decode and encode agree in both directions on all 2^32 words. -/
def Obligations.DecodeAndEncodeAgreeOnEveryWord : Prop :=
  ∀ (w : Word) (i : Instr), decode w = .ok i ↔ w = encode i

/-- R103's list of illegal words: a 1 in bits 31:6; OP of 10 to 15; DIR = 1 with OP other than 4; VAR = 1 with OP in 0, 1,
2, 5, 6, 9. -/
def Obligations.ListedIllegalWordsDecodeToNoCommand : Prop :=
  ∀ w : Word,
    (w.toNat / 2 ^ 6 ≠ 0 ∨ 10 ≤ w.toNat % 16 ∨ (w.getLsbD 4 = true ∧ w.toNat % 16 ≠ 4) ∨
      (w.getLsbD 5 = true ∧ w.toNat % 16 ∈ [0, 1, 2, 5, 6, 9])) →
    ∀ i : Instr, decode w ≠ .ok i

/-- R103, R104: the completion of a pending word that is no row's word raises IllegalCommand, code 6, with no other
effect. -/
def Obligations.IllegalWordCompletesWithCodeSixOnly : Prop :=
  ∀ (s s0 : State), s.nextTurn = (.engine, s0) → s.status.busy = true → (∀ i : Instr, s.cmdLatch ≠ encode i) →
    step s = .next { s0 with status := errorStatus s.status 6 }

/-! The step (spec/10_state.md section 7). -/

/-- R45: where a command other than SRESET is pending and the turn is the engine's, the step runs the command that CMD_LATCH
decodes to and adds nothing around `exec` but taking the turn off the schedule. Two clauses are the model's choice and no
rule's: a used-up schedule gives the engine the turn (notes/assumptions/5.md), and a latched SRESET, which no run reaches
and to which R251 gives no completion, is run too (notes/assumptions/6.md). -/
def Obligations.EngineStepRunsTheDecodedCommand : Prop :=
  ∀ (s : State) (i : Instr), s.status.busy = true → decode s.cmdLatch = .ok i →
    -- R45
    (i ≠ .sreset → ∀ rest, s.sched = .engine :: rest → step s = exec i { s with sched := rest }) ∧
    -- notes/assumptions/5.md
    (i ≠ .sreset → s.sched = [] → step s = exec i s) ∧
    -- notes/assumptions/6.md
    (i = .sreset →
      (∀ rest, s.sched = .engine :: rest → step s = exec .sreset { s with sched := rest }) ∧
      (s.sched = [] → step s = exec .sreset s))

/-- Spec/10_state.md R46: where the turn is the host's and its next statement has a bus access, the step is exactly that one
access; and the named statements make the accesses that R106 lists for them. The turns without an access (a label, a branch,
a host whose program has ended) are left to TurnsWithoutAnAccessKeepTheBlock and HostBranchFollowsBitOfScratch. -/
def Obligations.HostStepPerformsItsStatementsAccess : Prop :=
  (∀ (s s1 : State) (a : BusAccess), HostAccesses s a s1 → step s = hostAccess s1 a) ∧
  (∀ (c : Config) (r : Reg) (i : Nat) (b : Byte) (h : BitVec 16) (x : Word),
    stmtAccess c (.wr r x) = some (.write (c.base + regOffset r) .w32 x) ∧
    stmtAccess c (.rd r) = some (.read (c.base + regOffset r) .w32) ∧
    stmtAccess c (.wrb i b) = some (.write (c.base + (0x10000 + i)) .w8 (b.setWidth 32)) ∧
    stmtAccess c (.wrh i h) = some (.write (c.base + (0x10000 + i)) .w16 (h.setWidth 32)) ∧
    stmtAccess c (.wrw i x) = some (.write (c.base + (0x10000 + i)) .w32 x) ∧
    stmtAccess c (.rdb i) = some (.read (c.base + (0x10000 + i)) .w8) ∧
    stmtAccess c (.rdh i) = some (.read (c.base + (0x10000 + i)) .w16) ∧
    stmtAccess c (.rdw i) = some (.read (c.base + (0x10000 + i)) .w32))

/-- R106: a host branch continues at its label if bit k of t is 1, and at the next statement if it is 0; it changes nothing
but the host's place in its program. The model's choice (notes/assumptions/9.md): the branch takes a host turn of its own
without a bus access, and it continues at the place of the label itself, which then takes a turn too. -/
def Obligations.HostBranchFollowsBitOfScratch : Prop :=
  ∀ (s s0 : State) (k : Fin 32) (l j : Nat), s.nextTurn = (.host, s0) → s.prog[s.hpc]? = some (.bbs k l) →
    s.prog[j]? = some (.label l) → (∀ j', s.prog[j']? = some (.label l) → j' = j) →
    step s = .next { s0 with hpc := if s.scratch.getLsbD k.val then j else s.hpc + 1 }

/-! Invariants. -/

/-- The invariant holds after reset, for every legal choice of the parameters (spec/00_scope.md R7). -/
def Obligations.ResetStateMeetsTheInvariant : Prop :=
  State.reset.Inv ∧ ∀ c : Config, c.valid = true → (State.resetWith c).Inv

/-- Every step keeps the invariant: BUF stays canonical and within BUF_CAP, DONE and ERR are never both 1, ERR = 0 implies
ERRCODE = 0, ERRCODE 7 to 15 never occur, BUSY = 1 implies DONE = 0 and ERR = 0 (R34), and no SRESET word is ever pending
(R36). -/
def Obligations.EveryStepKeepsTheInvariant : Prop :=
  ∀ s t : State, s.Inv → step s = .next t → t.Inv

/-! Reset (spec/70_reset_and_hazards.md, spec/45_control.md). -/

/-- R290, R291: the platform's `rst` and SRESET have the same effect, on a pending command too: CMD_LATCH, STATUS, LEN,
KEY0-KEY3 and IRQEN become 0, ROUNDS 64, every BUF byte 0x00, `irq` 0; CAP and ID read their constants. The parameters and the host are
untouched. -/
def Obligations.BothResetsLeaveTheStatedValues : Prop :=
  ∀ s : State,
    ∃ t : State, exec .sreset s = .next t ∧ step { s with sched := .rst :: s.sched } = .next t ∧
      t.cmdLatch = 0x00000000#32 ∧ t.status.word = 0x00000000#32 ∧ t.status.busy = false ∧ t.rounds = 64#32 ∧
      t.len = 0#32 ∧ t.key = { k0 := 0#32, k1 := 0#32, k2 := 0#32, k3 := 0#32 } ∧ t.irqen.word = 0x00000000#32 ∧
      (∀ i, t.buf.read i = 0x00#8) ∧ t.irq = false ∧
      memRead t 0x024 .w32 = .next { t with scratch := BitVec.ofNat 32 s.cfg.bufCap } ∧
      memRead t 0x028 .w32 = .next { t with scratch := 0x46434531#32 } ∧
      t = { s with cmdLatch := t.cmdLatch, status := t.status, rounds := t.rounds, len := t.len, key := t.key, irqen := t.irqen, buf := t.buf }

/-- R251, R36: a host write of 0x00000009 to CMD is SRESET. It resets the block in that very step, at any BUSY value, sets
neither DONE nor WERR, and leaves CMD reading 0x00000000. -/
def Obligations.SresetWriteResetsInItsOwnStep : Prop :=
  ∀ (s s1 : State), HostAccesses s (.write s.cfg.base .w32 0x00000009#32) s1 →
    ∃ t : State, step s = .next t ∧ exec .sreset s1 = .next t ∧ t.cmdLatch = 0#32 ∧ t.status.word = 0#32 ∧
      t.rounds = 64#32 ∧ t.len = 0#32 ∧ t.key = { k0 := 0#32, k1 := 0#32, k2 := 0#32, k3 := 0#32 } ∧
      t.irqen.word = 0#32 ∧ (∀ i, t.buf.read i = 0x00#8) ∧ t.irq = false ∧
      t = { s1 with cmdLatch := t.cmdLatch, status := t.status, rounds := t.rounds, len := t.len, key := t.key, irqen := t.irqen, buf := t.buf }

/-! Registers (spec/10_state.md). -/

/-- R36: a host write of a word to CMD resets (the SRESET word), is accepted (BUSY = 0), or is dropped with WERR
(BUSY = 1); a read of CMD returns the last accepted word at any BUSY value; CMD_LATCH is 0 after reset. -/
def Obligations.CmdWriteIssuesResetsOrIsDropped : Prop :=
  (∀ (s : State) (x : Word),
    (x = 0x00000009#32 → memWrite s 0x000 .w32 x = exec .sreset s) ∧
    (x ≠ 0x00000009#32 → s.status.busy = false →
      memWrite s 0x000 .w32 x =
        .next { s with cmdLatch := x, status := { busy := true, done := false, err := false, werr := s.status.werr, errcode := 0#4 } }) ∧
    (x ≠ 0x00000009#32 → s.status.busy = true →
      memWrite s 0x000 .w32 x = .next { s with status := { s.status with werr := true } }) ∧
    memRead s 0x000 .w32 = .next { s with scratch := s.cmdLatch }) ∧
  ∀ c : Config, (State.resetWith c).cmdLatch = 0x00000000#32

/-- R34's layout of STATUS: BUSY, DONE, ERR, WERR in bits 0 to 3, ERRCODE in bits 11:8, every other bit 0, at any BUSY
value, on the host's read. -/
def Obligations.StatusReadsItsFields : Prop :=
  ∀ s : State, memRead s 0x004 .w32 = .next { s with scratch := s.status.word } ∧
    s.status.word.getLsbD 0 = s.status.busy ∧ s.status.word.getLsbD 1 = s.status.done ∧
    s.status.word.getLsbD 2 = s.status.err ∧ s.status.word.getLsbD 3 = s.status.werr ∧
    s.status.word.extractLsb' 8 4 = s.status.errcode ∧
    (∀ i, 4 ≤ i → i ≤ 7 → s.status.word.getLsbD i = false) ∧ ∀ i, 12 ≤ i → s.status.word.getLsbD i = false

/-- R34's W1C rule: a host write of X to STATUS, at any BUSY value, clears each of DONE, ERR, WERR whose position is 1 in
X and leaves the others; ERRCODE becomes 0 with ERR; BUSY and everything else stay. -/
def Obligations.StatusWriteClearsTheWrittenBits : Prop :=
  ∀ (s : State) (x : Word), ∃ t : State, memWrite s 0x004 .w32 x = .next t ∧ t = { s with status := t.status } ∧
    t.status.busy = s.status.busy ∧
    t.status.done = (if x.getLsbD 1 then false else s.status.done) ∧
    t.status.err = (if x.getLsbD 2 then false else s.status.err) ∧
    t.status.werr = (if x.getLsbD 3 then false else s.status.werr) ∧
    t.status.errcode = (if x.getLsbD 2 then 0#4 else s.status.errcode)

/-- R35: IRQEN holds DONE_IE, ERR_IE, WERR_IE, bits 0, 1 and 2 of the last write, at any BUSY value; bits 31:3 read as 0; a
write changes nothing else and is never dropped; IRQEN is 0 after reset. -/
def Obligations.IrqenStoresItsThreeBits : Prop :=
  (∀ (s : State) (x : Word), ∃ t : State, memWrite s 0x020 .w32 x = .next t ∧
    t = { s with irqen := { doneIe := x.getLsbD 0, errIe := x.getLsbD 1, werrIe := x.getLsbD 2 } } ∧
    memRead t 0x020 .w32 = .next { t with scratch := x &&& 0x00000007#32 }) ∧
  ∀ c : Config, (State.resetWith c).irqen.word = 0x00000000#32

/-- R44, R298: `irq` is the OR of DONE, ERR and WERR, each with its enable bit, on the words the host reads; a W1C write
that clears every pending bit leaves `irq` 0 at the end of that write. -/
def Obligations.IrqFollowsStatusAndEnables : Prop :=
  ∀ s : State,
    (s.irq = true ↔
      (s.status.word.getLsbD 1 = true ∧ s.irqen.word.getLsbD 0 = true) ∨
      (s.status.word.getLsbD 2 = true ∧ s.irqen.word.getLsbD 1 = true) ∨
      (s.status.word.getLsbD 3 = true ∧ s.irqen.word.getLsbD 2 = true)) ∧
    ∀ x : Word,
      (∀ b < 3, s.status.word.getLsbD (b + 1) = true → s.irqen.word.getLsbD b = true → x.getLsbD (b + 1) = true) →
      ∃ t : State, memWrite s 0x004 .w32 x = .next t ∧ t.irq = false

/-- R38, R40: CAP reads BUF_CAP and ID reads 0x46434531 at any BUSY value; writing either changes nothing; neither ever
changes, over any step of the machine. -/
def Obligations.CapAndIdAreConstants : Prop :=
  (∀ (s : State) (x : Word),
    memRead s 0x024 .w32 = .next { s with scratch := BitVec.ofNat 32 s.cfg.bufCap } ∧
    memRead s 0x028 .w32 = .next { s with scratch := 0x46434531#32 } ∧
    memWrite s 0x024 .w32 x = .next s ∧ memWrite s 0x028 .w32 x = .next s) ∧
  ∀ s t : State, step s = .next t → t.cfg = s.cfg

/-- R30, R32, R33: while BUSY = 0, a host write to ROUNDS, LEN or KEY0-KEY3 stores all 32 bits as written and changes
nothing else, and a read returns the register. -/
def Obligations.IdleRegisterWritesStoreAllBits : Prop :=
  ∀ (s : State) (x : Word), s.status.busy = false →
    memWrite s 0x008 .w32 x = .next { s with rounds := x } ∧
    memWrite s 0x00C .w32 x = .next { s with len := x } ∧
    memWrite s 0x010 .w32 x = .next { s with key := { s.key with k0 := x } } ∧
    memWrite s 0x014 .w32 x = .next { s with key := { s.key with k1 := x } } ∧
    memWrite s 0x018 .w32 x = .next { s with key := { s.key with k2 := x } } ∧
    memWrite s 0x01C .w32 x = .next { s with key := { s.key with k3 := x } } ∧
    memRead s 0x008 .w32 = .next { s with scratch := s.rounds } ∧
    memRead s 0x00C .w32 = .next { s with scratch := s.len } ∧
    memRead s 0x010 .w32 = .next { s with scratch := s.key.k0 } ∧
    memRead s 0x014 .w32 = .next { s with scratch := s.key.k1 } ∧
    memRead s 0x018 .w32 = .next { s with scratch := s.key.k2 } ∧
    memRead s 0x01C .w32 = .next { s with scratch := s.key.k3 }

/-! Memory (spec/20_memory.md). -/

/-- R72, R77: while BUSY = 0, a naturally aligned buffer access within BUF_CAP reads the sum of BUF[i+k] << 8k (its byte k
is BUF[i+k] for k below the width and 0 above), and writes BUF[i+k] <- v[8k+7:8k] for k below the width, every other byte and LEN unchanged. -/
def Obligations.IdleBufferAccessIsLittleEndian : Prop :=
  ∀ (s : State) (i : Nat) (w : Width) (x : Word), s.Inv → s.status.busy = false →
    i % widthBytes w = 0 → i + widthBytes w ≤ s.cfg.bufCap →
    (∃ v : Word, memRead s (0x10000 + i) w = .next { s with scratch := v } ∧
      ∀ k < 4, v.extractLsb' (8 * k) 8 = if k < widthBytes w then s.buf.read (i + k) else 0x00#8) ∧
    ∃ m : Memory, memWrite s (0x10000 + i) w x = .next { s with buf := m } ∧
      ∀ j, m.read j = if i ≤ j ∧ j < i + widthBytes w then x.extractLsb' (8 * (j - i)) 8 else s.buf.read j

/-- R71, R72, R74, R263: an access to a register offset that is not 32 bits wide and aligned, a misaligned buffer access or
one past BUF_CAP - 1, and an access to an unmapped offset fault with BusError, named by offset and width. That an illegal
access to BUF faults so while BUSY = 1 too is read from R294's "provided it is legal" (DEDUCED, notes/assumptions/7.md), not
stated. -/
def Obligations.RefusedAccessesFaultWithBusError : Prop :=
  ∀ (s : State) (off : Nat) (w : Width) (x : Word), off < 2 ^ 25 →
    ((off < 0x2C ∧ (w ≠ .w32 ∨ off % 4 ≠ 0)) ∨ (0x2C ≤ off ∧ off < 0x10000) ∨
      (0x10000 ≤ off ∧ ((off - 0x10000) % widthBytes w ≠ 0 ∨ s.cfg.bufCap < off - 0x10000 + widthBytes w))) →
    memRead s off w = .fault (.busError off w) ∧ memWrite s off w x = .fault (.busError off w)

/-- R71, R72, R294: no legal access within the window stops the machine, at any BUSY value. -/
def Obligations.LegalAccessesComplete : Prop :=
  ∀ (s : State) (off : Nat) (w : Width) (x : Word), s.cfg.valid = true →
    ((off < 0x2C ∧ w = .w32 ∧ off % 4 = 0) ∨
      (0x10000 ≤ off ∧ (off - 0x10000) % widthBytes w = 0 ∧ off - 0x10000 + widthBytes w ≤ s.cfg.bufCap)) →
    (∃ t, memRead s off w = .next t) ∧ ∃ t, memWrite s off w x = .next t

/-! Hazards (spec/70_reset_and_hazards.md). -/

/-- R294, R264: while BUSY = 1, a legal host write to CMD (but for the SRESET word), ROUNDS, LEN, KEY0-KEY3 or BUF sets
WERR and has no other effect; a write to STATUS or IRQEN is never dropped. -/
def Obligations.BusyWritesAreDroppedWithWerr : Prop :=
  ∀ (s : State) (off : Nat) (w : Width) (x : Word), s.cfg.valid = true → s.status.busy = true →
    (lockedForWrite off → (off < 0x10000 → w = .w32) → (off = 0x000 → x ≠ 0x00000009#32) →
      (0x10000 ≤ off → (off - 0x10000) % widthBytes w = 0 ∧ off - 0x10000 + widthBytes w ≤ s.cfg.bufCap) →
      memWrite s off w x = .next { s with status := { s.status with werr := true } }) ∧
    (∃ t, memWrite s 0x004 .w32 x = .next t ∧ t.status.werr = (s.status.werr && !x.getLsbD 3)) ∧
    ∃ t, memWrite s 0x020 .w32 x = .next t ∧ t.status = s.status ∧ t.irqen.word = x &&& 0x00000007#32

/-- R295: while BUSY = 1, a legal host read of LEN, KEY0-KEY3 or BUF returns the next draw, cut to the access's width, and
disturbs nothing but the count of draws; a read of CMD, STATUS, ROUNDS, IRQEN, CAP or ID returns its value as usual.
The draw itself is free (notes/assumptions/3.md): the statement says nothing about its value. -/
def Obligations.BusyReadsAreDraws : Prop :=
  ∀ (s : State) (off : Nat) (w : Width), s.cfg.valid = true → s.status.busy = true →
    (lockedForRead off → (off < 0x10000 → w = .w32) →
      (0x10000 ≤ off → (off - 0x10000) % widthBytes w = 0 ∧ off - 0x10000 + widthBytes w ≤ s.cfg.bufCap) →
      ∃ v : Word, memRead s off w = .next { s with scratch := v, drawCount := s.drawCount + 1 } ∧
        v.toNat = (Config.draw s.drawCount).toNat % 2 ^ (8 * widthBytes w)) ∧
    memRead s 0x000 .w32 = .next { s with scratch := s.cmdLatch } ∧
    memRead s 0x004 .w32 = .next { s with scratch := s.status.word } ∧
    memRead s 0x008 .w32 = .next { s with scratch := s.rounds } ∧
    memRead s 0x020 .w32 = .next { s with scratch := s.irqen.word } ∧
    memRead s 0x024 .w32 = .next { s with scratch := BitVec.ofNat 32 s.cfg.bufCap } ∧
    memRead s 0x028 .w32 = .next { s with scratch := 0x46434531#32 }

/-- R294's conclusion, "So the command's inputs are exactly the state at acceptance": while BUSY = 1, no host step but
the SRESET write changes KEY, BUF, LEN, ROUNDS, CMD_LATCH or BUSY. -/
def Obligations.HostStepsKeepPendingInputs : Prop :=
  ∀ (s s0 t : State), s.nextTurn = (.host, s0) → s.status.busy = true → step s = .next t →
    (t.key = s.key ∧ t.buf = s.buf ∧ t.len = s.len ∧ t.rounds = s.rounds ∧ t.cmdLatch = s.cmdLatch ∧
      t.status.busy = true) ∨
    ∃ s1, HostAccesses s (.write s.cfg.base .w32 0x00000009#32) s1 ∧ t = s1.blockReset

/-- R45, R296 ("Completion always occurs"): a pending command is completed by the engine's step, on the inputs it was pending
with, if no reset comes first: no `rst` among the turns to come, no SRESET write in the host's program, and every access of
that program legal, every branch to a declared label, so that the host does not stop the run. The bound, as many turns as the
schedule holds before the completion's own, is the model's choice (notes/assumptions/5.md); the word of SRESET, which no run
latches, is excluded (notes/assumptions/6.md). -/
def Obligations.PendingCommandCompletesWithinItsSchedule : Prop :=
  ∀ s : State, s.status.busy = true → s.cmdLatch ≠ 0x00000009#32 → Turn.rst ∉ s.sched →
    (∀ st ∈ s.prog, ∀ a, stmtAccess s.cfg st = some a →
      a ≠ .write s.cfg.base .w32 0x00000009#32 ∧ ∃ t, hostAccess s a = .next t) →
    (∀ k l, HostStmt.bbs k l ∈ s.prog → HostStmt.label l ∈ s.prog) →
    ∃ (k : Nat) (u t : State), k ≤ s.sched.length ∧ Sys2Proof.core.run k s = .next u ∧ CompletesPending s u t

/-- R297: a host that keeps its obligation loses no write and reads no draw. -/
def Obligations.ObligedHostLosesNoWriteAndReadsNoDraw : Prop :=
  ∀ (s s1 t : State) (a : BusAccess), s.Inv → HostAccesses s a s1 → keepsObligation s1 a → step s = .next t →
    t.drawCount = s.drawCount ∧ (s.status.werr = false → t.status.werr = false)

/-- R264, R34: only a STATUS write with bit 3 set, or a reset, clears WERR; no command does, and acceptance does not. -/
def Obligations.WerrClearsOnlyByHostClearOrReset : Prop :=
  ∀ s t : State, s.Inv → step s = .next t → s.status.werr = true → t.status.werr = false →
    (∃ s0, s.nextTurn = (.rst, s0)) ∨
    (∃ s1, HostAccesses s (.write s.cfg.base .w32 0x00000009#32) s1) ∨
    ∃ s1 x, HostAccesses s (.write (s.cfg.base + 0x004) .w32 x) s1 ∧ x.getLsbD 3 = true

/-- R30's list of writers, with reset: a step that changes the key is a reset, an idle host write to KEY0-KEY3, or the
completion of KEYPACK or KEYTAKE. -/
def Obligations.KeyChangesOnlyByItsWriters : Prop :=
  ∀ s t : State, s.Inv → step s = .next t → t.key ≠ s.key →
    (∃ s0, s.nextTurn = (.rst, s0)) ∨
    (∃ s1, HostAccesses s (.write s.cfg.base .w32 0x00000009#32) s1) ∨
    (s.status.busy = false ∧ ∃ s1 x off, off ∈ [0x010, 0x014, 0x018, 0x01C] ∧
      HostAccesses s (.write (s.cfg.base + off) .w32 x) s1) ∨
    ∃ s0, s.nextTurn = (.engine, s0) ∧ s.status.busy = true ∧ t.status.done = true ∧
      (s.cmdLatch = 0x00000001#32 ∨ s.cmdLatch = 0x00000002#32)

/-- R33: "No command writes ROUNDS", and R83: a completion changes nothing but KEY, BUF, LEN and STATUS; with the columns
"writes" of R101: only KEYPACK and KEYTAKE write KEY, NOP and KEYPACK leave BUF and LEN, and CRYPT.* leaves LEN. Every
command but SRESET completes: BUSY is 0 and WERR as before. -/
def Obligations.CommandsWriteOnlyTheirOutputs : Prop :=
  ∀ (i : Instr) (s : State), i ≠ .sreset →
    ∃ t : State, exec i s = .next t ∧
      t = { s with key := t.key, buf := t.buf, len := t.len, status := t.status } ∧
      t.status.busy = false ∧ t.status.werr = s.status.werr ∧
      (i ≠ .keypack → i ≠ .keytake → t.key = s.key) ∧
      (i = .nop ∨ i = .keypack → ∀ j, t.buf.read j = s.buf.read j) ∧
      (i = .nop ∨ i = .keypack ∨ i = .cryptFbEnc ∨ i = .cryptFbDec ∨ i = .cryptVbEnc ∨ i = .cryptVbDec →
        t.len = s.len)

/-! Errors (spec/60_exceptions.md). -/

/-- R261: the numeric codes. -/
def Obligations.ErrorCodesAreNumbered : Prop :=
  CmdError.decodeError.code = 1 ∧ CmdError.invalidBlockLength.code = 2 ∧ CmdError.inputTooLarge.code = 3 ∧
  CmdError.missingKeyMaterial.code = 4 ∧ CmdError.invalidBufferLength.code = 5 ∧ CmdError.illegalCommand.code = 6

/-- R262, R265, R266: each command but SRESET reports exactly the first error that applies, in the stated order, and then
changes STATUS alone; where none applies it succeeds, with DONE = 1, ERR = 0, ERRCODE = 0. -/
def Obligations.EachCommandReportsItsFirstError : Prop :=
  ∀ (i : Instr) (s : State), i ≠ .sreset →
    (∀ e, expectedError i s = some e → exec i s = .next { s with status := errorStatus s.status e.code }) ∧
    (expectedError i s = none → ∃ t : State, exec i s = .next t ∧ t.status = doneStatus s.status)

/-- R47: where a command other than NOP, KEYPACK and SRESET succeeds, every byte at or past the new LEN is 0x00, and the
new LEN is at most BUF_CAP. -/
def Obligations.SuccessfulDataCommandsZeroTheTail : Prop :=
  ∀ (i : Instr) (s : State), s.Inv → i ≠ .nop → i ≠ .keypack → i ≠ .sreset → expectedError i s = none →
    ∃ t : State, exec i s = .next t ∧ t.status.done = true ∧ t.len.toNat ≤ s.cfg.bufCap ∧
      ∀ j, t.len.toNat ≤ j → t.buf.read j = 0x00#8

/-! Control and key commands (spec/45_control.md, spec/40_key_wordpack.md). -/

/-- R250: NOP (the word 0x00000000) completes with DONE = 1 and no effect beyond STATUS, whatever LEN is. -/
def Obligations.NopCompletesWithNoEffect : Prop :=
  decode 0x00000000#32 = .ok .nop ∧ ∀ s : State, exec .nop s = .next { s with status := doneStatus s.status }

/-- R131, R130: KEYPACK (the word 0x00000001) packs BUF[0..min(LEN,16)), zero-filled to 16 bytes: byte j of KEY[i] is byte
4i+j, least significant first. KEY and STATUS change and nothing else; LEN > BUF_CAP is InputTooLarge, code 3. -/
def Obligations.KeypackPacksTheFirstSixteenBytes : Prop :=
  decode 0x00000001#32 = .ok .keypack ∧
  ∀ s : State,
    (s.cfg.bufCap < s.len.toNat → exec .keypack s = .next { s with status := errorStatus s.status 3 }) ∧
    (s.len.toNat ≤ s.cfg.bufCap →
      ∃ k : KeyFile, exec .keypack s = .next { s with key := k, status := doneStatus s.status } ∧
        ∀ i j, i < 4 → j < 4 →
          (k.get (BitVec.ofNat 2 i)).extractLsb' (8 * j) 8 =
            if 4 * i + j < min s.len.toNat 16 then s.buf.read (4 * i + j) else 0x00#8)

/-- R132, R130: KEYTAKE (the word 0x00000002) takes the first 16 bytes as the key and moves the rest down by 16, zeroing
what is vacated. InputTooLarge (3) before MissingKeyMaterial (4); on either only STATUS changes. -/
def Obligations.KeytakeTakesSixteenBytesFromTheFront : Prop :=
  decode 0x00000002#32 = .ok .keytake ∧
  ∀ s : State,
    (s.cfg.bufCap < s.len.toNat → exec .keytake s = .next { s with status := errorStatus s.status 3 }) ∧
    (s.len.toNat ≤ s.cfg.bufCap → s.len.toNat < 16 →
      exec .keytake s = .next { s with status := errorStatus s.status 4 }) ∧
    (s.len.toNat ≤ s.cfg.bufCap → 16 ≤ s.len.toNat →
      ∃ (k : KeyFile) (m : Memory),
        exec .keytake s = .next { s with key := k, buf := m, len := s.len - 16#32, status := doneStatus s.status } ∧
        (∀ i j, i < 4 → j < 4 → (k.get (BitVec.ofNat 2 i)).extractLsb' (8 * j) 8 = s.buf.read (4 * i + j)) ∧
        ∀ j, m.read j = if j + 16 < s.len.toNat then s.buf.read (j + 16) else 0x00#8)

/-- R133: two buffers that agree on their first min(LEN, 16) bytes, zero-filled, give the same key under KEYPACK. -/
def Obligations.KeypackDependsOnlyOnZeroFilledBytes : Prop :=
  ∀ s s' : State, s.len.toNat ≤ s.cfg.bufCap → s'.len.toNat ≤ s'.cfg.bufCap →
    (∀ i < 16, (if i < s.len.toNat then s.buf.read i else 0x00#8) =
      (if i < s'.len.toNat then s'.buf.read i else 0x00#8)) →
    ∃ t t' : State, exec .keypack s = .next t ∧ exec .keypack s' = .next t' ∧ t.key = t'.key

/-! Codec (spec/41_codec.md). -/

/-- R150, R151: the symbol table. idx inverts sym, every byte that is no symbol has no index, and sym is the stated
alphabet. -/
def Obligations.SymbolLookupInvertsTheAlphabet : Prop :=
  (∀ (c : Byte) (i : BitVec 6), idxOf c = some i ↔ c = symOf i) ∧
  (∀ i : BitVec 6, (symOf i).toNat =
    if i.toNat ≤ 25 then 0x41 + i.toNat
    else if i.toNat ≤ 51 then 0x61 + (i.toNat - 26)
    else if i.toNat ≤ 61 then 0x30 + (i.toNat - 52)
    else if i.toNat = 62 then 0x2D else 0x5F)

/-- R154, R152: B64ENC replaces BUF[0..LEN) by ceil(8L/6) symbols; symbol g spells bits 6g to 6g+5 of the bytes' stream,
most significant first, zero past its end; the tail is zero. Both InputTooLarge cases change STATUS alone. -/
def Obligations.B64encSpellsTheBitStream : Prop :=
  decode 0x00000005#32 = .ok .b64enc ∧
  ∀ s : State, s.cfg.valid = true →
    (s.cfg.bufCap < s.len.toNat ∨ s.cfg.bufCap < (8 * s.len.toNat + 5) / 6 →
      exec .b64enc s = .next { s with status := errorStatus s.status 3 }) ∧
    (s.len.toNat ≤ s.cfg.bufCap → (8 * s.len.toNat + 5) / 6 ≤ s.cfg.bufCap →
      ∃ m : Memory,
        exec .b64enc s =
          .next { s with buf := m, len := BitVec.ofNat 32 ((8 * s.len.toNat + 5) / 6), status := doneStatus s.status } ∧
        (∀ g < (8 * s.len.toNat + 5) / 6, ∃ v : BitVec 6, m.read g = symOf v ∧
          ∀ b < 6, v.getLsbD (5 - b) =
            (decide (6 * g + b < 8 * s.len.toNat) &&
              (s.buf.read ((6 * g + b) / 8)).getLsbD (7 - (6 * g + b) % 8))) ∧
        ∀ g, (8 * s.len.toNat + 5) / 6 ≤ g → m.read g = 0x00#8)

/-- R155, R153: where every byte of BUF[0..LEN) is a symbol, B64DEC replaces them by the floor(6m/8) complete bytes of the
symbols' bit stream, leftover bits discarded, the tail zero; where one is not, DecodeError (1); before both,
InputTooLarge (3). The errors change STATUS alone. -/
def Obligations.B64decReadsTheSymbolStream : Prop :=
  decode 0x00000006#32 = .ok .b64dec ∧
  ∀ s : State,
    (s.cfg.bufCap < s.len.toNat → exec .b64dec s = .next { s with status := errorStatus s.status 3 }) ∧
    (s.len.toNat ≤ s.cfg.bufCap → (∃ i < s.len.toNat, ¬isSymbol (s.buf.read i)) →
      exec .b64dec s = .next { s with status := errorStatus s.status 1 }) ∧
    ∀ v : Nat → BitVec 6, s.len.toNat ≤ s.cfg.bufCap → (∀ i < s.len.toNat, s.buf.read i = symOf (v i)) →
      ∃ m : Memory,
        exec .b64dec s =
          .next { s with buf := m, len := BitVec.ofNat 32 (6 * s.len.toNat / 8), status := doneStatus s.status } ∧
        (∀ j < 6 * s.len.toNat / 8, ∀ b < 8,
          (m.read j).getLsbD (7 - b) = (v ((8 * j + b) / 6)).getLsbD (5 - (8 * j + b) % 6)) ∧
        ∀ j, 6 * s.len.toNat / 8 ≤ j → m.read j = 0x00#8

/-- R156: B64ENC followed by B64DEC restores LEN and BUF[0..LEN), for every buffer whose text fits. -/
def Obligations.B64RoundTripRestoresTheBuffer : Prop :=
  ∀ s : State, s.cfg.valid = true → s.len.toNat ≤ s.cfg.bufCap → (8 * s.len.toNat + 5) / 6 ≤ s.cfg.bufCap →
    ∃ t u : State, exec .b64enc s = .next t ∧ exec .b64dec t = .next u ∧ u.status.done = true ∧ u.len = s.len ∧
      ∀ j < s.len.toNat, u.buf.read j = s.buf.read j

/-! FixedBlock (spec/42_fixed_block.md). -/

/-- R182, R181, R180: block encryption with M iterations is the stated recurrence. a and b are v0 and v1 before each
iteration; iteration i+1 starts with acc = i * DELTA and ends with (i+1) * DELTA. -/
def Obligations.FixedBlockEncryptionIsTheStatedRecurrence : Prop :=
  ∀ (k : KeyFile) (m : Nat) (v : Word × Word),
    ∃ a b acc : Nat → Word, (∀ i, acc i = 0x9E3779B9#32 * BitVec.ofNat 32 i) ∧ a 0 = v.1 ∧ b 0 = v.2 ∧
      (∀ i < m,
        a (i + 1) = a i + ((((b i <<< 4) ^^^ (b i >>> 5)) + b i) ^^^
          (acc i + k.get ((acc i).extractLsb' 0 2))) ∧
        b (i + 1) = b i + ((((a (i + 1) <<< 4) ^^^ (a (i + 1) >>> 5)) + a (i + 1)) ^^^
          (acc (i + 1) + k.get ((acc (i + 1)).extractLsb' 11 2)))) ∧
      fbEncrypt k m v = (a m, b m)

/-- R183: block decryption with M iterations is the stated recurrence: iteration i+1 starts with
acc = (M - i) * DELTA mod 2^32, undoes v1, decrements, undoes v0. -/
def Obligations.FixedBlockDecryptionIsTheStatedRecurrence : Prop :=
  ∀ (k : KeyFile) (m : Nat) (v : Word × Word),
    ∃ a b acc : Nat → Word, (∀ i ≤ m, acc i = 0x9E3779B9#32 * BitVec.ofNat 32 (m - i)) ∧ a 0 = v.1 ∧ b 0 = v.2 ∧
      (∀ i < m,
        b (i + 1) = b i - ((((a i <<< 4) ^^^ (a i >>> 5)) + a i) ^^^
          (acc i + k.get ((acc i).extractLsb' 11 2))) ∧
        a (i + 1) = a i - ((((b (i + 1) <<< 4) ^^^ (b (i + 1) >>> 5)) + b (i + 1)) ^^^
          (acc (i + 1) + k.get ((acc (i + 1)).extractLsb' 0 2)))) ∧
      fbDecrypt k m v = (a m, b m)

/-- R186, R187, R184, R185: on a whole number of 8-byte blocks, CRYPT.FB.ENC (0x00000004) and CRYPT.FB.DEC (0x00000014)
replace block b, the words BufWord(2b) and BufWord(2b+1), by its encryption with M = ROUNDS, or its decryption, each block
alone; LEN stays, the tail becomes zero, nothing else but STATUS changes. LEN > BUF_CAP is InputTooLarge (3), then a length
that is no multiple of 8 is InvalidBufferLength (5). -/
def Obligations.CryptFbTransformsEachBlockAlone : Prop :=
  decode 0x00000004#32 = .ok .cryptFbEnc ∧ decode 0x00000014#32 = .ok .cryptFbDec ∧
  ∀ (s : State) (i : Instr) (f : KeyFile → Nat → Word × Word → Word × Word),
    (i = .cryptFbEnc ∧ f = fbEncrypt) ∨ (i = .cryptFbDec ∧ f = fbDecrypt) →
    (s.cfg.bufCap < s.len.toNat → exec i s = .next { s with status := errorStatus s.status 3 }) ∧
    (s.len.toNat ≤ s.cfg.bufCap → s.len.toNat % 8 ≠ 0 →
      exec i s = .next { s with status := errorStatus s.status 5 }) ∧
    (s.len.toNat ≤ s.cfg.bufCap → s.len.toNat % 8 = 0 →
      ∃ m : Memory, exec i s = .next { s with buf := m, status := doneStatus s.status } ∧
        (∀ b < s.len.toNat / 8,
          (m.word (2 * b), m.word (2 * b + 1)) =
            f s.key s.rounds.toNat (s.buf.word (2 * b), s.buf.word (2 * b + 1))) ∧
        ∀ j, s.len.toNat ≤ j → m.read j = 0x00#8)

/-- R188: decryption inverts encryption, block by block for every M, and as commands: CRYPT.FB.DEC after CRYPT.FB.ENC
restores BUF[0..LEN). -/
def Obligations.FixedBlockDecryptionInvertsEncryption : Prop :=
  (∀ (k : KeyFile) (m : Nat) (v : Word × Word), fbDecrypt k m (fbEncrypt k m v) = v) ∧
  ∀ s : State, s.len.toNat ≤ s.cfg.bufCap → s.len.toNat % 8 = 0 →
    ∃ t u : State, exec .cryptFbEnc s = .next t ∧ exec .cryptFbDec t = .next u ∧ u.status.done = true ∧
      u.len = s.len ∧ ∀ j < s.len.toNat, u.buf.read j = s.buf.read j

/-! VariableBlock (spec/43_variable_block.md). -/

/-- R200, R201, R202: encryption of n >= 2 words is the stated recurrence. w r p is the word list in round r+1 before
position p is updated; the update at p reads the current circular neighbours and acc = (r+1) * DELTA. -/
def Obligations.VariableBlockEncryptionIsTheStatedRecurrence : Prop :=
  ∀ (k : KeyFile) (v : List Word) (n : Nat), n = v.length → 2 ≤ n →
    ∃ w : Nat → Nat → List Word, w 0 0 = v ∧
      (∀ r < 6 + 52 / n, w (r + 1) 0 = w r n) ∧
      (∀ r < 6 + 52 / n, ∀ p < n, ∀ z y acc : Word,
        z = (w r p).getD ((p + n - 1) % n) 0#32 → y = (w r p).getD ((p + 1) % n) 0#32 →
        acc = 0x9E3779B9#32 * BitVec.ofNat 32 (r + 1) →
        w r (p + 1) = (w r p).set p ((w r p).getD p 0#32 +
          ((((z >>> 5) ^^^ (y <<< 2)) + ((y >>> 3) ^^^ (z <<< 4))) ^^^
            ((acc ^^^ y) + (k.get (BitVec.ofNat 2 (p % 4) ^^^ acc.extractLsb' 2 2) ^^^ z))))) ∧
      vbEncrypt k v = w (6 + 52 / n) 0

/-- R203: decryption of n >= 2 words is the stated recurrence, positions descending: w r q is the word list in round r+1
before position n-1-q is updated, with acc = (Q - r) * DELTA mod 2^32 and e taken from it before the decrement. -/
def Obligations.VariableBlockDecryptionIsTheStatedRecurrence : Prop :=
  ∀ (k : KeyFile) (v : List Word) (n : Nat), n = v.length → 2 ≤ n →
    ∃ w : Nat → Nat → List Word, w 0 0 = v ∧
      (∀ r < 6 + 52 / n, w (r + 1) 0 = w r n) ∧
      (∀ r < 6 + 52 / n, ∀ q < n, ∀ (p : Nat) (z y acc : Word), p = n - 1 - q →
        z = (w r q).getD ((p + n - 1) % n) 0#32 → y = (w r q).getD ((p + 1) % n) 0#32 →
        acc = 0x9E3779B9#32 * BitVec.ofNat 32 (6 + 52 / n - r) →
        w r (q + 1) = (w r q).set p ((w r q).getD p 0#32 -
          ((((z >>> 5) ^^^ (y <<< 2)) + ((y >>> 3) ^^^ (z <<< 4))) ^^^
            ((acc ^^^ y) + (k.get (BitVec.ofNat 2 (p % 4) ^^^ acc.extractLsb' 2 2) ^^^ z))))) ∧
      vbDecrypt k v = w (6 + 52 / n) 0

/-- R205, R206: on n = LEN/4 >= 2 words, CRYPT.VB.ENC (0x00000024) and CRYPT.VB.DEC (0x00000034) replace the words of
BUF[0..LEN) by their encryption or decryption as one block; LEN stays, the tail becomes zero, nothing else but STATUS
changes. Errors, in order: InputTooLarge (3), InvalidBufferLength (5), InvalidBlockLength (2) for LEN of 0 or 4. -/
def Obligations.CryptVbTransformsTheWholeBuffer : Prop :=
  decode 0x00000024#32 = .ok .cryptVbEnc ∧ decode 0x00000034#32 = .ok .cryptVbDec ∧
  ∀ (s : State) (i : Instr) (f : KeyFile → List Word → List Word),
    (i = .cryptVbEnc ∧ f = vbEncrypt) ∨ (i = .cryptVbDec ∧ f = vbDecrypt) →
    (s.cfg.bufCap < s.len.toNat → exec i s = .next { s with status := errorStatus s.status 3 }) ∧
    (s.len.toNat ≤ s.cfg.bufCap → s.len.toNat % 4 ≠ 0 →
      exec i s = .next { s with status := errorStatus s.status 5 }) ∧
    (s.len.toNat ≤ s.cfg.bufCap → s.len.toNat = 0 ∨ s.len.toNat = 4 →
      exec i s = .next { s with status := errorStatus s.status 2 }) ∧
    (s.len.toNat ≤ s.cfg.bufCap → s.len.toNat % 4 = 0 → 8 ≤ s.len.toNat →
      ∃ m : Memory, exec i s = .next { s with buf := m, status := doneStatus s.status } ∧
        (∀ j < s.len.toNat / 4,
          m.word j = (f s.key ((List.range (s.len.toNat / 4)).map s.buf.word)).getD j 0#32) ∧
        ∀ j, s.len.toNat ≤ j → m.read j = 0x00#8)

/-- R207: decryption inverts encryption for every n >= 2, word list and key. -/
def Obligations.VariableBlockDecryptionInvertsEncryption : Prop :=
  ∀ (k : KeyFile) (v : List Word), 2 ≤ v.length → vbDecrypt k (vbEncrypt k v) = v

/-- R200, R205, R206 ("ROUNDS is not read"): the VariableBlock commands do the same whatever ROUNDS holds. -/
def Obligations.VariableBlockCommandsIgnoreRounds : Prop :=
  ∀ (s : State) (i : Instr) (r : Word), i ∈ [Instr.cryptVbEnc, .cryptVbDec, .encryptVb, .decryptVb] →
    ∃ t : State, exec i s = .next t ∧ exec i { s with rounds := r } = .next { t with rounds := r }

/-! Padding and pipeline (spec/44_padding_pipeline.md). -/

/-- R221, R222, R220: PAD.FB (0x00000003) and PAD.VB (0x00000023) extend BUF[0..LEN) with 0x00 bytes to the least multiple
of 8, or 4, not below LEN, whatever the tail held; the tail is zero. LEN > BUF_CAP is InputTooLarge (3). -/
def Obligations.PadExtendsToTheNextMultiple : Prop :=
  decode 0x00000003#32 = .ok .padFb ∧ decode 0x00000023#32 = .ok .padVb ∧
  ∀ (s : State) (i : Instr) (u : Nat), s.cfg.valid = true → (i = .padFb ∧ u = 8) ∨ (i = .padVb ∧ u = 4) →
    (s.cfg.bufCap < s.len.toNat → exec i s = .next { s with status := errorStatus s.status 3 }) ∧
    (s.len.toNat ≤ s.cfg.bufCap →
      ∃ m : Memory, u * ((s.len.toNat + (u - 1)) / u) ≤ s.cfg.bufCap ∧
        exec i s = .next { s with buf := m, len := BitVec.ofNat 32 (u * ((s.len.toNat + (u - 1)) / u)), status := doneStatus s.status } ∧
        ∀ j, m.read j = if j < s.len.toNat then s.buf.read j else 0x00#8)

/-- R223: ENCRYPT.FB (0x00000007) is PAD.FB, then CRYPT.FB.ENC, then B64ENC, in one command, wherever the text fits; LEN
over BUF_CAP, or a text that does not fit, is InputTooLarge (3), which changes STATUS alone. -/
def Obligations.EncryptFbIsPadCryptEncode : Prop :=
  decode 0x00000007#32 = .ok .encryptFb ∧
  ∀ s : State, s.cfg.valid = true →
    (s.cfg.bufCap < s.len.toNat ∨ s.cfg.bufCap < (8 * (8 * ((s.len.toNat + 7) / 8)) + 5) / 6 →
      exec .encryptFb s = .next { s with status := errorStatus s.status 3 }) ∧
    (s.len.toNat ≤ s.cfg.bufCap → (8 * (8 * ((s.len.toNat + 7) / 8)) + 5) / 6 ≤ s.cfg.bufCap →
      ∃ s1 s2 t : State, exec .padFb s = .next s1 ∧ exec .cryptFbEnc s1 = .next s2 ∧ exec .b64enc s2 = .next t ∧
        t.status = doneStatus s.status ∧ exec .encryptFb s = .next t)

/-- R224: ENCRYPT.VB (0x00000027) is PAD.VB, then CRYPT.VB.ENC, then B64ENC, in one command, for 5 bytes and more, wherever
the text fits; the empty plaintext gives the empty text. Errors, in order: InputTooLarge (3) for LEN over BUF_CAP,
InvalidBlockLength (2) for 1 to 4 bytes, InputTooLarge (3) for a text that does not fit. -/
def Obligations.EncryptVbIsPadCryptEncode : Prop :=
  decode 0x00000027#32 = .ok .encryptVb ∧
  ∀ s : State, s.cfg.valid = true →
    (s.len.toNat = 0 → ∃ m : Memory, exec .encryptVb s = .next { s with buf := m, status := doneStatus s.status } ∧
      ∀ j, m.read j = 0x00#8) ∧
    (s.cfg.bufCap < s.len.toNat → exec .encryptVb s = .next { s with status := errorStatus s.status 3 }) ∧
    (1 ≤ s.len.toNat → s.len.toNat ≤ 4 → exec .encryptVb s = .next { s with status := errorStatus s.status 2 }) ∧
    (5 ≤ s.len.toNat → s.cfg.bufCap < (8 * (4 * ((s.len.toNat + 3) / 4)) + 5) / 6 →
      exec .encryptVb s = .next { s with status := errorStatus s.status 3 }) ∧
    (5 ≤ s.len.toNat → s.len.toNat ≤ s.cfg.bufCap →
      (8 * (4 * ((s.len.toNat + 3) / 4)) + 5) / 6 ≤ s.cfg.bufCap →
      ∃ s1 s2 t : State, exec .padVb s = .next s1 ∧ exec .cryptVbEnc s1 = .next s2 ∧ exec .b64enc s2 = .next t ∧
        t.status = doneStatus s.status ∧ exec .encryptVb s = .next t)

/-- R225, R227: DECRYPT.FB (0x00000008) is B64DEC, then CRYPT.FB.DEC, in one command, with no byte stripped, wherever every
byte is a symbol and the decoded length is a multiple of 8. Errors, in order: InputTooLarge (3), DecodeError (1),
InvalidBufferLength (5) for any other decoded length. -/
def Obligations.DecryptFbIsDecodeCrypt : Prop :=
  decode 0x00000008#32 = .ok .decryptFb ∧
  ∀ s : State,
    (s.cfg.bufCap < s.len.toNat → exec .decryptFb s = .next { s with status := errorStatus s.status 3 }) ∧
    (s.len.toNat ≤ s.cfg.bufCap → (∃ i < s.len.toNat, ¬isSymbol (s.buf.read i)) →
      exec .decryptFb s = .next { s with status := errorStatus s.status 1 }) ∧
    (s.len.toNat ≤ s.cfg.bufCap → (∀ i < s.len.toNat, isSymbol (s.buf.read i)) → 6 * s.len.toNat / 8 % 8 ≠ 0 →
      exec .decryptFb s = .next { s with status := errorStatus s.status 5 }) ∧
    (s.len.toNat ≤ s.cfg.bufCap → (∀ i < s.len.toNat, isSymbol (s.buf.read i)) → 6 * s.len.toNat / 8 % 8 = 0 →
      ∃ s1 t : State, exec .b64dec s = .next s1 ∧ exec .cryptFbDec s1 = .next t ∧ t.status = doneStatus s.status ∧
        t.len.toNat = 6 * s.len.toNat / 8 ∧ exec .decryptFb s = .next t)

/-- R226, R227: DECRYPT.VB (0x00000028) is B64DEC, then CRYPT.VB.DEC, in one command, with no byte stripped, wherever every
byte is a symbol and the decoded length is a multiple of 4 and at least 8; where it is 0 the result is empty. Errors, in
order: InputTooLarge (3), DecodeError (1), InvalidBufferLength (5), InvalidBlockLength (2) for 4 decoded bytes. -/
def Obligations.DecryptVbIsDecodeCrypt : Prop :=
  decode 0x00000028#32 = .ok .decryptVb ∧
  ∀ s : State,
    (s.cfg.bufCap < s.len.toNat → exec .decryptVb s = .next { s with status := errorStatus s.status 3 }) ∧
    (s.len.toNat ≤ s.cfg.bufCap → (∃ i < s.len.toNat, ¬isSymbol (s.buf.read i)) →
      exec .decryptVb s = .next { s with status := errorStatus s.status 1 }) ∧
    (s.len.toNat ≤ s.cfg.bufCap → (∀ i < s.len.toNat, isSymbol (s.buf.read i)) → 6 * s.len.toNat / 8 % 4 ≠ 0 →
      exec .decryptVb s = .next { s with status := errorStatus s.status 5 }) ∧
    (s.len.toNat ≤ s.cfg.bufCap → (∀ i < s.len.toNat, isSymbol (s.buf.read i)) → 6 * s.len.toNat / 8 = 4 →
      exec .decryptVb s = .next { s with status := errorStatus s.status 2 }) ∧
    (s.len.toNat ≤ s.cfg.bufCap → (∀ i < s.len.toNat, isSymbol (s.buf.read i)) → 6 * s.len.toNat / 8 = 0 →
      ∃ m : Memory, exec .decryptVb s = .next { s with buf := m, len := 0#32, status := doneStatus s.status } ∧
        ∀ j, m.read j = 0x00#8) ∧
    (s.len.toNat ≤ s.cfg.bufCap → (∀ i < s.len.toNat, isSymbol (s.buf.read i)) → 6 * s.len.toNat / 8 % 4 = 0 →
      8 ≤ 6 * s.len.toNat / 8 →
      ∃ s1 t : State, exec .b64dec s = .next s1 ∧ exec .cryptVbDec s1 = .next t ∧ t.status = doneStatus s.status ∧
        t.len.toNat = 6 * s.len.toNat / 8 ∧ exec .decryptVb s = .next t)

/-- R228: the pipeline round trip. With KEY and ROUNDS unchanged between the two commands, DECRYPT after ENCRYPT leaves
BUF[0..LEN) = padTo(P, u), for FixedBlock on every plaintext whose text fits, and for VariableBlock on the empty one and on
5 bytes and more. -/
def Obligations.PipelineRoundTripLeavesThePaddedPlaintext : Prop :=
  ∀ (s : State) (enc dec : Instr) (u : Nat), s.cfg.valid = true → s.len.toNat ≤ s.cfg.bufCap →
    (enc = .encryptFb ∧ dec = .decryptFb ∧ u = 8) ∨
      (enc = .encryptVb ∧ dec = .decryptVb ∧ u = 4 ∧ (s.len.toNat = 0 ∨ 5 ≤ s.len.toNat)) →
    (8 * (u * ((s.len.toNat + (u - 1)) / u)) + 5) / 6 ≤ s.cfg.bufCap →
    ∃ t w : State, exec enc s = .next t ∧ exec dec t = .next w ∧ w.status.done = true ∧
      w.len.toNat = u * ((s.len.toNat + (u - 1)) / u) ∧
      ∀ j, w.buf.read j = if j < s.len.toNat then s.buf.read j else 0x00#8

/-- R101, column "reads": a data command's whole outcome depends on BUF only through BUF[0..LEN). Two states that differ
only in their tails report the same status, and a success leaves equal states. -/
def Obligations.DataCommandsReadOnlyTheFirstLenBytes : Prop :=
  ∀ (s : State) (i : Instr) (m : Memory), i ≠ .nop → i ≠ .keypack → i ≠ .sreset →
    (∀ j < s.len.toNat, m.read j = s.buf.read j) →
    ∃ t t' : State, exec i s = .next t ∧ exec i { s with buf := m } = .next t' ∧ t'.status = t.status ∧
      (t.status.done = true → t' = t) ∧ (t.status.err = true → t' = { t with buf := m })

/-! Turns and runs in which something else happens. -/

/-- The model's choice (notes/assumptions/9.md, 11.md): the turns that make no bus access and complete no command. A label
moves the host to its next statement; a host whose program has ended, and an engine with no command pending (R45), change
nothing: while idle the block holds its state (R274). Each turn comes off the schedule. -/
def Obligations.TurnsWithoutAnAccessKeepTheBlock : Prop :=
  ∀ s : State,
    (∀ l, s.nextTurn.1 = .host → s.prog[s.hpc]? = some (.label l) →
      step s = .next { s with sched := s.sched.tail, hpc := s.hpc + 1 }) ∧
    (s.nextTurn.1 = .host → s.prog[s.hpc]? = none → step s = .next { s with sched := s.sched.tail }) ∧
    (s.nextTurn.1 = .engine → s.status.busy = false → step s = .next { s with sched := s.sched.tail })

/-- R45, R290, R36: what ends a command's being pending, whatever the host does. Within as many steps as the schedule has turns
(the model's choice, notes/assumptions/5.md), the run comes to a state in which the engine completes the command on the inputs
it was pending with, or a reset discards it (`rst`, or the host's SRESET write), or the host's own access or branch stops the
run. -/
def Obligations.PendingCommandEndsByCompletionResetOrStop : Prop :=
  ∀ s : State, s.status.busy = true → s.cmdLatch ≠ 0x00000009#32 →
    ∃ (k : Nat) (u : State), k ≤ s.sched.length ∧ Sys2Proof.core.run k s = .next u ∧
      ((∃ t, CompletesPending s u t) ∨
       (∃ u0, u.nextTurn = (.rst, u0) ∧ step u = .next u0.blockReset) ∨
       (∃ u1, HostAccesses u (.write u.cfg.base .w32 0x00000009#32) u1 ∧ step u = .next u1.blockReset) ∨
       (∃ u0, u.nextTurn = (.host, u0) ∧ ((∃ f, step u = .fault f) ∨ ∃ r, step u = .refused r)))
end

