-- ==== Sys2Proof/Laws/Bus.lean ====
section
/-! SUPPORT. What a host access can do: each lemma says once what its shared operation answers. -/

namespace Sys2Proof.Machine

open Sys2Proof

/-- A host address at an offset of the window is that offset of the block. -/
@[simp] theorem windowOffset_base_add (c : Config) {off : Nat} (h : off < 2 ^ 25) :
    windowOffset c (c.base + off) = some off := by
  have : c.base + off < c.base + windowSize := by unfold windowSize; omega
  simp [windowOffset, this]

/-- The offset of a host address, where it has one. -/
theorem windowOffset_eq_some {c : Config} {addr off : Nat} (h : windowOffset c addr = some off) :
    c.base ≤ addr ∧ addr < c.base + 2 ^ 25 ∧ off = addr - c.base := by
  unfold windowOffset windowSize at h
  by_cases hr : c.base ≤ addr ∧ addr < c.base + 2 ^ 25
  · rw [if_pos hr] at h
    exact ⟨hr.1, hr.2, (Option.some.inj h).symm⟩
  · rw [if_neg hr] at h
    simp at h

theorem regOffset_lt (r : Reg) : regOffset r < 2 ^ 25 := by cases r <;> decide

/-- A 32-bit access at a register's offset reaches the register. -/
@[simp] theorem busTarget_regOffset (c : Config) (r : Reg) : busTarget c (regOffset r) .w32 = some (.reg r) := by
  cases r <;> rfl

/-- What a legal access reaches: the register at its offset, or bytes within BUF. -/
theorem busTarget_cases {c : Config} {off : Nat} {w : Width} {a : Target} (h : busTarget c off w = some a) :
    (∃ r, a = .reg r ∧ off = regOffset r ∧ w = .w32) ∨
    ∃ i, a = .buf i ∧ off = 0x10000 + i ∧ i % widthBytes w = 0 ∧ i + widthBytes w ≤ c.bufCap := by
  unfold busTarget at h
  split at h
  · split at h
    · rename_i hw
      obtain ⟨r, hr, rfl⟩ := Option.map_eq_some_iff.1 h
      exact .inl ⟨r, rfl, by have := List.find?_some hr; simp at this; exact this.symm, hw⟩
    · simp at h
  · split at h
    · split at h
      · rename_i hb hc
        have hb : 0x10000 ≤ off := hb
        exact .inr ⟨off - 0x10000, by simpa [bufOffset] using h.symm, by omega, hc⟩
      · simp at h
    · simp at h

/-- An aligned 32-bit access below 0x02C reaches some register. -/
theorem exists_reg_of_aligned {off : Nat} (h : off < 0x2C) (ha : off % 4 = 0) : ∃ r, off = regOffset r := by
  have : off = 0 ∨ off = 4 ∨ off = 8 ∨ off = 12 ∨ off = 16 ∨ off = 20 ∨ off = 24 ∨ off = 28 ∨ off = 32 ∨ off = 36 ∨
      off = 40 := by omega
  rcases this with h | h | h | h | h | h | h | h | h | h | h
  exacts [⟨.cmd, h⟩, ⟨.status, h⟩, ⟨.rounds, h⟩, ⟨.len, h⟩, ⟨.key0, h⟩, ⟨.key1, h⟩, ⟨.key2, h⟩, ⟨.key3, h⟩,
    ⟨.irqen, h⟩, ⟨.cap, h⟩, ⟨.id, h⟩]

/-- A naturally aligned access within BUF reaches its bytes. -/
theorem busTarget_buf {c : Config} {i : Nat} {w : Width} (ha : i % widthBytes w = 0)
    (hi : i + widthBytes w ≤ c.bufCap) : busTarget c (0x10000 + i) w = some (.buf i) := by
  simp [busTarget, bufOffset, ha, hi, show ¬(0x10000 + i < 0x2C) by omega]

/-- A read of a register. -/
theorem memRead_reg (s : State) (r : Reg) :
    memRead s (regOffset r) .w32 =
      .next { (readTarget s .w32 (.reg r)).2 with scratch := (readTarget s .w32 (.reg r)).1 } := by
  simp [memRead, hostAccess, windowOffset_base_add _ (regOffset_lt r), busRead]

/-- A write of a register. -/
theorem memWrite_reg (s : State) (r : Reg) (x : Word) :
    memWrite s (regOffset r) .w32 x = .next (writeReg s x r) := by
  simp [memWrite, hostAccess, windowOffset_base_add _ (regOffset_lt r), busWrite, writeTarget]

/-- A legal read of BUF. -/
theorem memRead_buf {s : State} {i : Nat} {w : Width} (ha : i % widthBytes w = 0)
    (hi : i + widthBytes w ≤ s.cfg.bufCap) (hw : 0x10000 + i < 2 ^ 25) :
    memRead s (0x10000 + i) w =
      .next { (readTarget s w (.buf i)).2 with scratch := (readTarget s w (.buf i)).1 } := by
  simp [memRead, hostAccess, windowOffset_base_add _ hw, busRead, busTarget_buf ha hi]

/-- A legal write of BUF. -/
theorem memWrite_buf {s : State} {i : Nat} {w : Width} (x : Word) (ha : i % widthBytes w = 0)
    (hi : i + widthBytes w ≤ s.cfg.bufCap) (hw : 0x10000 + i < 2 ^ 25) :
    memWrite s (0x10000 + i) w x = .next (writeTarget s w x (.buf i)) := by
  simp [memWrite, hostAccess, windowOffset_base_add _ hw, busWrite, busTarget_buf ha hi]

/-- A host access that completes is a read or a write of what its address reaches. -/
theorem hostAccess_cases {s t : State} {a : BusAccess} (h : hostAccess s a = .next t) :
    (∃ addr w g, a = .read addr w ∧ s.cfg.base ≤ addr ∧ addr < s.cfg.base + 2 ^ 25 ∧
      busTarget s.cfg (addr - s.cfg.base) w = some g ∧
      t = { (readTarget s w g).2 with scratch := (readTarget s w g).1 }) ∨
    (∃ addr w x g, a = .write addr w x ∧ s.cfg.base ≤ addr ∧ addr < s.cfg.base + 2 ^ 25 ∧
      busTarget s.cfg (addr - s.cfg.base) w = some g ∧ t = writeTarget s w x g) := by
  cases a with
  | read addr w =>
    simp only [hostAccess] at h
    split at h
    · simp at h
    · rename_i off hoff
      obtain ⟨h1, h2, rfl⟩ := windowOffset_eq_some hoff
      cases hg : busTarget s.cfg (addr - s.cfg.base) w with
      | none => simp [busRead, hg] at h
      | some g =>
        simp only [busRead, hg, Option.map_some, Host.Outcome.next.injEq] at h
        exact .inl ⟨addr, w, g, rfl, h1, h2, hg, h.symm⟩
  | write addr w x =>
    simp only [hostAccess] at h
    split at h
    · simp at h
    · rename_i off hoff
      obtain ⟨h1, h2, rfl⟩ := windowOffset_eq_some hoff
      cases hg : busTarget s.cfg (addr - s.cfg.base) w with
      | none => simp [busWrite, hg] at h
      | some g =>
        simp only [busWrite, hg, Option.map_some, Host.Outcome.next.injEq] at h
        exact .inr ⟨addr, w, x, g, rfl, h1, h2, hg, h.symm⟩

/-- A read returns a value and changes at most the count of draws. -/
theorem readTarget_cases (s : State) (w : Width) (g : Target) :
    (readTarget s w g).2 = s ∨ (s.status.busy = true ∧ (readTarget s w g).2 = { s with drawCount := s.drawCount + 1 }) := by
  cases g with
  | reg r =>
    simp only [readTarget]
    split
    · rename_i h
      exact .inr ⟨(Bool.and_eq_true _ _ ▸ h).1, rfl⟩
    · exact .inl rfl
  | buf i =>
    simp only [readTarget]
    split
    · rename_i h
      exact .inr ⟨h, rfl⟩
    · exact .inl rfl

/-- A write under the BUSY lock is dropped or performed. -/
theorem lockedWrite_cases (s u : State) :
    (s.status.busy = true ∧ lockedWrite s u = s.dropWrite) ∨ (s.status.busy = false ∧ lockedWrite s u = u) := by
  unfold lockedWrite
  cases h : s.status.busy <;> simp

/-- A CMD write resets, is dropped, or is accepted (spec/10_state.md R36). -/
theorem cmdWrite_cases (s : State) (x : Word) :
    (x = 0x00000009#32 ∧ cmdWrite s x = s.blockReset) ∨
    (x ≠ 0x00000009#32 ∧ s.status.busy = true ∧ cmdWrite s x = s.dropWrite) ∨
    (x ≠ 0x00000009#32 ∧ s.status.busy = false ∧ cmdWrite s x = s.acceptCommand x) := by
  unfold cmdWrite
  by_cases hx : x = 0x00000009#32
  · simp [hx]
  · cases h : s.status.busy <;> simp [hx]

/-- What a legal write can leave: the block reset, the write dropped, a command accepted, or one register or BUF
written. -/
theorem writeTarget_cases (s : State) (w : Width) (x : Word) (g : Target) :
    (g = .reg .cmd ∧ x = 0x00000009#32 ∧ writeTarget s w x g = s.blockReset) ∨
    (s.status.busy = true ∧ writeTarget s w x g = s.dropWrite) ∨
    (g = .reg .cmd ∧ x ≠ 0x00000009#32 ∧ s.status.busy = false ∧ writeTarget s w x g = s.acceptCommand x) ∨
    (g = .reg .status ∧ writeTarget s w x g = { s with status := s.status.writeOneToClear x }) ∨
    (g = .reg .irqen ∧ writeTarget s w x g = { s with irqen := IrqEnable.ofWord x }) ∨
    (s.status.busy = false ∧
      ((g = .reg .rounds ∧ writeTarget s w x g = { s with rounds := x }) ∨
       (g = .reg .len ∧ writeTarget s w x g = { s with len := x }) ∨
       (∃ k, (g = .reg .key0 ∨ g = .reg .key1 ∨ g = .reg .key2 ∨ g = .reg .key3) ∧
         writeTarget s w x g = { s with key := k }) ∨
       ∃ i, g = .buf i ∧
         writeTarget s w x g = { s with buf := s.buf.writeBytes i ((bytesOfWord x).take (widthBytes w)) })) ∨
    ((g = .reg .cap ∨ g = .reg .id) ∧ writeTarget s w x g = s) := by
  cases g with
  | buf i =>
    rcases lockedWrite_cases s { s with buf := s.buf.writeBytes i ((bytesOfWord x).take (widthBytes w)) } with
      ⟨h, h'⟩ | ⟨h, h'⟩
    · exact .inr (.inl ⟨h, h'⟩)
    · exact .inr (.inr (.inr (.inr (.inr (.inl ⟨h, .inr (.inr (.inr ⟨i, rfl, h'⟩))⟩)))))
  | reg r =>
    cases r with
    | cmd =>
      rcases cmdWrite_cases s x with ⟨h1, h2⟩ | ⟨_, h2, h3⟩ | ⟨h1, h2, h3⟩
      · exact .inl ⟨rfl, h1, h2⟩
      · exact .inr (.inl ⟨h2, h3⟩)
      · exact .inr (.inr (.inl ⟨rfl, h1, h2, h3⟩))
    | status => exact .inr (.inr (.inr (.inl ⟨rfl, rfl⟩)))
    | irqen => exact .inr (.inr (.inr (.inr (.inl ⟨rfl, rfl⟩))))
    | cap => exact .inr (.inr (.inr (.inr (.inr (.inr ⟨.inl rfl, rfl⟩)))))
    | id => exact .inr (.inr (.inr (.inr (.inr (.inr ⟨.inr rfl, rfl⟩)))))
    | rounds =>
      rcases lockedWrite_cases s { s with rounds := x } with ⟨h, h'⟩ | ⟨h, h'⟩
      · exact .inr (.inl ⟨h, h'⟩)
      · exact .inr (.inr (.inr (.inr (.inr (.inl ⟨h, .inl ⟨rfl, h'⟩⟩)))))
    | len =>
      rcases lockedWrite_cases s { s with len := x } with ⟨h, h'⟩ | ⟨h, h'⟩
      · exact .inr (.inl ⟨h, h'⟩)
      · exact .inr (.inr (.inr (.inr (.inr (.inl ⟨h, .inr (.inl ⟨rfl, h'⟩)⟩)))))
    | key0 =>
      rcases lockedWrite_cases s { s with key := { s.key with k0 := x } } with ⟨h, h'⟩ | ⟨h, h'⟩
      · exact .inr (.inl ⟨h, h'⟩)
      · exact .inr (.inr (.inr (.inr (.inr (.inl ⟨h, .inr (.inr (.inl ⟨_, by simp, h'⟩))⟩)))))
    | key1 =>
      rcases lockedWrite_cases s { s with key := { s.key with k1 := x } } with ⟨h, h'⟩ | ⟨h, h'⟩
      · exact .inr (.inl ⟨h, h'⟩)
      · exact .inr (.inr (.inr (.inr (.inr (.inl ⟨h, .inr (.inr (.inl ⟨_, by simp, h'⟩))⟩)))))
    | key2 =>
      rcases lockedWrite_cases s { s with key := { s.key with k2 := x } } with ⟨h, h'⟩ | ⟨h, h'⟩
      · exact .inr (.inl ⟨h, h'⟩)
      · exact .inr (.inr (.inr (.inr (.inr (.inl ⟨h, .inr (.inr (.inl ⟨_, by simp, h'⟩))⟩)))))
    | key3 =>
      rcases lockedWrite_cases s { s with key := { s.key with k3 := x } } with ⟨h, h'⟩ | ⟨h, h'⟩
      · exact .inr (.inl ⟨h, h'⟩)
      · exact .inr (.inr (.inr (.inr (.inr (.inl ⟨h, .inr (.inr (.inl ⟨_, by simp, h'⟩))⟩)))))

end Sys2Proof.Machine
end

