-- ==== Sys2Proof/Laws/Memory.lean ====
section
/-! SUPPORT. The laws of BUF: reading after writing, the canonical form, and the byte and word views of a list. -/

namespace Sys2Proof.Machine

open Sys2Proof

@[simp] theorem Memory.read_nil (i : Nat) : Memory.read [] i = 0#8 := rfl

theorem Memory.read_cons (c : Host.Cell) (m : Memory) (i : Nat) :
    Memory.read (c :: m) i = if c.1 = i then c.2 else Memory.read m i := rfl

/-- An index below every listed one reads as 0x00. -/
theorem Memory.read_eq_zero_of_lt {m : Memory} {i : Nat} (h : ∀ c ∈ m, i < c.1) : m.read i = 0#8 := by
  induction m with
  | nil => rfl
  | cons c m ih =>
    have hc := h c (by simp)
    rw [read_cons, if_neg (by omega)]
    exact ih fun d hd => h d (by simp [hd])

/-- Reading back what was written, or what stood elsewhere. -/
theorem Memory.read_write {m : Memory} (h : m.wf) (i j : Nat) (b : Byte) :
    (m.write i b).read j = if i = j then b else m.read j := by
  induction m with
  | nil =>
    by_cases hb : b = 0#8 <;> by_cases hij : i = j <;> simp [write, read_cons, hb, hij]
  | cons c m ih =>
    obtain ⟨k, v⟩ := c
    have hm : Memory.wf m := ⟨h.1.of_cons, fun d hd => h.2 d (by simp [hd])⟩
    have hk : ∀ d ∈ m, k < d.1 := fun d hd => List.rel_of_pairwise_cons h.1 hd
    have hz : k ≥ j → Memory.read m j = 0#8 := fun hj => read_eq_zero_of_lt fun d hd => by have := hk d hd; omega
    unfold write
    split
    · rename_i hlt
      by_cases hij : i = j
      · subst hij
        by_cases hb : b = 0#8
        · simp [hb, read_cons, show k ≠ i by omega, hz (by omega)]
        · simp [hb, read_cons]
      · by_cases hb : b = 0#8 <;> simp [hb, read_cons, hij]
    · split
      · rename_i hnlt heq
        subst heq
        by_cases hij : i = j
        · subst hij
          by_cases hb : b = 0#8
          · simp [hb, hz (by omega)]
          · simp [hb, read_cons]
        · by_cases hb : b = 0#8 <;> simp [hb, read_cons, hij]
      · rename_i hnlt hne
        rw [read_cons, ih hm, read_cons]
        by_cases hij : i = j
        · subst hij
          simp [show k ≠ i by omega]
        · simp [hij]

/-- Every cell after a write is the written one or an old one. -/
theorem Memory.mem_write {m : Memory} {i : Nat} {b : Byte} {c : Host.Cell} (h : c ∈ m.write i b) :
    (c = (i, b) ∧ b ≠ 0#8) ∨ c ∈ m := by
  induction m with
  | nil =>
    unfold write at h
    split at h <;> simp_all
  | cons d m ih =>
    obtain ⟨k, v⟩ := d
    unfold write at h
    split at h
    · split at h <;> simp_all
    · split at h
      · split at h
        · exact .inr (by simp [h])
        · rcases List.mem_cons.1 h with h | h
          · exact .inl ⟨h, by assumption⟩
          · exact .inr (by simp [h])
      · rcases List.mem_cons.1 h with h | h
        · exact .inr (by simp [h])
        · rcases ih h with h | h
          · exact .inl h
          · exact .inr (by simp [h])

/-- A write keeps the canonical form. -/
theorem Memory.wf_write {m : Memory} (h : m.wf) (i : Nat) (b : Byte) : (m.write i b).wf := by
  refine ⟨?_, fun c hc => ?_⟩
  · induction m with
    | nil => unfold write; split <;> simp
    | cons d m ih =>
      obtain ⟨k, v⟩ := d
      have hm : Memory.wf m := ⟨h.1.of_cons, fun d hd => h.2 d (by simp [hd])⟩
      have hk : ∀ d ∈ m, k < d.1 := fun d hd => List.rel_of_pairwise_cons h.1 hd
      unfold write
      split
      · rename_i hlt
        split
        · exact h.1
        · refine List.pairwise_cons.2 ⟨fun d hd => ?_, h.1⟩
          rcases List.mem_cons.1 hd with rfl | hd
          · exact hlt
          · exact lt_trans hlt (hk d hd)
      · split
        · rename_i heq
          subst heq
          split
          · exact hm.1
          · exact List.pairwise_cons.2 ⟨hk, hm.1⟩
        · rename_i hnlt hne
          refine List.pairwise_cons.2 ⟨fun d hd => ?_, ih hm⟩
          rcases mem_write hd with ⟨rfl, _⟩ | hd
          · exact lt_of_le_of_ne (Nat.le_of_not_lt hnlt) (Ne.symm hne)
          · exact hk d hd
  · rcases mem_write hc with ⟨rfl, hb⟩ | hc
    · exact hb
    · exact h.2 c hc

/-- A write below the capacity keeps BUF within it. -/
theorem Memory.below_write {m : Memory} {cap : Nat} (h : m.below cap) {i : Nat} (hi : i < cap) (b : Byte) :
    (m.write i b).below cap := fun c hc => by
  rcases mem_write hc with ⟨rfl, _⟩ | hc
  · exact hi
  · exact h c hc

theorem Memory.wf_writeBytes {m : Memory} (h : m.wf) (i : Nat) (bs : List Byte) : (m.writeBytes i bs).wf := by
  induction bs generalizing m i with
  | nil => exact h
  | cons b bs ih => exact ih (wf_write h i b) (i + 1)

theorem Memory.below_writeBytes {m : Memory} {cap : Nat} (h : m.below cap) (i : Nat) (bs : List Byte)
    (hi : i + bs.length ≤ cap) : (m.writeBytes i bs).below cap := by
  induction bs generalizing m i with
  | nil => exact h
  | cons b bs ih =>
    simp only [List.length_cons] at hi
    exact ih (below_write h (by omega) b) (i + 1) (by omega)

/-- A block write, read back byte by byte. -/
theorem Memory.read_writeBytes {m : Memory} (h : m.wf) (i j : Nat) (bs : List Byte) :
    (m.writeBytes i bs).read j = if i ≤ j ∧ j < i + bs.length then bs.getD (j - i) 0#8 else m.read j := by
  induction bs generalizing m i with
  | nil => simp [writeBytes, show ¬(i ≤ j ∧ j < i) by omega]
  | cons b bs ih =>
    rw [writeBytes, ih (wf_write h i b) (i + 1), read_write h]
    by_cases hij : i = j
    · subst hij; simp
    · by_cases hin : i + 1 ≤ j ∧ j < i + 1 + bs.length
      · rw [if_pos hin, if_pos (by simp only [List.length_cons]; omega), show j - i = (j - (i + 1)) + 1 by omega,
          List.getD_cons_succ]
      · rw [if_neg hin, if_neg hij, if_neg (by simp only [List.length_cons]; omega)]

/-- The cells of a committed byte list. -/
theorem Memory.mem_ofBytes {i : Nat} {bs : List Byte} {c : Host.Cell} (h : c ∈ ofBytes i bs) :
    i ≤ c.1 ∧ c.1 < i + bs.length ∧ c.2 ≠ 0#8 := by
  induction bs generalizing i with
  | nil => simp [ofBytes] at h
  | cons b bs ih =>
    unfold ofBytes at h
    split at h
    · obtain ⟨h1, h2, h3⟩ := ih h
      exact ⟨by omega, by simp only [List.length_cons]; omega, h3⟩
    · rcases List.mem_cons.1 h with rfl | h
      · simp_all
      · obtain ⟨h1, h2, h3⟩ := ih h
        exact ⟨by omega, by simp only [List.length_cons]; omega, h3⟩

theorem Memory.wf_ofBytes (i : Nat) (bs : List Byte) : (ofBytes i bs).wf := by
  refine ⟨?_, fun c hc => (mem_ofBytes hc).2.2⟩
  induction bs generalizing i with
  | nil => simp [ofBytes]
  | cons b bs ih =>
    unfold ofBytes
    split
    · exact ih (i + 1)
    · exact List.pairwise_cons.2 ⟨fun d hd => (mem_ofBytes hd).1, ih (i + 1)⟩

theorem Memory.below_ofBytes {bs : List Byte} {cap : Nat} (h : bs.length ≤ cap) : (ofBytes 0 bs).below cap :=
  fun _ hc => by have := (mem_ofBytes hc).2.1; omega

/-- A committed byte list, read back: its bytes, and 0x00 elsewhere (the tail rule, spec/10_state.md R47). -/
theorem Memory.read_ofBytes (i j : Nat) (bs : List Byte) :
    (ofBytes i bs).read j = if i ≤ j then bs.getD (j - i) 0#8 else 0#8 := by
  induction bs generalizing i with
  | nil => simp [ofBytes]
  | cons b bs ih =>
    have hrec : ∀ (h : i ≠ j), (ofBytes (i + 1) bs).read j = if i ≤ j then (b :: bs).getD (j - i) 0#8 else 0#8 := by
      intro h
      rw [ih]
      by_cases hij : i + 1 ≤ j
      · rw [if_pos hij, if_pos (by omega), show j - i = (j - (i + 1)) + 1 by omega, List.getD_cons_succ]
      · rw [if_neg hij, if_neg (by omega)]
    unfold ofBytes
    by_cases hb : b = 0#8
    · rw [if_pos hb]
      by_cases hij : i = j
      · subst hij
        rw [read_eq_zero_of_lt fun c hc => by have := (mem_ofBytes hc).1; omega]
        simp [hb]
      · exact hrec hij
    · rw [if_neg hb, read_cons]
      by_cases hij : i = j
      · subst hij; simp
      · rw [if_neg hij, hrec hij]

@[simp] theorem Memory.read_ofBytes_zero (j : Nat) (bs : List Byte) : (ofBytes 0 bs).read j = bs.getD j 0#8 := by
  simp [read_ofBytes]

/-- Two memories in canonical form that read alike are equal. -/
theorem Memory.ext_of_wf {m n : Memory} (hm : m.wf) (hn : n.wf) (h : ∀ i, m.read i = n.read i) : m = n := by
  induction m generalizing n with
  | nil =>
    cases n with
    | nil => rfl
    | cons c n =>
      have := h c.1
      rw [read_cons, if_pos rfl] at this
      exact absurd this.symm (hn.2 c (by simp))
  | cons c m ih =>
    have hm' : Memory.wf m := ⟨hm.1.of_cons, fun d hd => hm.2 d (by simp [hd])⟩
    have hcm : ∀ d ∈ m, c.1 < d.1 := fun d hd => List.rel_of_pairwise_cons hm.1 hd
    have hc0 := hm.2 c (by simp)
    cases n with
    | nil =>
      have := h c.1
      rw [read_cons, if_pos rfl] at this
      exact absurd this hc0
    | cons d n =>
      have hn' : Memory.wf n := ⟨hn.1.of_cons, fun d hd => hn.2 d (by simp [hd])⟩
      have hdn : ∀ e ∈ n, d.1 < e.1 := fun e he => List.rel_of_pairwise_cons hn.1 he
      have hd0 := hn.2 d (by simp)
      have hcd : c.1 = d.1 := by
        rcases lt_trichotomy c.1 d.1 with hlt | heq | hgt
        · have := h c.1
          rw [read_cons, if_pos rfl, read_cons, if_neg (by omega),
            read_eq_zero_of_lt fun e he => by have := hdn e he; omega] at this
          exact absurd this hc0
        · exact heq
        · have := h d.1
          rw [read_cons, if_neg (by omega), read_cons, if_pos rfl,
            read_eq_zero_of_lt fun e he => by have := hcm e he; omega] at this
          exact absurd this.symm hd0
      have hv : c.2 = d.2 := by
        have := h c.1
        rwa [read_cons, if_pos rfl, read_cons, if_pos hcd.symm] at this
      have hrest : m = n := ih hm' hn' fun i => by
        by_cases hi : c.1 = i
        · rw [read_eq_zero_of_lt fun e he => by have := hcm e he; omega,
            read_eq_zero_of_lt fun e he => by have := hdn e he; omega]
        · have := h i
          rwa [read_cons, if_neg hi, read_cons, if_neg (by omega)] at this
      rw [Prod.ext hcd hv, hrest]

/-! The byte list view of BUF. -/

@[simp] theorem Memory.length_readBytes (m : Memory) (i n : Nat) : (m.readBytes i n).length = n := by
  simp [readBytes]

theorem Memory.getD_readBytes (m : Memory) (i n k : Nat) :
    (m.readBytes i n).getD k 0#8 = if k < n then m.read (i + k) else 0#8 := by
  by_cases h : k < n <;> simp [readBytes, h]

@[simp] theorem State.length_input (s : State) : s.input.length = s.len.toNat := by simp [State.input, State.lenBytes]

/-- Two byte lists of one length that read alike are equal. -/
theorem byteList_ext {l m : List Byte} (h : l.length = m.length) (hr : ∀ j < l.length, l.getD j 0#8 = m.getD j 0#8) :
    l = m := by
  refine List.ext_getElem h fun i hl hm => ?_
  rw [← List.getD_eq_getElem l 0#8 hl, ← List.getD_eq_getElem m 0#8 hm]
  exact hr i hl

theorem State.getD_input (s : State) (k : Nat) : s.input.getD k 0#8 = if k < s.len.toNat then s.buf.read k else 0#8 := by
  rw [State.input, Memory.getD_readBytes, State.lenBytes, Nat.zero_add]

@[simp] theorem length_zeros (k : Nat) : (zeros k).length = k := by simp [zeros]

/-! The word view of a byte list. -/

@[simp] theorem length_bytesOfWord (w : Word) : (bytesOfWord w).length = 4 := rfl

@[simp] theorem length_bytesOf (ws : List Word) : (bytesOf ws).length = 4 * ws.length := by
  induction ws with
  | nil => rfl
  | cons w ws ih => simp only [bytesOf, List.length_append, length_bytesOfWord, ih, List.length_cons]; omega

/-- The four bytes of a word, put together again. -/
@[simp] theorem wordOfBytes_bytesOfWord (w : Word) :
    wordOfBytes (w.extractLsb' 0 8) (w.extractLsb' 8 8) (w.extractLsb' 16 8) (w.extractLsb' 24 8) = w := by
  apply BitVec.eq_of_getLsbD_eq
  intro i hi
  simp only [wordOfBytes, BitVec.getLsbD_append, BitVec.getLsbD_extractLsb']
  by_cases h1 : i < 8
  · simp [h1]
  · by_cases h2 : i < 16
    · simp [h1, show i - 8 < 8 by omega, show 8 + (i - 8) = i by omega]
    · by_cases h3 : i < 24
      · simp [h1, show ¬(i - 8 < 8) by omega, show i - 8 - 8 < 8 by omega, show 16 + (i - 8 - 8) = i by omega]
      · simp [h1, show ¬(i - 8 < 8) by omega, show ¬(i - 8 - 8 < 8) by omega, show i - 8 - 8 - 8 < 8 by omega,
          show 24 + (i - 8 - 8 - 8) = i by omega]

/-- The byte of a word of four bytes at position k. -/
theorem bytesOfWord_wordOfBytes (b0 b1 b2 b3 : Byte) : bytesOfWord (wordOfBytes b0 b1 b2 b3) = [b0, b1, b2, b3] := by
  simp only [bytesOfWord, List.cons.injEq, and_true]
  refine ⟨?_, ?_, ?_, ?_⟩ <;> apply BitVec.eq_of_getLsbD_eq <;> intro i hi <;>
    simp only [wordOfBytes, BitVec.getLsbD_append, BitVec.getLsbD_extractLsb', hi, decide_true, Bool.true_and]
  · simp [hi]
  · simp [show ¬(8 + i < 8) by omega, show 8 + i - 8 = i by omega, hi]
  · simp [show ¬(16 + i < 8) by omega, show ¬(16 + i - 8 < 8) by omega, show 16 + i - 8 - 8 = i by omega, hi]
  · simp [show ¬(24 + i < 8) by omega, show ¬(24 + i - 8 < 8) by omega, show ¬(24 + i - 8 - 8 < 8) by omega,
      show 24 + i - 8 - 8 - 8 = i by omega]

@[simp] theorem wordsOf_bytesOf (ws : List Word) : wordsOf (bytesOf ws) = ws := by
  induction ws with
  | nil => rfl
  | cons w ws ih => simp [bytesOf, bytesOfWord, wordsOf, ih]

theorem length_wordsOf (b : List Byte) : (wordsOf b).length = b.length / 4 := by
  induction b using wordsOf.induct with
  | case1 b0 b1 b2 b3 bs ih => simp only [wordsOf, List.length_cons, ih]; omega
  | case2 t h =>
    match t, h with
    | [], _ => rfl
    | [_], _ => simp [wordsOf]
    | [_, _], _ => simp [wordsOf]
    | [_, _, _], _ => simp [wordsOf]
    | b0 :: b1 :: b2 :: b3 :: bs, h => exact absurd rfl (h b0 b1 b2 b3 bs)

/-- A list of whole words is the bytes of its words. -/
theorem bytesOf_wordsOf {b : List Byte} (h : b.length % 4 = 0) : bytesOf (wordsOf b) = b := by
  induction b using wordsOf.induct with
  | case1 b0 b1 b2 b3 bs ih =>
    have : bs.length % 4 = 0 := by simp only [List.length_cons] at h; omega
    simp [wordsOf, bytesOf, bytesOfWord_wordOfBytes, ih this]
  | case2 t hne =>
    match t, hne, h with
    | [], _, _ => rfl
    | [_], _, h => simp at h
    | [_, _], _, h => simp at h
    | [_, _, _], _, h => simp at h
    | b0 :: b1 :: b2 :: b3 :: bs, hne, _ => exact absurd rfl (hne b0 b1 b2 b3 bs)

/-- Word j of a byte list, from its four bytes. -/
theorem getD_wordsOf (b : List Byte) (j : Nat) (h : 4 * j + 3 < b.length) :
    (wordsOf b).getD j 0#32 =
      wordOfBytes (b.getD (4 * j) 0#8) (b.getD (4 * j + 1) 0#8) (b.getD (4 * j + 2) 0#8)
        (b.getD (4 * j + 3) 0#8) := by
  induction b using wordsOf.induct generalizing j with
  | case1 b0 b1 b2 b3 bs ih =>
    cases j with
    | zero => simp [wordsOf]
    | succ j =>
      have := ih j (by simp only [List.length_cons] at h; omega)
      simp only [wordsOf, List.getD_cons_succ, this, show 4 * (j + 1) = 4 * j + 4 by omega,
        show 4 * j + 4 + 1 = (4 * j + 1) + 4 by omega, show 4 * j + 4 + 2 = (4 * j + 2) + 4 by omega,
        show 4 * j + 4 + 3 = (4 * j + 3) + 4 by omega]
  | case2 t hne =>
    match t, hne, h with
    | [], _, h => simp at h
    | [_], _, h => simp at h
    | [_, _], _, h => simp at h
    | [_, _, _], _, h => simp at h
    | b0 :: b1 :: b2 :: b3 :: bs, hne, _ => exact absurd rfl (hne b0 b1 b2 b3 bs)

/-- The words of BUF[0..LEN) are BufWord(j). -/
theorem State.getD_wordsOf_input (s : State) (j : Nat) (h : 4 * j + 3 < s.len.toNat) :
    (wordsOf s.input).getD j 0#32 = s.buf.word j := by
  rw [getD_wordsOf _ _ (by simpa using h)]
  simp only [State.getD_input, Memory.word, show 4 * j < s.len.toNat by omega, show 4 * j + 1 < s.len.toNat by omega,
    show 4 * j + 2 < s.len.toNat by omega, h, if_true]

/-- Word j of a committed word list, read back. -/
theorem Memory.word_ofBytes_bytesOf (ws : List Word) (j : Nat) (h : j < ws.length) :
    (Memory.ofBytes 0 (bytesOf ws)).word j = ws.getD j 0#32 := by
  simp only [Memory.word, read_ofBytes_zero]
  rw [← getD_wordsOf _ _ (by simp; omega), wordsOf_bytesOf]

end Sys2Proof.Machine
end

