-- ==== Sys2Proof/Laws/Engine.lean ====
section
/-! SUPPORT. The lengths of what the codec, the engines and the padding controller produce, and when decoding
succeeds. -/

namespace Sys2Proof.Machine

open Sys2Proof

@[simp] theorem length_b64enc (b : List Byte) : (b64enc b).length = (8 * b.length + 5) / 6 := by simp [b64enc]

@[simp] theorem length_bytesOfIndices (v : List (BitVec 6)) : (bytesOfIndices v).length = 6 * v.length / 8 := by
  simp [bytesOfIndices]

/-- Decoding to indices keeps the length. -/
theorem length_of_symbolIndices {s : List Byte} {v : List (BitVec 6)} (h : symbolIndices s = some v) :
    v.length = s.length := by
  induction s generalizing v with
  | nil => simp [symbolIndices] at h; simp [← h]
  | cons c cs ih =>
    unfold symbolIndices at h
    split at h
    · rename_i i is hi his
      simp only [Option.some.injEq] at h
      simp [← h, ih his]
    · simp at h

/-- A text decodes exactly if each of its bytes is a symbol. -/
theorem symbolIndices_isSome (s : List Byte) : (symbolIndices s).isSome = s.all (fun c => (idxOf c).isSome) := by
  induction s with
  | nil => rfl
  | cons c cs ih =>
    rw [List.all_cons, ← ih, symbolIndices]
    cases idxOf c <;> cases symbolIndices cs <;> rfl

theorem b64dec_isSome (s : List Byte) : (b64dec s).isSome = s.all (fun c => (idxOf c).isSome) := by
  rw [b64dec, Option.isSome_map, symbolIndices_isSome]

/-- The decoded length is floor(6m / 8). -/
theorem length_of_b64dec {s out : List Byte} (h : b64dec s = some out) : out.length = 6 * s.length / 8 := by
  obtain ⟨v, hv, rfl⟩ := Option.map_eq_some_iff.1 h
  rw [length_bytesOfIndices, length_of_symbolIndices hv]

@[simp] theorem length_fbWords (k : KeyFile) (r : Int) (ws : List Word) : (fbWords k r ws).length = ws.length := by
  induction ws using fbWords.induct with
  | case1 v0 v1 ws ih => simp [fbWords, ih]
  | case2 ws h =>
    match ws, h with
    | [], _ => simp [fbWords]
    | [_], _ => simp [fbWords]
    | v0 :: v1 :: vs, h => exact absurd rfl (h v0 v1 vs)

/-- The engine keeps the length of whole blocks. -/
theorem length_fbBytes (k : KeyFile) (r : Int) {b : List Byte} (h : b.length % 4 = 0) :
    (fbBytes k r b).length = b.length := by
  rw [fbBytes, length_bytesOf, length_fbWords, length_wordsOf]; omega

@[simp] theorem length_vbAddAt (k : KeyFile) (acc : Word) (v : List Word) (p : Nat) :
    (vbAddAt k acc v p).length = v.length := by simp [vbAddAt]

@[simp] theorem length_vbSubAt (k : KeyFile) (acc : Word) (v : List Word) (p : Nat) :
    (vbSubAt k acc v p).length = v.length := by simp [vbSubAt]

/-- A fold of updates that keep the length keeps the length. -/
theorem length_foldl_update {f : List Word → Nat → List Word} (hf : ∀ v p, (f v p).length = v.length) (ps : List Nat)
    (v : List Word) : (ps.foldl f v).length = v.length := by
  induction ps generalizing v with
  | nil => rfl
  | cons p ps ih => rw [List.foldl_cons, ih, hf]

@[simp] theorem length_vbEncryptRound (k : KeyFile) (acc : Word) (v : List Word) :
    (vbEncryptRound k acc v).length = v.length := length_foldl_update (by simp) _ _

@[simp] theorem length_vbDecryptRound (k : KeyFile) (acc : Word) (v : List Word) :
    (vbDecryptRound k acc v).length = v.length := length_foldl_update (by simp) _ _

@[simp] theorem length_vbEncryptLoop (k : KeyFile) (q : Nat) (acc : Word) (v : List Word) :
    (vbEncryptLoop k q acc v).length = v.length := by
  induction q generalizing acc v with
  | zero => rfl
  | succ q ih => rw [vbEncryptLoop, ih, length_vbEncryptRound]

@[simp] theorem length_vbDecryptLoop (k : KeyFile) (q : Nat) (acc : Word) (v : List Word) :
    (vbDecryptLoop k q acc v).length = v.length := by
  induction q generalizing acc v with
  | zero => rfl
  | succ q ih => rw [vbDecryptLoop, ih, length_vbDecryptRound]

@[simp] theorem length_vbEncrypt (k : KeyFile) (v : List Word) : (vbEncrypt k v).length = v.length := by simp [vbEncrypt]

@[simp] theorem length_vbDecrypt (k : KeyFile) (v : List Word) : (vbDecrypt k v).length = v.length := by simp [vbDecrypt]

/-- The length of whole words through a length-keeping transform. -/
theorem length_bytesOf_transform {f : KeyFile → List Word → List Word} (hf : ∀ k v, (f k v).length = v.length)
    (k : KeyFile) {b : List Byte} (h : b.length % 4 = 0) : (bytesOf (f k (wordsOf b))).length = b.length := by
  rw [length_bytesOf, hf, length_wordsOf]; omega

/-- The padded length is the least multiple of the unit not below the length (spec/44_padding_pipeline.md R220). -/
theorem length_padTo (b : List Byte) {u : Nat} (hu : 0 < u) :
    (padTo b u).length = u * ((b.length + (u - 1)) / u) := by
  have hm := Nat.mod_lt b.length hu
  have hd := Nat.div_add_mod b.length u
  rw [padTo, List.length_append, length_zeros]
  by_cases h0 : b.length % u = 0
  · have : (b.length + (u - 1)) / u = b.length / u := by
      rw [Nat.div_eq_iff hu]
      rw [Nat.mul_comm] at hd
      omega
    rw [this, h0, Nat.sub_zero, Nat.mod_self]
    omega
  · have : (b.length + (u - 1)) / u = b.length / u + 1 := by
      rw [Nat.div_eq_iff hu, Nat.add_mul]
      rw [Nat.mul_comm] at hd
      omega
    rw [this, Nat.mod_eq_of_lt (by omega), Nat.mul_add]
    omega

/-- Padding keeps the bytes and reads 0x00 past them. -/
theorem getD_padTo (b : List Byte) (u j : Nat) : (padTo b u).getD j 0#8 = b.getD j 0#8 := by
  unfold padTo zeros
  by_cases h : j < b.length
  · rw [List.getD_append _ _ _ _ h]
  · rw [List.getD_append_right _ _ _ _ (by omega), List.getD_eq_default b _ (by omega)]
    by_cases h' : j - b.length < (u - b.length % u) % u
    · rw [List.getD_replicate _ h']
    · rw [List.getD_eq_default _ _ (by rw [List.length_replicate]; omega)]

end Sys2Proof.Machine
end

