-- ==== Sys2Proof/Laws/Codec.lean ====
section
/-! SUPPORT. The bits of a stream value, and the bits of the two streams (spec/41_codec.md R152, R153). -/

namespace Sys2Proof.Machine

open Sys2Proof

@[simp] theorem streamValue_zero (bit : Nat → Bool) (q : Nat) : streamValue bit q 0 = 0 := rfl

/-- Taking one bit more doubles the value and adds the bit. -/
theorem streamValue_succ (bit : Nat → Bool) (q n : Nat) :
    streamValue bit q (n + 1) = 2 * streamValue bit q n + (bit (q + n)).toNat := by
  simp [streamValue, List.range_succ]

/-- The first bit taken is the most significant: bit b of the stream stands at position n - 1 - b of the value. -/
theorem testBit_streamValue (bit : Nat → Bool) (q : Nat) {n b : Nat} (h : b < n) :
    (streamValue bit q n).testBit (n - 1 - b) = bit (q + b) := by
  induction n with
  | zero => omega
  | succ n ih =>
    rw [streamValue_succ]
    by_cases hb : b = n
    · subst hb
      rw [show b + 1 - 1 - b = 0 by omega, Nat.testBit_zero]
      cases bit (q + b) <;> simp
    · rw [show n + 1 - 1 - b = (n - 1 - b) + 1 by omega, Nat.testBit_succ,
        show (2 * streamValue bit q n + (bit (q + n)).toNat) / 2 = streamValue bit q n by
          cases bit (q + n) <;> simp; omega]
      exact ih (by omega)

/-- The same of the bit vector that holds the value. -/
theorem getLsbD_ofNat_streamValue (bit : Nat → Bool) (q : Nat) {n b : Nat} (h : b < n) :
    (BitVec.ofNat n (streamValue bit q n)).getLsbD (n - 1 - b) = bit (q + b) := by
  rw [BitVec.getLsbD_ofNat, testBit_streamValue bit q h]
  simp [show n - 1 - b < n by omega]

/-- Symbol g of an encoded text. -/
theorem getD_b64enc (b : List Byte) {g : Nat} (h : g < (8 * b.length + 5) / 6) :
    (b64enc b).getD g 0#8 = symOf (BitVec.ofNat 6 (streamValue (byteStreamBit b) (6 * g) 6)) := by
  simp [b64enc, h]

/-- Byte j of decoded indices. -/
theorem getD_bytesOfIndices (v : List (BitVec 6)) {j : Nat} (h : j < 6 * v.length / 8) :
    (bytesOfIndices v).getD j 0#8 = BitVec.ofNat 8 (streamValue (indexStreamBit v) (8 * j) 8) := by
  simp [bytesOfIndices, h]

end Sys2Proof.Machine
end

