-- ==== Sys2Proof/Laws/State.lean ====
section
/-! SUPPORT. One lemma per field of State per shared update, so that no proof unfolds a record update. -/

namespace Sys2Proof.Machine

open Sys2Proof

section
variable (s : State) (w : Word)

@[simp] theorem State.acceptCommand_cfg : (s.acceptCommand w).cfg = s.cfg := rfl
@[simp] theorem State.acceptCommand_cmdLatch : (s.acceptCommand w).cmdLatch = w := rfl
@[simp] theorem State.acceptCommand_status : (s.acceptCommand w).status = s.status.accepted := rfl
@[simp] theorem State.acceptCommand_rounds : (s.acceptCommand w).rounds = s.rounds := rfl
@[simp] theorem State.acceptCommand_len : (s.acceptCommand w).len = s.len := rfl
@[simp] theorem State.acceptCommand_key : (s.acceptCommand w).key = s.key := rfl
@[simp] theorem State.acceptCommand_irqen : (s.acceptCommand w).irqen = s.irqen := rfl
@[simp] theorem State.acceptCommand_buf : (s.acceptCommand w).buf = s.buf := rfl
@[simp] theorem State.acceptCommand_prog : (s.acceptCommand w).prog = s.prog := rfl
@[simp] theorem State.acceptCommand_hpc : (s.acceptCommand w).hpc = s.hpc := rfl
@[simp] theorem State.acceptCommand_scratch : (s.acceptCommand w).scratch = s.scratch := rfl
@[simp] theorem State.acceptCommand_sched : (s.acceptCommand w).sched = s.sched := rfl
@[simp] theorem State.acceptCommand_drawCount : (s.acceptCommand w).drawCount = s.drawCount := rfl

end

section
variable (s : State)

@[simp] theorem State.dropWrite_cfg : (s.dropWrite).cfg = s.cfg := rfl
@[simp] theorem State.dropWrite_cmdLatch : (s.dropWrite).cmdLatch = s.cmdLatch := rfl
@[simp] theorem State.dropWrite_status : (s.dropWrite).status = s.status.dropped := rfl
@[simp] theorem State.dropWrite_rounds : (s.dropWrite).rounds = s.rounds := rfl
@[simp] theorem State.dropWrite_len : (s.dropWrite).len = s.len := rfl
@[simp] theorem State.dropWrite_key : (s.dropWrite).key = s.key := rfl
@[simp] theorem State.dropWrite_irqen : (s.dropWrite).irqen = s.irqen := rfl
@[simp] theorem State.dropWrite_buf : (s.dropWrite).buf = s.buf := rfl
@[simp] theorem State.dropWrite_prog : (s.dropWrite).prog = s.prog := rfl
@[simp] theorem State.dropWrite_hpc : (s.dropWrite).hpc = s.hpc := rfl
@[simp] theorem State.dropWrite_scratch : (s.dropWrite).scratch = s.scratch := rfl
@[simp] theorem State.dropWrite_sched : (s.dropWrite).sched = s.sched := rfl
@[simp] theorem State.dropWrite_drawCount : (s.dropWrite).drawCount = s.drawCount := rfl

end

section
variable (s : State) (e : CmdError)

@[simp] theorem State.failCommand_cfg : (s.failCommand e).cfg = s.cfg := rfl
@[simp] theorem State.failCommand_cmdLatch : (s.failCommand e).cmdLatch = s.cmdLatch := rfl
@[simp] theorem State.failCommand_status : (s.failCommand e).status = s.status.failed e := rfl
@[simp] theorem State.failCommand_rounds : (s.failCommand e).rounds = s.rounds := rfl
@[simp] theorem State.failCommand_len : (s.failCommand e).len = s.len := rfl
@[simp] theorem State.failCommand_key : (s.failCommand e).key = s.key := rfl
@[simp] theorem State.failCommand_irqen : (s.failCommand e).irqen = s.irqen := rfl
@[simp] theorem State.failCommand_buf : (s.failCommand e).buf = s.buf := rfl
@[simp] theorem State.failCommand_prog : (s.failCommand e).prog = s.prog := rfl
@[simp] theorem State.failCommand_hpc : (s.failCommand e).hpc = s.hpc := rfl
@[simp] theorem State.failCommand_scratch : (s.failCommand e).scratch = s.scratch := rfl
@[simp] theorem State.failCommand_sched : (s.failCommand e).sched = s.sched := rfl
@[simp] theorem State.failCommand_drawCount : (s.failCommand e).drawCount = s.drawCount := rfl

end

section
variable (s : State)

@[simp] theorem State.blockReset_cfg : (s.blockReset).cfg = s.cfg := rfl
@[simp] theorem State.blockReset_cmdLatch : (s.blockReset).cmdLatch = 0#32 := rfl
@[simp] theorem State.blockReset_status : (s.blockReset).status = Status.reset := rfl
@[simp] theorem State.blockReset_rounds : (s.blockReset).rounds = 0x00000040#32 := rfl
@[simp] theorem State.blockReset_len : (s.blockReset).len = 0#32 := rfl
@[simp] theorem State.blockReset_key : (s.blockReset).key = KeyFile.reset := rfl
@[simp] theorem State.blockReset_irqen : (s.blockReset).irqen = IrqEnable.reset := rfl
@[simp] theorem State.blockReset_buf : (s.blockReset).buf = [] := rfl
@[simp] theorem State.blockReset_prog : (s.blockReset).prog = s.prog := rfl
@[simp] theorem State.blockReset_hpc : (s.blockReset).hpc = s.hpc := rfl
@[simp] theorem State.blockReset_scratch : (s.blockReset).scratch = s.scratch := rfl
@[simp] theorem State.blockReset_sched : (s.blockReset).sched = s.sched := rfl
@[simp] theorem State.blockReset_drawCount : (s.blockReset).drawCount = s.drawCount := rfl

end

section
variable (s : State) (n w : Nat)

@[simp] theorem State.withFetchWord_cfg : (s.withFetchWord n w).cfg = s.cfg := rfl
@[simp] theorem State.withFetchWord_cmdLatch : (s.withFetchWord n w).cmdLatch = tableWord n w := rfl
@[simp] theorem State.withFetchWord_status : (s.withFetchWord n w).status = s.status.accepted := rfl
@[simp] theorem State.withFetchWord_rounds : (s.withFetchWord n w).rounds = s.rounds := rfl
@[simp] theorem State.withFetchWord_len : (s.withFetchWord n w).len = s.len := rfl
@[simp] theorem State.withFetchWord_key : (s.withFetchWord n w).key = s.key := rfl
@[simp] theorem State.withFetchWord_irqen : (s.withFetchWord n w).irqen = s.irqen := rfl
@[simp] theorem State.withFetchWord_buf : (s.withFetchWord n w).buf = s.buf := rfl
@[simp] theorem State.withFetchWord_prog : (s.withFetchWord n w).prog = s.prog := rfl
@[simp] theorem State.withFetchWord_hpc : (s.withFetchWord n w).hpc = s.hpc := rfl
@[simp] theorem State.withFetchWord_scratch : (s.withFetchWord n w).scratch = s.scratch := rfl
@[simp] theorem State.withFetchWord_sched : (s.withFetchWord n w).sched = [] := rfl
@[simp] theorem State.withFetchWord_drawCount : (s.withFetchWord n w).drawCount = s.drawCount := rfl

end

section
variable (s : State) (bs : List Byte)

@[simp] theorem State.commitData_some_cfg : (s.commitData (some bs)).cfg = s.cfg := rfl
@[simp] theorem State.commitData_some_cmdLatch : (s.commitData (some bs)).cmdLatch = s.cmdLatch := rfl
@[simp] theorem State.commitData_some_status : (s.commitData (some bs)).status = s.status := rfl
@[simp] theorem State.commitData_some_rounds : (s.commitData (some bs)).rounds = s.rounds := rfl
@[simp] theorem State.commitData_some_len : (s.commitData (some bs)).len = BitVec.ofNat 32 bs.length := rfl
@[simp] theorem State.commitData_some_key : (s.commitData (some bs)).key = s.key := rfl
@[simp] theorem State.commitData_some_irqen : (s.commitData (some bs)).irqen = s.irqen := rfl
@[simp] theorem State.commitData_some_buf : (s.commitData (some bs)).buf = Memory.ofBytes 0 bs := rfl
@[simp] theorem State.commitData_some_prog : (s.commitData (some bs)).prog = s.prog := rfl
@[simp] theorem State.commitData_some_hpc : (s.commitData (some bs)).hpc = s.hpc := rfl
@[simp] theorem State.commitData_some_scratch : (s.commitData (some bs)).scratch = s.scratch := rfl
@[simp] theorem State.commitData_some_sched : (s.commitData (some bs)).sched = s.sched := rfl
@[simp] theorem State.commitData_some_drawCount : (s.commitData (some bs)).drawCount = s.drawCount := rfl

end

section
variable (s : State) (k : KeyFile)

@[simp] theorem State.commitKey_some_cfg : (s.commitKey (some k)).cfg = s.cfg := rfl
@[simp] theorem State.commitKey_some_cmdLatch : (s.commitKey (some k)).cmdLatch = s.cmdLatch := rfl
@[simp] theorem State.commitKey_some_status : (s.commitKey (some k)).status = s.status := rfl
@[simp] theorem State.commitKey_some_rounds : (s.commitKey (some k)).rounds = s.rounds := rfl
@[simp] theorem State.commitKey_some_len : (s.commitKey (some k)).len = s.len := rfl
@[simp] theorem State.commitKey_some_key : (s.commitKey (some k)).key = k := rfl
@[simp] theorem State.commitKey_some_irqen : (s.commitKey (some k)).irqen = s.irqen := rfl
@[simp] theorem State.commitKey_some_buf : (s.commitKey (some k)).buf = s.buf := rfl
@[simp] theorem State.commitKey_some_prog : (s.commitKey (some k)).prog = s.prog := rfl
@[simp] theorem State.commitKey_some_hpc : (s.commitKey (some k)).hpc = s.hpc := rfl
@[simp] theorem State.commitKey_some_scratch : (s.commitKey (some k)).scratch = s.scratch := rfl
@[simp] theorem State.commitKey_some_sched : (s.commitKey (some k)).sched = s.sched := rfl
@[simp] theorem State.commitKey_some_drawCount : (s.commitKey (some k)).drawCount = s.drawCount := rfl

end

@[simp] theorem State.commitData_none (s : State) : s.commitData none = s := rfl
@[simp] theorem State.commitKey_none (s : State) : s.commitKey none = s := rfl

/-- The completion with data only: BUF, LEN and STATUS. -/
@[simp] theorem State.finishCommand_ofData (s : State) (bs : List Byte) :
    s.finishCommand (CmdResult.ofData bs) =
      { s with buf := Memory.ofBytes 0 bs, len := BitVec.ofNat 32 bs.length, status := s.status.succeeded } := rfl

/-- The completion with a key only: KEY and STATUS. -/
@[simp] theorem State.finishCommand_ofKey (s : State) (k : KeyFile) :
    s.finishCommand (CmdResult.ofKey k) = { s with key := k, status := s.status.succeeded } := rfl

/-- The completion of a command that writes nothing: STATUS. -/
@[simp] theorem State.finishCommand_empty (s : State) :
    s.finishCommand CmdResult.empty = { s with status := s.status.succeeded } := rfl

/-- The completion with a key and data (KEYTAKE). -/
@[simp] theorem State.finishCommand_keyData (s : State) (k : KeyFile) (bs : List Byte) :
    s.finishCommand { key := some k, data := some bs } =
      { s with key := k, buf := Memory.ofBytes 0 bs, len := BitVec.ofNat 32 bs.length, status := s.status.succeeded } := rfl

@[simp] theorem State.complete_ok (s : State) (r : CmdResult) : s.complete (.ok r) = s.finishCommand r := rfl
@[simp] theorem State.complete_error (s : State) (e : CmdError) : s.complete (.error e) = s.failCommand e := rfl

section
variable (st : Status)

@[simp] theorem Status.accepted_busy : st.accepted.busy = true := rfl
@[simp] theorem Status.accepted_done : st.accepted.done = false := rfl
@[simp] theorem Status.accepted_err : st.accepted.err = false := rfl
@[simp] theorem Status.accepted_werr : st.accepted.werr = st.werr := rfl
@[simp] theorem Status.accepted_errcode : st.accepted.errcode = 0#4 := rfl

end

section
variable (st : Status)

@[simp] theorem Status.succeeded_busy : st.succeeded.busy = false := rfl
@[simp] theorem Status.succeeded_done : st.succeeded.done = true := rfl
@[simp] theorem Status.succeeded_err : st.succeeded.err = false := rfl
@[simp] theorem Status.succeeded_werr : st.succeeded.werr = st.werr := rfl
@[simp] theorem Status.succeeded_errcode : st.succeeded.errcode = 0#4 := rfl

end

section
variable (st : Status) (e : CmdError)

@[simp] theorem Status.failed_busy : (st.failed e).busy = false := rfl
@[simp] theorem Status.failed_done : (st.failed e).done = false := rfl
@[simp] theorem Status.failed_err : (st.failed e).err = true := rfl
@[simp] theorem Status.failed_werr : (st.failed e).werr = st.werr := rfl
@[simp] theorem Status.failed_errcode : (st.failed e).errcode = e.code := rfl

end

section
variable (st : Status)

@[simp] theorem Status.dropped_busy : st.dropped.busy = st.busy := rfl
@[simp] theorem Status.dropped_done : st.dropped.done = st.done := rfl
@[simp] theorem Status.dropped_err : st.dropped.err = st.err := rfl
@[simp] theorem Status.dropped_werr : st.dropped.werr = true := rfl
@[simp] theorem Status.dropped_errcode : st.dropped.errcode = st.errcode := rfl

end

section
variable (st : Status) (x : Word)

@[simp] theorem Status.writeOneToClear_busy : (st.writeOneToClear x).busy = st.busy := rfl
@[simp] theorem Status.writeOneToClear_done : (st.writeOneToClear x).done = (st.done && !x.getLsbD 1) := rfl
@[simp] theorem Status.writeOneToClear_err : (st.writeOneToClear x).err = (st.err && !x.getLsbD 2) := rfl
@[simp] theorem Status.writeOneToClear_werr : (st.writeOneToClear x).werr = (st.werr && !x.getLsbD 3) := rfl
@[simp] theorem Status.writeOneToClear_errcode : (st.writeOneToClear x).errcode = if x.getLsbD 2 then 0#4 else st.errcode := rfl

end

end Sys2Proof.Machine
end

