-- ==== Sys2Proof/Laws/Step.lean ====
section
/-! SUPPORT. What a step can do: the turns, the host's statement, the engine's completion, and the cases of `exec`. -/

namespace Sys2Proof.Machine

open Sys2Proof

theorem nextTurn_nil {s : State} (h : s.sched = []) :
    s.nextTurn = (if s.status.busy then .engine else .host, s) := by simp [State.nextTurn, h]

theorem nextTurn_cons {s : State} {a : Turn} {as : List Turn} (h : s.sched = a :: as) :
    s.nextTurn = (a, { s with sched := as }) := by simp [State.nextTurn, h]

/-- Taking a turn changes the schedule alone. -/
theorem nextTurn_state (s : State) : ∃ as, s.nextTurn.2 = { s with sched := as } := by
  unfold State.nextTurn
  split
  · exact ⟨s.sched, rfl⟩
  · exact ⟨_, rfl⟩

theorem step_of_host {s s0 : State} (h : s.nextTurn = (.host, s0)) : step s = hostStep s0 := by simp [step, h]

theorem step_of_engine {s s0 : State} (h : s.nextTurn = (.engine, s0)) : step s = engineStep s0 := by simp [step, h]

theorem step_of_rst {s s0 : State} (h : s.nextTurn = (.rst, s0)) : step s = .next s0.blockReset := by simp [step, h]

/-- A host step idles, moves past a label, branches, or performs its statement's bus access. -/
theorem hostStep_cases {s t : State} (h : hostStep s = .next t) :
    (s.prog[s.hpc]? = none ∧ t = s) ∨
    (∃ n, t = { s with hpc := n }) ∨
    ∃ st a, s.prog[s.hpc]? = some st ∧ stmtAccess s.cfg st = some a ∧
      hostAccess { s with hpc := s.hpc + 1 } a = .next t := by
  unfold hostStep at h
  split at h
  · rename_i hn
    exact .inl ⟨hn, by simpa using h.symm⟩
  · rename_i st hst
    unfold hostStatement at h
    split at h
    · unfold hostBranch at h
      split at h
      · split at h
        · exact .inr (.inl ⟨_, by simpa using h.symm⟩)
        · simp at h
      · exact .inr (.inl ⟨_, by simpa using h.symm⟩)
    · split at h
      · rename_i a ha
        exact .inr (.inr ⟨st, a, hst, ha, h⟩)
      · exact .inr (.inl ⟨_, by simpa using h.symm⟩)

/-- Every command is total: it completes. -/
theorem exec_next (i : Instr) (s : State) : ∃ t, exec i s = .next t := by
  cases i <;> exact ⟨_, rfl⟩

/-- An engine step completes a pending command or an illegal word, or has nothing to do. -/
theorem engineStep_cases {s t : State} (h : engineStep s = .next t) :
    (s.status.busy = false ∧ t = s) ∨
    (s.status.busy = true ∧ ∃ i, decode s.cmdLatch = .ok i ∧ exec i s = .next t) ∨
    (s.status.busy = true ∧ ∃ e, decode s.cmdLatch = .error e ∧ t = s.failCommand .illegalCommand) := by
  unfold engineStep at h
  split at h
  · rename_i hb
    unfold State.fetchCommand at h
    split at h
    · rename_i i hi
      exact .inr (.inl ⟨hb, i, hi, h⟩)
    · rename_i e he
      exact .inr (.inr ⟨hb, e, he, by simpa [completeIllegal, State.complete] using h.symm⟩)
  · rename_i hb
    exact .inl ⟨by simpa using hb, by simpa using h.symm⟩

/-- A step is the platform's reset, a host step or an engine step, each after taking the turn. -/
theorem step_cases {s t : State} (h : step s = .next t) :
    ∃ s0 as, s0 = { s with sched := as } ∧
      ((s.nextTurn = (.rst, s0) ∧ t = s0.blockReset) ∨
       (s.nextTurn = (.host, s0) ∧ hostStep s0 = .next t) ∨
       (s.nextTurn = (.engine, s0) ∧ engineStep s0 = .next t)) := by
  obtain ⟨as, has⟩ := nextTurn_state s
  refine ⟨s.nextTurn.2, as, has, ?_⟩
  match hn : s.nextTurn with
  | (.rst, s') => exact .inl ⟨rfl, by simpa [step, hn] using h.symm⟩
  | (.host, s') => exact .inr (.inl ⟨rfl, by simpa [step, hn] using h⟩)
  | (.engine, s') => exact .inr (.inr ⟨rfl, by simpa [step, hn] using h⟩)

/-! Runs of the machine, one step at a time. -/

theorem run_zero (s : State) : Sys2Proof.core.run 0 s = .next s := rfl

/-- A run of any machine whose first step answers a next state goes on from there. -/
theorem run_succ (M : Host.Core) {s t : M.State} (h : M.step s = .next t) (k : Nat) : M.run (k + 1) s = M.run k t := by
  simp only [Host.Core.run, h]

theorem run_succ_of_next {s t : State} (h : step s = .next t) (k : Nat) :
    Sys2Proof.core.run (k + 1) s = Sys2Proof.core.run k t := run_succ Sys2Proof.core h k

end Sys2Proof.Machine
end

