-- ==== Sys2Proof/Laws/Commands.lean ====
section
/-! SUPPORT. What the completion of a command can be, once for all commands (`exec_cases`), and what each command does
where no error applies (`exec_<command>_ok`). Provers cite these and unfold no command. -/

namespace Sys2Proof.Machine

open Sys2Proof

/-- The bounds in `Config.valid`, as propositions. -/
theorem Config.valid_bounds {c : Config} (h : c.valid = true) :
    c.bufCap % 8 = 0 ∧ 16 ≤ c.bufCap ∧ c.bufCap ≤ 2 ^ 24 ∧ c.base % 2 ^ 25 = 0 := by
  simp [Config.valid] at h; omega

theorem inputTooLarge_eq (s : State) : s.inputTooLarge = decide (s.cfg.bufCap < s.len.toNat) := rfl

/-- A command other than SRESET completes from the result of its pseudocode. -/
theorem exec_complete (i : Instr) (h : i ≠ .sreset) (s : State) : ∃ r, exec i s = .next (s.complete r) := by
  cases i <;> first | exact ⟨_, rfl⟩ | exact absurd rfl h

/-- LEN > BUF_CAP is the first error of every command that reads BUF (spec/60_exceptions.md R265). -/
theorem exec_inputTooLarge {i : Instr} {s : State} (h : s.cfg.bufCap < s.len.toNat) (hn : i ≠ .nop)
    (hr : i ≠ .sreset) : exec i s = .next (s.failCommand .inputTooLarge) := by
  have hs : s.inputTooLarge = true := by simp [inputTooLarge_eq, h]
  cases i <;>
    simp_all [exec, execKeypack, runKeypack, execKeytake, runKeytake, execPadFb, execPadVb, runPad, execCryptFbEnc,
      execCryptFbDec, runCryptFb, execCryptVbEnc, execCryptVbDec, runCryptVb, execB64enc, runB64enc, execB64dec,
      runB64dec, execEncryptFb, runEncryptFb, execEncryptVb, runEncryptVb, execDecryptFb, runDecryptFb, execDecryptVb,
      runDecryptVb]

/-! Each command where LEN <= BUF_CAP and no error applies. -/

section Ok

variable {s : State} (h : s.len.toNat ≤ s.cfg.bufCap)

include h

theorem exec_keypack_ok :
    exec .keypack s = .next (s.finishCommand
      (CmdResult.ofKey (pack16 (s.buf.readBytes 0 (min s.len.toNat 16) ++ zeros (16 - min s.len.toNat 16))))) := by
  simp [exec, execKeypack, runKeypack, inputTooLarge_eq, State.lenBytes, Nat.not_lt.2 h]

theorem exec_keytake_ok (h16 : 16 ≤ s.len.toNat) :
    exec .keytake s = .next (s.finishCommand
      { key := some (pack16 (s.buf.readBytes 0 16)), data := some (s.buf.readBytes 16 (s.len.toNat - 16)) }) := by
  simp only [exec, execKeytake, runKeytake, inputTooLarge_eq, State.lenBytes, Nat.not_lt.2 h, Nat.not_lt.2 h16]; rfl

theorem exec_padFb_ok : exec .padFb s = .next (s.finishCommand (CmdResult.ofData (padTo s.input 8))) := by
  simp [exec, execPadFb, runPad, inputTooLarge_eq, Nat.not_lt.2 h]

theorem exec_padVb_ok : exec .padVb s = .next (s.finishCommand (CmdResult.ofData (padTo s.input 4))) := by
  simp [exec, execPadVb, runPad, inputTooLarge_eq, Nat.not_lt.2 h]

theorem exec_cryptFbEnc_ok (h8 : s.len.toNat % 8 = 0) :
    exec .cryptFbEnc s = .next (s.finishCommand (CmdResult.ofData (fbBytes s.key s.encryptCount s.input))) := by
  simp [exec, execCryptFbEnc, runCryptFb, inputTooLarge_eq, State.lenBytes, Nat.not_lt.2 h, h8]

theorem exec_cryptFbDec_ok (h8 : s.len.toNat % 8 = 0) :
    exec .cryptFbDec s = .next (s.finishCommand (CmdResult.ofData (fbBytes s.key s.decryptCount s.input))) := by
  simp [exec, execCryptFbDec, runCryptFb, inputTooLarge_eq, State.lenBytes, Nat.not_lt.2 h, h8]

theorem exec_cryptVbEnc_ok (h4 : s.len.toNat % 4 = 0) (h8 : 8 ≤ s.len.toNat) :
    exec .cryptVbEnc s = .next (s.finishCommand (CmdResult.ofData (bytesOf (vbEncrypt s.key (wordsOf s.input))))) := by
  simp [exec, execCryptVbEnc, runCryptVb, inputTooLarge_eq, State.lenBytes, Nat.not_lt.2 h, h4,
    show ¬s.len.toNat / 4 < 2 by omega]

theorem exec_cryptVbDec_ok (h4 : s.len.toNat % 4 = 0) (h8 : 8 ≤ s.len.toNat) :
    exec .cryptVbDec s = .next (s.finishCommand (CmdResult.ofData (bytesOf (vbDecrypt s.key (wordsOf s.input))))) := by
  simp [exec, execCryptVbDec, runCryptVb, inputTooLarge_eq, State.lenBytes, Nat.not_lt.2 h, h4,
    show ¬s.len.toNat / 4 < 2 by omega]

theorem exec_b64enc_ok (hf : (b64enc s.input).length ≤ s.cfg.bufCap) :
    exec .b64enc s = .next (s.finishCommand (CmdResult.ofData (b64enc s.input))) := by
  simp only [exec, execB64enc, runB64enc, inputTooLarge_eq, State.outputResult, Nat.not_lt.2 h, Nat.not_lt.2 hf]; rfl

theorem exec_b64dec_ok {c : List Byte} (hd : b64dec s.input = some c) :
    exec .b64dec s = .next (s.finishCommand (CmdResult.ofData c)) := by
  simp [exec, execB64dec, runB64dec, inputTooLarge_eq, Nat.not_lt.2 h, hd]

theorem exec_encryptFb_ok
    (hf : (b64enc (fbBytes s.key s.encryptCount (padTo s.input 8))).length ≤ s.cfg.bufCap) :
    exec .encryptFb s =
      .next (s.finishCommand (CmdResult.ofData (b64enc (fbBytes s.key s.encryptCount (padTo s.input 8))))) := by
  simp only [exec, execEncryptFb, runEncryptFb, inputTooLarge_eq, State.outputResult, Nat.not_lt.2 h,
    Nat.not_lt.2 hf]; rfl

theorem exec_encryptVb_ok {c : List Byte} (hc : vbStage vbEncrypt s.key (padTo s.input 4) = .ok c)
    (hf : (b64enc c).length ≤ s.cfg.bufCap) :
    exec .encryptVb s = .next (s.finishCommand (CmdResult.ofData (b64enc c))) := by
  simp only [exec, execEncryptVb, runEncryptVb, inputTooLarge_eq, State.outputResult, Nat.not_lt.2 h, hc,
    Nat.not_lt.2 hf]; rfl

theorem exec_decryptFb_ok {c : List Byte} (hd : b64dec s.input = some c) (h8 : c.length % 8 = 0) :
    exec .decryptFb s = .next (s.finishCommand (CmdResult.ofData (fbBytes s.key s.decryptCount c))) := by
  simp [exec, execDecryptFb, runDecryptFb, inputTooLarge_eq, Nat.not_lt.2 h, hd, h8]

theorem exec_decryptVb_ok {c p : List Byte} (hd : b64dec s.input = some c) (h4 : c.length % 4 = 0)
    (hp : vbStage vbDecrypt s.key c = .ok p) :
    exec .decryptVb s = .next (s.finishCommand (CmdResult.ofData p)) := by
  simp [exec, execDecryptVb, runDecryptVb, inputTooLarge_eq, Nat.not_lt.2 h, hd, h4, hp]

end Ok

/-- A command that commits data leaves them as the input of the next command. -/
theorem State.input_finishCommand_ofData (s : State) {bs : List Byte} (hl : bs.length < 2 ^ 32) :
    (s.finishCommand (CmdResult.ofData bs)).input = bs := by
  refine byteList_ext ?_ fun j hj => ?_
  · simpa using hl
  · rw [State.length_input] at hj
    rw [State.getD_input, if_pos hj]
    simp

/-- The VariableBlock engine stage on two words or more. -/
theorem vbStage_ok {f : KeyFile → List Word → List Word} (k : KeyFile) {b : List Byte} (hb : 8 ≤ b.length) :
    vbStage f k b = .ok (bytesOf (f k (wordsOf b))) := by
  simp [vbStage, show ¬b.length = 0 by omega, show ¬b.length / 4 < 2 by omega]

/-- The VariableBlock engine stage on the empty buffer. -/
theorem vbStage_nil {f : KeyFile → List Word → List Word} (k : KeyFile) : vbStage f k [] = .ok [] := rfl

/-- A result with data that fit (and, for CRYPT.*, keep LEN) meets what `exec_cases` says of one. -/
theorem exec_cases_data {i : Instr} {s : State} {bs : List Byte}
    (hx : exec i s = .next (s.finishCommand (CmdResult.ofData bs))) (hn : i ≠ .nop) (hk : i ≠ .keypack)
    (hl : s.cfg.bufCap % 8 = 0 → bs.length ≤ s.cfg.bufCap)
    (hc : i = .cryptFbEnc ∨ i = .cryptFbDec ∨ i = .cryptVbEnc ∨ i = .cryptVbDec → bs.length = s.len.toNat) :
    ∃ r : CmdResult, exec i s = .next (s.finishCommand r) ∧ (i ≠ .keypack → i ≠ .keytake → r.key = none) ∧
      (i = .nop ∨ i = .keypack → r.data = none) ∧
      (i ≠ .nop → i ≠ .keypack → ∃ bs, r.data = some bs ∧ (s.cfg.bufCap % 8 = 0 → bs.length ≤ s.cfg.bufCap) ∧
        (i = .cryptFbEnc ∨ i = .cryptFbDec ∨ i = .cryptVbEnc ∨ i = .cryptVbDec → bs.length = s.len.toNat)) :=
  ⟨_, hx, fun _ _ => rfl, fun h => by rcases h with h | h <;> contradiction, fun _ _ => ⟨bs, rfl, hl, hc⟩⟩

/-- Everything the completion of a command other than SRESET can be: it fails, and only STATUS changes; or it succeeds,
and commits a key (KEYPACK and KEYTAKE only) and data (all but NOP and KEYPACK) that fit in BUF, as many bytes as LEN for
CRYPT.*. -/
theorem exec_cases (i : Instr) (s : State) (h : i ≠ .sreset) :
    (∃ e, exec i s = .next (s.failCommand e)) ∨
    ∃ r : CmdResult, exec i s = .next (s.finishCommand r) ∧ (i ≠ .keypack → i ≠ .keytake → r.key = none) ∧
      (i = .nop ∨ i = .keypack → r.data = none) ∧
      (i ≠ .nop → i ≠ .keypack → ∃ bs, r.data = some bs ∧ (s.cfg.bufCap % 8 = 0 → bs.length ≤ s.cfg.bufCap) ∧
        (i = .cryptFbEnc ∨ i = .cryptFbDec ∨ i = .cryptVbEnc ∨ i = .cryptVbDec → bs.length = s.len.toNat)) := by
  by_cases hn : i = .nop
  · subst hn
    exact .inr ⟨CmdResult.empty, rfl, fun _ _ => rfl, fun _ => rfl, fun h => absurd rfl h⟩
  by_cases hbig : s.cfg.bufCap < s.len.toNat
  · exact .inl ⟨_, exec_inputTooLarge hbig hn h⟩
  have hle := Nat.le_of_not_lt hbig
  cases i with
  | nop | sreset => contradiction
  | keypack => exact .inr ⟨_, exec_keypack_ok hle, fun h => absurd rfl h, fun _ => rfl, fun _ h => absurd rfl h⟩
  | keytake =>
    by_cases h16 : s.len.toNat < 16
    · exact .inl ⟨.missingKeyMaterial, by
        simp [exec, execKeytake, runKeytake, inputTooLarge_eq, State.lenBytes, Nat.not_lt.2 hle, h16]⟩
    · exact .inr ⟨_, exec_keytake_ok hle (Nat.le_of_not_lt h16), fun _ h => absurd rfl h, by simp,
        fun _ _ => ⟨_, rfl, fun _ => by rw [Memory.length_readBytes]; omega, by simp⟩⟩
  | padFb =>
    refine .inr (exec_cases_data (exec_padFb_ok hle) (by simp) (by simp) (fun h8 => ?_) (by simp))
    rw [length_padTo _ (by omega), State.length_input]; omega
  | padVb =>
    refine .inr (exec_cases_data (exec_padVb_ok hle) (by simp) (by simp) (fun h8 => ?_) (by simp))
    rw [length_padTo _ (by omega), State.length_input]; omega
  | cryptFbEnc =>
    by_cases h8 : s.len.toNat % 8 = 0
    · have hl := length_fbBytes s.key s.encryptCount (b := s.input) (by simp; omega)
      rw [State.length_input] at hl
      exact .inr (exec_cases_data (exec_cryptFbEnc_ok hle h8) (by simp) (by simp) (fun _ => hl.trans_le hle) fun _ => hl)
    · exact .inl ⟨.invalidBufferLength, by
        simp [exec, execCryptFbEnc, runCryptFb, inputTooLarge_eq, State.lenBytes, Nat.not_lt.2 hle, h8]⟩
  | cryptFbDec =>
    by_cases h8 : s.len.toNat % 8 = 0
    · have hl := length_fbBytes s.key s.decryptCount (b := s.input) (by simp; omega)
      rw [State.length_input] at hl
      exact .inr (exec_cases_data (exec_cryptFbDec_ok hle h8) (by simp) (by simp) (fun _ => hl.trans_le hle) fun _ => hl)
    · exact .inl ⟨.invalidBufferLength, by
        simp [exec, execCryptFbDec, runCryptFb, inputTooLarge_eq, State.lenBytes, Nat.not_lt.2 hle, h8]⟩
  | cryptVbEnc =>
    by_cases h4 : s.len.toNat % 4 = 0
    · by_cases h2 : s.len.toNat / 4 < 2
      · exact .inl ⟨.invalidBlockLength, by
          simp [exec, execCryptVbEnc, runCryptVb, inputTooLarge_eq, State.lenBytes, Nat.not_lt.2 hle, h4, h2]⟩
      · have hl := length_bytesOf_transform length_vbEncrypt s.key (b := s.input) (by simpa using h4)
        rw [State.length_input] at hl
        exact .inr (exec_cases_data (exec_cryptVbEnc_ok hle h4 (by omega)) (by simp) (by simp)
          (fun _ => hl.trans_le hle) fun _ => hl)
    · exact .inl ⟨.invalidBufferLength, by
        simp [exec, execCryptVbEnc, runCryptVb, inputTooLarge_eq, State.lenBytes, Nat.not_lt.2 hle, h4]⟩
  | cryptVbDec =>
    by_cases h4 : s.len.toNat % 4 = 0
    · by_cases h2 : s.len.toNat / 4 < 2
      · exact .inl ⟨.invalidBlockLength, by
          simp [exec, execCryptVbDec, runCryptVb, inputTooLarge_eq, State.lenBytes, Nat.not_lt.2 hle, h4, h2]⟩
      · have hl := length_bytesOf_transform length_vbDecrypt s.key (b := s.input) (by simpa using h4)
        rw [State.length_input] at hl
        exact .inr (exec_cases_data (exec_cryptVbDec_ok hle h4 (by omega)) (by simp) (by simp)
          (fun _ => hl.trans_le hle) fun _ => hl)
    · exact .inl ⟨.invalidBufferLength, by
        simp [exec, execCryptVbDec, runCryptVb, inputTooLarge_eq, State.lenBytes, Nat.not_lt.2 hle, h4]⟩
  | b64enc =>
    by_cases hf : s.cfg.bufCap < (b64enc s.input).length
    · exact .inl ⟨.inputTooLarge, by
        simp only [exec, execB64enc, runB64enc, inputTooLarge_eq, Nat.not_lt.2 hle, State.outputResult, hf]; simp⟩
    · exact .inr (exec_cases_data (exec_b64enc_ok hle (Nat.le_of_not_lt hf)) (by simp) (by simp)
        (fun _ => Nat.le_of_not_lt hf) (by simp))
  | b64dec =>
    cases hd : b64dec s.input with
    | none => exact .inl ⟨.decodeError, by simp [exec, execB64dec, runB64dec, inputTooLarge_eq, Nat.not_lt.2 hle, hd]⟩
    | some c =>
      have hl := length_of_b64dec hd
      rw [State.length_input] at hl
      exact .inr (exec_cases_data (exec_b64dec_ok hle hd) (by simp) (by simp) (fun _ => by omega) (by simp))
  | encryptFb =>
    by_cases hf : s.cfg.bufCap < (b64enc (fbBytes s.key s.encryptCount (padTo s.input 8))).length
    · exact .inl ⟨.inputTooLarge, by
        simp only [exec, execEncryptFb, runEncryptFb, inputTooLarge_eq, Nat.not_lt.2 hle, State.outputResult, hf]; simp⟩
    · exact .inr (exec_cases_data (exec_encryptFb_ok hle (Nat.le_of_not_lt hf)) (by simp) (by simp)
        (fun _ => Nat.le_of_not_lt hf) (by simp))
  | encryptVb =>
    cases hc : vbStage vbEncrypt s.key (padTo s.input 4) with
    | error e =>
      exact .inl ⟨e, by simp [exec, execEncryptVb, runEncryptVb, inputTooLarge_eq, Nat.not_lt.2 hle, hc]⟩
    | ok c =>
      by_cases hf : s.cfg.bufCap < (b64enc c).length
      · exact .inl ⟨.inputTooLarge, by
          simp only [exec, execEncryptVb, runEncryptVb, inputTooLarge_eq, Nat.not_lt.2 hle, hc, State.outputResult, hf]
          simp⟩
      · exact .inr (exec_cases_data (exec_encryptVb_ok hle hc (Nat.le_of_not_lt hf)) (by simp) (by simp)
          (fun _ => Nat.le_of_not_lt hf) (by simp))
  | decryptFb =>
    cases hd : b64dec s.input with
    | none =>
      exact .inl ⟨.decodeError, by simp [exec, execDecryptFb, runDecryptFb, inputTooLarge_eq, Nat.not_lt.2 hle, hd]⟩
    | some c =>
      have hl := length_of_b64dec hd
      rw [State.length_input] at hl
      by_cases h8 : c.length % 8 = 0
      · have hb := length_fbBytes s.key s.decryptCount (b := c) (by omega)
        exact .inr (exec_cases_data (exec_decryptFb_ok hle hd h8) (by simp) (by simp) (fun _ => by omega) (by simp))
      · exact .inl ⟨.invalidBufferLength, by
          simp [exec, execDecryptFb, runDecryptFb, inputTooLarge_eq, Nat.not_lt.2 hle, hd, h8]⟩
  | decryptVb =>
    cases hd : b64dec s.input with
    | none =>
      exact .inl ⟨.decodeError, by simp [exec, execDecryptVb, runDecryptVb, inputTooLarge_eq, Nat.not_lt.2 hle, hd]⟩
    | some c =>
      have hl := length_of_b64dec hd
      rw [State.length_input] at hl
      by_cases h4 : c.length % 4 = 0
      · cases hp : vbStage vbDecrypt s.key c with
        | error e =>
          exact .inl ⟨e, by simp [exec, execDecryptVb, runDecryptVb, inputTooLarge_eq, Nat.not_lt.2 hle, hd, h4, hp]⟩
        | ok p =>
          have hpl : p.length = c.length := by
            unfold vbStage at hp
            split at hp
            · rename_i h0
              cases hp
              exact h0.symm
            · split at hp
              · cases hp
              · cases hp
                exact length_bytesOf_transform length_vbDecrypt _ h4
          exact .inr (exec_cases_data (exec_decryptVb_ok hle hd h4 hp) (by simp) (by simp) (fun _ => by omega) (by simp))
      · exact .inl ⟨.invalidBufferLength, by
          simp [exec, execDecryptVb, runDecryptVb, inputTooLarge_eq, Nat.not_lt.2 hle, hd, h4]⟩

/-- No completion clears or sets WERR, and BUSY is 0 after it. -/
theorem complete_status (s : State) (r : Except CmdError CmdResult) :
    (s.complete r).status.busy = false ∧ (s.complete r).status.werr = s.status.werr := by
  cases r <;> exact ⟨rfl, rfl⟩

/-- A completion changes KEY, BUF, LEN and STATUS at most. -/
theorem complete_frame (s : State) (r : Except CmdError CmdResult) :
    s.complete r = { s with
      key := (s.complete r).key, buf := (s.complete r).buf, len := (s.complete r).len,
      status := (s.complete r).status } := by
  cases r with
  | error e => rfl
  | ok r => cases r with | mk k d => cases k <;> cases d <;> rfl

end Sys2Proof.Machine
end

