-- ==== Sys2Proof/Laws/PerInstr.lean ====
section
/-! SUPPORT. The family of statements made of each command as syntax: it is well formed, its word keeps RSV at 0 and OP
within 0 to 9 (spec/30_encoding.md R100, R102), and the table's numbering of that word decodes to it. -/

namespace Sys2Proof.Laws

open Sys2Proof

def TableWord.Statement (i : Instr) : Prop :=
  i.wellFormed = true ∧ rsvField (encode i) = 0 ∧ (opField (encode i)).toNat ≤ 9 ∧
    decodeTableWord 32 (encode i).toNat = some i

theorem TableWord.nop : TableWord.Statement .nop := by unfold TableWord.Statement; decide

theorem TableWord.keypack : TableWord.Statement .keypack := by unfold TableWord.Statement; decide

theorem TableWord.keytake : TableWord.Statement .keytake := by unfold TableWord.Statement; decide

theorem TableWord.padFb : TableWord.Statement .padFb := by unfold TableWord.Statement; decide

theorem TableWord.padVb : TableWord.Statement .padVb := by unfold TableWord.Statement; decide

theorem TableWord.cryptFbEnc : TableWord.Statement .cryptFbEnc := by unfold TableWord.Statement; decide

theorem TableWord.cryptFbDec : TableWord.Statement .cryptFbDec := by unfold TableWord.Statement; decide

theorem TableWord.cryptVbEnc : TableWord.Statement .cryptVbEnc := by unfold TableWord.Statement; decide

theorem TableWord.cryptVbDec : TableWord.Statement .cryptVbDec := by unfold TableWord.Statement; decide

theorem TableWord.b64enc : TableWord.Statement .b64enc := by unfold TableWord.Statement; decide

theorem TableWord.b64dec : TableWord.Statement .b64dec := by unfold TableWord.Statement; decide

theorem TableWord.encryptFb : TableWord.Statement .encryptFb := by unfold TableWord.Statement; decide

theorem TableWord.encryptVb : TableWord.Statement .encryptVb := by unfold TableWord.Statement; decide

theorem TableWord.decryptFb : TableWord.Statement .decryptFb := by unfold TableWord.Statement; decide

theorem TableWord.decryptVb : TableWord.Statement .decryptVb := by unfold TableWord.Statement; decide

theorem TableWord.sreset : TableWord.Statement .sreset := by unfold TableWord.Statement; decide

end Sys2Proof.Laws
end

