-- ==== Sys2Proof/Tests/Slice0.lean ====
section
/-! SUPPORT. The model's own tests: the well-formedness checks, the decoder on words written out from
spec/30_encoding.md R102, single steps on the vectors of spec/95_test_vectors.md, and a witness for every statement that
has hypotheses. -/

namespace Sys2Proof.Tests

open Sys2Proof Sys2Proof.Machine

/-! Well-formedness: each check refuses an ill-formed term. -/

theorem test_config_standard : Config.standard.valid = true := by decide

theorem test_config_least_cap : Config.valid { bufCap := 16, base := 0x2000000 } = true := by decide

theorem test_config_cap_no_multiple_of_8 : Config.valid { bufCap := 20, base := 0 } = false := by decide

theorem test_config_cap_below_16 : Config.valid { bufCap := 8, base := 0 } = false := by decide

theorem test_config_cap_above_2_24 : Config.valid { bufCap := 16777224, base := 0 } = false := by decide

theorem test_config_base_unaligned : Config.valid { bufCap := 4096, base := 0x1000000 } = false := by decide

theorem test_program_ok : hostProgramWellFormed [.label 1, .rd .status, .bbs 0 1] = true := by decide

theorem test_program_label_twice : hostProgramWellFormed [.label 1, .label 1] = false := by decide

theorem test_program_label_missing : hostProgramWellFormed [.bbs 0 1] = false := by decide

theorem test_program_value_too_wide : hostProgramWellFormed [.bus (.write 0x10000 .w8 0x100#32)] = false := by decide

/-! Decoding: the word of each row of spec/30_encoding.md R102, as bits 31:6 (RSV), 5 (VAR), 4 (DIR), 3:0 (OP). -/

theorem test_decode_nop : decode (0#26 ++ 0b0#1 ++ 0b0#1 ++ 0b0000#4) = .ok .nop ∧ decodeTableWord 32 0x00000000 = some .nop := by
  decide

theorem test_decode_keypack : decode (0#26 ++ 0b0#1 ++ 0b0#1 ++ 0b0001#4) = .ok .keypack ∧ decodeTableWord 32 0x00000001 = some .keypack := by
  decide

theorem test_decode_keytake : decode (0#26 ++ 0b0#1 ++ 0b0#1 ++ 0b0010#4) = .ok .keytake ∧ decodeTableWord 32 0x00000002 = some .keytake := by
  decide

theorem test_decode_padFb : decode (0#26 ++ 0b0#1 ++ 0b0#1 ++ 0b0011#4) = .ok .padFb ∧ decodeTableWord 32 0x00000003 = some .padFb := by
  decide

theorem test_decode_padVb : decode (0#26 ++ 0b1#1 ++ 0b0#1 ++ 0b0011#4) = .ok .padVb ∧ decodeTableWord 32 0x00000023 = some .padVb := by
  decide

theorem test_decode_cryptFbEnc : decode (0#26 ++ 0b0#1 ++ 0b0#1 ++ 0b0100#4) = .ok .cryptFbEnc ∧ decodeTableWord 32 0x00000004 = some .cryptFbEnc := by
  decide

theorem test_decode_cryptFbDec : decode (0#26 ++ 0b0#1 ++ 0b1#1 ++ 0b0100#4) = .ok .cryptFbDec ∧ decodeTableWord 32 0x00000014 = some .cryptFbDec := by
  decide

theorem test_decode_cryptVbEnc : decode (0#26 ++ 0b1#1 ++ 0b0#1 ++ 0b0100#4) = .ok .cryptVbEnc ∧ decodeTableWord 32 0x00000024 = some .cryptVbEnc := by
  decide

theorem test_decode_cryptVbDec : decode (0#26 ++ 0b1#1 ++ 0b1#1 ++ 0b0100#4) = .ok .cryptVbDec ∧ decodeTableWord 32 0x00000034 = some .cryptVbDec := by
  decide

theorem test_decode_b64enc : decode (0#26 ++ 0b0#1 ++ 0b0#1 ++ 0b0101#4) = .ok .b64enc ∧ decodeTableWord 32 0x00000005 = some .b64enc := by
  decide

theorem test_decode_b64dec : decode (0#26 ++ 0b0#1 ++ 0b0#1 ++ 0b0110#4) = .ok .b64dec ∧ decodeTableWord 32 0x00000006 = some .b64dec := by
  decide

theorem test_decode_encryptFb : decode (0#26 ++ 0b0#1 ++ 0b0#1 ++ 0b0111#4) = .ok .encryptFb ∧ decodeTableWord 32 0x00000007 = some .encryptFb := by
  decide

theorem test_decode_encryptVb : decode (0#26 ++ 0b1#1 ++ 0b0#1 ++ 0b0111#4) = .ok .encryptVb ∧ decodeTableWord 32 0x00000027 = some .encryptVb := by
  decide

theorem test_decode_decryptFb : decode (0#26 ++ 0b0#1 ++ 0b0#1 ++ 0b1000#4) = .ok .decryptFb ∧ decodeTableWord 32 0x00000008 = some .decryptFb := by
  decide

theorem test_decode_decryptVb : decode (0#26 ++ 0b1#1 ++ 0b0#1 ++ 0b1000#4) = .ok .decryptVb ∧ decodeTableWord 32 0x00000028 = some .decryptVb := by
  decide

theorem test_decode_sreset : decode (0#26 ++ 0b0#1 ++ 0b0#1 ++ 0b1001#4) = .ok .sreset ∧ decodeTableWord 32 0x00000009 = some .sreset := by
  decide

/-- The illegal words of spec/95_test_vectors.md V-CTL-6 and V-CTL-7, each refused by name. -/
theorem test_decode_illegal :
    decode 0x00000040#32 = .error .reservedBits ∧ decode 0x80000000#32 = .error .reservedBits ∧
    decode 0x0000000A#32 = .error .undefinedOp ∧ decode 0x0000000F#32 = .error .undefinedOp ∧
    decode 0x00000015#32 = .error .directionNotAllowed ∧ decode 0x00000033#32 = .error .directionNotAllowed ∧
    decode 0x00000039#32 = .error .directionNotAllowed ∧ decode 0x00000025#32 = .error .variantNotAllowed := by
  decide

/-! One step of each command, from spec/95_test_vectors.md. -/

/-- K1 of spec/95_test_vectors.md. -/
def keyOne : KeyFile := { k0 := 0x03020100#32, k1 := 0x07060504#32, k2 := 0x0B0A0908#32, k3 := 0x0F0E0D0C#32 }

/-- The reset state with a key, a round count and the bytes of BUF[0..LEN). -/
def loaded (k : KeyFile) (rounds : Word) (bs : List Byte) : State :=
  { State.reset with key := k, rounds := rounds, buf := Memory.ofBytes 0 bs, len := BitVec.ofNat 32 bs.length }

/-- `s` with BUF_CAP = 16. -/
def tiny (s : State) : State := { s with cfg := { bufCap := 16, base := 0 } }

/-- `s` with LEN as given. -/
def withLen (s : State) (n : Word) : State := { s with len := n }

/-- STATUS, LEN and BUF[0..LEN + 4) after the command word `w` is run on `s`. -/
def outcome (s : State) (w : Nat) : Option (Word × Word × List Byte) :=
  match step (s.withFetchWord 32 w) with
  | .next t => some (t.status.word, t.len, t.buf.readBytes 0 (t.len.toNat + 4))
  | _ => none

/-- The key after the command word `w` is run on `s`. -/
def keyAfter (s : State) (w : Nat) : Option KeyFile :=
  match step (s.withFetchWord 32 w) with
  | .next t => some t.key
  | _ => none

/-- V-CTL-1: NOP after an error. -/
theorem test_nop :
    outcome { State.reset with status := { busy := false, done := false, err := true, werr := false, errcode := 5#4 } } 0 =
      some (0x00000002#32, 0#32, zeros 4) := by decide +kernel

/-- V-KP-3: the key of "secretkey". -/
theorem test_keypack_pads :
    keyAfter (loaded KeyFile.reset 64#32 [0x73#8, 0x65#8, 0x63#8, 0x72#8, 0x65#8, 0x74#8, 0x6B#8, 0x65#8, 0x79#8]) 1 =
      some { k0 := 0x72636573#32, k1 := 0x656B7465#32, k2 := 0x00000079#32, k3 := 0#32 } := by decide +kernel

/-- V-KP-6: LEN > BUF_CAP; the key stays. -/
theorem test_keypack_too_large :
    outcome (withLen (tiny (loaded keyOne 64#32 [])) 17#32) 1 = some (0x00000304#32, 17#32, zeros 21) ∧
    keyAfter (withLen (tiny (loaded keyOne 64#32 [])) 17#32) 1 = some keyOne := by decide +kernel

/-- V-KT-1: the key, and the rest of the buffer moved down. -/
theorem test_keytake :
    keyAfter (loaded KeyFile.reset 64#32 [0x00#8, 0x01#8, 0x02#8, 0x03#8, 0x04#8, 0x05#8, 0x06#8, 0x07#8, 0x08#8, 0x09#8, 0x0A#8, 0x0B#8, 0x0C#8, 0x0D#8, 0x0E#8, 0x0F#8, 0x74#8, 0x65#8, 0x73#8, 0x74#8]) 2 = some keyOne ∧
    outcome (loaded KeyFile.reset 64#32 [0x00#8, 0x01#8, 0x02#8, 0x03#8, 0x04#8, 0x05#8, 0x06#8, 0x07#8, 0x08#8, 0x09#8, 0x0A#8, 0x0B#8, 0x0C#8, 0x0D#8, 0x0E#8, 0x0F#8, 0x74#8, 0x65#8, 0x73#8, 0x74#8]) 2 =
      some (0x00000002#32, 4#32, [0x74#8, 0x65#8, 0x73#8, 0x74#8] ++ zeros 4) := by decide +kernel

/-- V-KT-3: too few bytes. -/
theorem test_keytake_too_few :
    outcome (loaded KeyFile.reset 64#32 [0x00#8, 0x01#8, 0x02#8, 0x03#8, 0x04#8, 0x05#8, 0x06#8, 0x07#8, 0x08#8, 0x09#8, 0x0A#8, 0x0B#8, 0x0C#8, 0x0D#8, 0x0E#8]) 0x00000002 =
      some (0x00000404#32, 15#32, [0x00#8, 0x01#8, 0x02#8, 0x03#8, 0x04#8, 0x05#8, 0x06#8, 0x07#8, 0x08#8, 0x09#8, 0x0A#8, 0x0B#8, 0x0C#8, 0x0D#8, 0x0E#8] ++ zeros 4) := by decide +kernel

/-- V-PAD-1: "test" padded to a block. -/
theorem test_padFb :
    outcome (loaded KeyFile.reset 64#32 [0x74#8, 0x65#8, 0x73#8, 0x74#8]) 0x00000003 =
      some (0x00000002#32, 8#32, [0x74#8, 0x65#8, 0x73#8, 0x74#8, 0x00#8, 0x00#8, 0x00#8, 0x00#8] ++ zeros 4) := by decide +kernel

/-- V-PAD-2: an exact multiple gains nothing. -/
theorem test_padFb_exact :
    outcome (loaded KeyFile.reset 64#32 [0x31#8, 0x32#8, 0x33#8, 0x34#8, 0x35#8, 0x36#8, 0x37#8, 0x38#8]) 0x00000003 =
      some (0x00000002#32, 8#32, [0x31#8, 0x32#8, 0x33#8, 0x34#8, 0x35#8, 0x36#8, 0x37#8, 0x38#8] ++ zeros 4) := by decide +kernel

/-- V-PAD-5: "hello" padded to words. -/
theorem test_padVb :
    outcome (loaded KeyFile.reset 64#32 [0x68#8, 0x65#8, 0x6C#8, 0x6C#8, 0x6F#8]) 0x00000023 =
      some (0x00000002#32, 8#32, [0x68#8, 0x65#8, 0x6C#8, 0x6C#8, 0x6F#8, 0x00#8, 0x00#8, 0x00#8] ++ zeros 4) := by decide +kernel

/-- V-PAD-7: PAD.VB does not check the word count. -/
theorem test_padVb_one :
    outcome (loaded KeyFile.reset 64#32 [0x61#8]) 0x00000023 =
      some (0x00000002#32, 4#32, [0x61#8, 0x00#8, 0x00#8, 0x00#8] ++ zeros 4) := by decide +kernel

/-- V-FB-7: one iteration under K1. -/
theorem test_cryptFbEnc :
    outcome (loaded keyOne 1#32 [0x00#8, 0x01#8, 0x02#8, 0x03#8, 0x04#8, 0x05#8, 0x06#8, 0x07#8]) 0x00000004 =
      some (0x00000002#32, 8#32, [0x6C#8, 0x65#8, 0x5E#8, 0x77#8, 0x96#8, 0x92#8, 0x04#8, 0x48#8] ++ zeros 4) := by decide +kernel

/-- V-FB-C4: LEN 4. -/
theorem test_cryptFbEnc_length :
    outcome (loaded KeyFile.reset 64#32 [0x74#8, 0x65#8, 0x73#8, 0x74#8]) 0x00000004 =
      some (0x00000504#32, 4#32, [0x74#8, 0x65#8, 0x73#8, 0x74#8] ++ zeros 4) := by decide +kernel

/-- V-FB-7, undone. -/
theorem test_cryptFbDec :
    outcome (loaded keyOne 1#32 [0x6C#8, 0x65#8, 0x5E#8, 0x77#8, 0x96#8, 0x92#8, 0x04#8, 0x48#8]) 0x00000014 =
      some (0x00000002#32, 8#32, [0x00#8, 0x01#8, 0x02#8, 0x03#8, 0x04#8, 0x05#8, 0x06#8, 0x07#8] ++ zeros 4) := by decide +kernel

/-- V-FB-C5: LEN 12. -/
theorem test_cryptFbDec_length :
    outcome (loaded KeyFile.reset 64#32 [0x48#8, 0x65#8, 0x6C#8, 0x6C#8, 0x6F#8, 0x2C#8, 0x20#8, 0x77#8, 0x6F#8, 0x72#8, 0x6C#8, 0x64#8]) 0x00000014 =
      some (0x00000504#32, 12#32, [0x48#8, 0x65#8, 0x6C#8, 0x6C#8, 0x6F#8, 0x2C#8, 0x20#8, 0x77#8, 0x6F#8, 0x72#8, 0x6C#8, 0x64#8] ++ zeros 4) := by decide +kernel

/-- V-VB-3: three words under K1. -/
theorem test_cryptVbEnc :
    outcome (loaded keyOne 64#32 [0x01#8, 0x00#8, 0x00#8, 0x00#8, 0x02#8, 0x00#8, 0x00#8, 0x00#8, 0x03#8, 0x00#8, 0x00#8, 0x00#8]) 0x00000024 =
      some (0x00000002#32, 12#32, [0xAF#8, 0x33#8, 0xE1#8, 0x17#8, 0xDD#8, 0xED#8, 0x98#8, 0x2F#8, 0x24#8, 0x72#8, 0x8A#8, 0x20#8] ++ zeros 4) := by decide +kernel

/-- V-VB-C2: LEN 4. -/
theorem test_cryptVbEnc_one_word :
    outcome (loaded KeyFile.reset 64#32 [0x74#8, 0x65#8, 0x73#8, 0x74#8]) 0x00000024 =
      some (0x00000204#32, 4#32, [0x74#8, 0x65#8, 0x73#8, 0x74#8] ++ zeros 4) := by decide +kernel

/-- V-VB-D2: the inverse. -/
theorem test_cryptVbDec :
    outcome (loaded keyOne 64#32 [0xAF#8, 0x33#8, 0xE1#8, 0x17#8, 0xDD#8, 0xED#8, 0x98#8, 0x2F#8, 0x24#8, 0x72#8, 0x8A#8, 0x20#8]) 0x00000034 =
      some (0x00000002#32, 12#32, [0x01#8, 0x00#8, 0x00#8, 0x00#8, 0x02#8, 0x00#8, 0x00#8, 0x00#8, 0x03#8, 0x00#8, 0x00#8, 0x00#8] ++ zeros 4) := by decide +kernel

/-- V-VB-C4: LEN 10. -/
theorem test_cryptVbDec_length :
    outcome (loaded KeyFile.reset 64#32 [0x30#8, 0x31#8, 0x32#8, 0x33#8, 0x34#8, 0x35#8, 0x36#8, 0x37#8, 0x38#8, 0x39#8]) 0x00000034 =
      some (0x00000504#32, 10#32, [0x30#8, 0x31#8, 0x32#8, 0x33#8, 0x34#8, 0x35#8, 0x36#8, 0x37#8, 0x38#8, 0x39#8] ++ zeros 4) := by decide +kernel

/-- V-B64-E7: indexes 62, 63, 60. -/
theorem test_b64enc :
    outcome (loaded KeyFile.reset 64#32 [0xFB#8, 0xFF#8]) 0x00000005 =
      some (0x00000002#32, 3#32, [0x2D#8, 0x5F#8, 0x38#8] ++ zeros 4) := by decide +kernel

/-- V-B64-E13: 18 symbols do not fit in 16 bytes. -/
theorem test_b64enc_too_large :
    outcome (tiny (loaded KeyFile.reset 64#32 [0x48#8, 0x65#8, 0x6C#8, 0x6C#8, 0x6F#8, 0x2C#8, 0x20#8, 0x77#8, 0x6F#8, 0x72#8, 0x6C#8, 0x64#8, 0x21#8])) 0x00000005 =
      some (0x00000304#32, 13#32, [0x48#8, 0x65#8, 0x6C#8, 0x6C#8, 0x6F#8, 0x2C#8, 0x20#8, 0x77#8, 0x6F#8, 0x72#8, 0x6C#8, 0x64#8, 0x21#8] ++ zeros 4) := by decide +kernel

/-- V-B64-D4: leftover bits are ignored. -/
theorem test_b64dec :
    outcome (loaded KeyFile.reset 64#32 [0x5A#8, 0x68#8]) 0x00000006 =
      some (0x00000002#32, 1#32, [0x66#8] ++ zeros 4) := by decide +kernel

/-- V-B64-D9: + is no symbol. -/
theorem test_b64dec_no_symbol :
    outcome (loaded KeyFile.reset 64#32 [0x5A#8, 0x6D#8, 0x2B#8, 0x76#8]) 0x00000006 =
      some (0x00000104#32, 4#32, [0x5A#8, 0x6D#8, 0x2B#8, 0x76#8] ++ zeros 4) := by decide +kernel

/-- V-PL-3: "test" with one iteration. -/
theorem test_encryptFb :
    outcome (loaded KeyFile.reset 1#32 [0x74#8, 0x65#8, 0x73#8, 0x74#8]) 0x00000007 =
      some (0x00000002#32, 11#32, [0x64#8, 0x47#8, 0x56#8, 0x7A#8, 0x64#8, 0x47#8, 0x5A#8, 0x49#8, 0x50#8, 0x69#8, 0x63#8] ++ zeros 4) := by decide +kernel

/-- V-PL-19: 22 symbols do not fit in 16 bytes. -/
theorem test_encryptFb_too_large :
    outcome (tiny (loaded KeyFile.reset 64#32 [0x30#8, 0x31#8, 0x32#8, 0x33#8, 0x34#8, 0x35#8, 0x36#8, 0x37#8, 0x38#8, 0x39#8, 0x61#8, 0x62#8, 0x63#8, 0x64#8, 0x65#8, 0x66#8])) 0x00000007 =
      some (0x00000304#32, 16#32, [0x30#8, 0x31#8, 0x32#8, 0x33#8, 0x34#8, 0x35#8, 0x36#8, 0x37#8, 0x38#8, 0x39#8, 0x61#8, 0x62#8, 0x63#8, 0x64#8, 0x65#8, 0x66#8] ++ zeros 4) := by decide +kernel

/-- V-PL-13: "hello" in two words. -/
theorem test_encryptVb :
    outcome (loaded KeyFile.reset 64#32 [0x68#8, 0x65#8, 0x6C#8, 0x6C#8, 0x6F#8]) 0x00000027 =
      some (0x00000002#32, 11#32, [0x74#8, 0x71#8, 0x30#8, 0x75#8, 0x6F#8, 0x53#8, 0x66#8, 0x72#8, 0x66#8, 0x35#8, 0x67#8] ++ zeros 4) := by decide +kernel

/-- V-PL-14: one word. -/
theorem test_encryptVb_one_word :
    outcome (loaded KeyFile.reset 64#32 [0x61#8]) 0x00000027 =
      some (0x00000204#32, 1#32, [0x61#8] ++ zeros 4) := by decide +kernel

/-- V-PL-3, undone: the padding stays. -/
theorem test_decryptFb :
    outcome (loaded KeyFile.reset 1#32 [0x64#8, 0x47#8, 0x56#8, 0x7A#8, 0x64#8, 0x47#8, 0x5A#8, 0x49#8, 0x50#8, 0x69#8, 0x63#8]) 0x00000008 =
      some (0x00000002#32, 8#32, [0x74#8, 0x65#8, 0x73#8, 0x74#8, 0x00#8, 0x00#8, 0x00#8, 0x00#8] ++ zeros 4) := by decide +kernel

/-- V-PL-15: 5 decoded bytes. -/
theorem test_decryptFb_length :
    outcome (loaded KeyFile.reset 64#32 [0x41#8, 0x41#8, 0x41#8, 0x41#8, 0x41#8, 0x41#8, 0x41#8]) 0x00000008 =
      some (0x00000504#32, 7#32, [0x41#8, 0x41#8, 0x41#8, 0x41#8, 0x41#8, 0x41#8, 0x41#8] ++ zeros 4) := by decide +kernel

/-- V-PL-13, undone. -/
theorem test_decryptVb :
    outcome (loaded KeyFile.reset 64#32 [0x74#8, 0x71#8, 0x30#8, 0x75#8, 0x6F#8, 0x53#8, 0x66#8, 0x72#8, 0x66#8, 0x35#8, 0x67#8]) 0x00000028 =
      some (0x00000002#32, 8#32, [0x68#8, 0x65#8, 0x6C#8, 0x6C#8, 0x6F#8, 0x00#8, 0x00#8, 0x00#8] ++ zeros 4) := by decide +kernel

/-- V-PL-16: one decoded word. -/
theorem test_decryptVb_one_word :
    outcome (loaded KeyFile.reset 64#32 [0x41#8, 0x41#8, 0x41#8, 0x41#8, 0x41#8, 0x41#8]) 0x00000028 =
      some (0x00000204#32, 6#32, [0x41#8, 0x41#8, 0x41#8, 0x41#8, 0x41#8, 0x41#8] ++ zeros 4) := by decide +kernel

/-- V-CTL-5: SRESET as a CMD write while a command is pending. -/
theorem test_sreset :
    (match memWrite ((loaded keyOne 5#32 [0x41#8]).acceptCommand 0x00000004#32) 0x000 .w32 0x00000009#32 with
      | .next t => decide (t = State.reset)
      | _ => false) = true := by decide +kernel

/-! Host accesses: spec/95_test_vectors.md section 3.8. -/

/-- The value a read leaves in t. -/
def readValue (s : State) (off : Nat) (w : Width) : Option Word :=
  match memRead s off w with
  | .next t => some t.scratch
  | _ => none

/-- The offset a read's BusError names. -/
def readFault (s : State) (off : Nat) (w : Width) : Option Fault :=
  match memRead s off w with
  | .fault f => some f
  | _ => none

/-- V-BUS-1, V-BUS-2, V-BUS-3, V-BUS-7. -/
theorem test_bus_errors :
    readFault State.reset 0x004 .w16 = some (.busError 0x004 .w16) ∧
    readFault State.reset 0x002 .w32 = some (.busError 0x002 .w32) ∧
    readFault State.reset 0x02C .w32 = some (.busError 0x02C .w32) ∧
    readFault State.reset 0x11000 .w8 = some (.busError 0x11000 .w8) := by decide +kernel

/-- V-BUS-5, V-BUS-6: a word written is read back byte by byte, little-endian. -/
theorem test_bus_little_endian :
    (match memWrite State.reset 0x10000 .w32 0x74736574#32 with
      | .next t => [readValue t 0x10000 .w8, readValue t 0x10001 .w8, readValue t 0x10003 .w8, readValue t 0x10002 .w16]
      | _ => []) = [some 0x74#32, some 0x65#32, some 0x74#32, some 0x7473#32] := by decide +kernel

/-- V-CTL-4, V-CTL-9: write-one-to-clear, and IRQEN's three bits. -/
theorem test_status_and_irqen :
    (match memWrite { State.reset with status := { busy := false, done := true, err := false, werr := true, errcode := 0#4 } }
        0x004 .w32 0xFFFFFFFF#32 with
      | .next t => readValue t 0x004 .w32
      | _ => none) = some 0#32 ∧
    (match memWrite State.reset 0x020 .w32 0xFFFFFFFF#32 with
      | .next t => readValue t 0x020 .w32
      | _ => none) = some 7#32 := by decide +kernel

/-- V-CTL-11: a write to ROUNDS while BUSY = 1. -/
theorem test_dropped_write :
    (match memWrite (State.reset.acceptCommand 0#32) 0x008 .w32 5#32 with
      | .next t => some (t.rounds, t.status.word)
      | _ => none) = some (64#32, 0x00000009#32) := by decide +kernel

/-! Witnesses: for each statement with hypotheses, states and operands that meet all of them, a pair for each clause and
at the ends of its range. -/

/-- A machine whose next turn is the host's, at the first statement of `p`. -/
def hosting (p : List HostStmt) (s : State) : State := { s with prog := p, sched := [.host] }

/-- The state in which the first statement's access is performed. -/
def hosted (p : List HostStmt) (s : State) : State := { s with prog := p, sched := [], hpc := 1 }

theorem hosting_accesses (st : HostStmt) (a : BusAccess) (s : State) (h0 : s.hpc = 0)
    (ha : stmtAccess s.cfg st = some a) : HostAccesses (hosting [st] s) a (hosted [st] s) :=
  ⟨{ s with prog := [st], sched := [] }, st, rfl, by simp [h0], ha, by simp [hosted, h0]⟩

/-- Commands pending: NOP, an illegal word, CRYPT.FB.ENC. -/
def pending (w : Word) : State := (loaded keyOne 2#32 (zeros 8)).acceptCommand w

theorem idle_inv : (loaded keyOne 2#32 (zeros 8)).Inv := by
  constructor <;> decide

theorem pending_inv : (pending 0x00000004#32).Inv := by
  constructor <;> decide

theorem witness_ListedIllegalWordsDecodeToNoCommand :
    (0x00000040#32 : Word).toNat / 2 ^ 6 ≠ 0 ∧ (0x80000000#32 : Word).toNat / 2 ^ 6 ≠ 0 ∧
    10 ≤ (0x0000000A#32 : Word).toNat % 16 ∧ 10 ≤ (0x0000000F#32 : Word).toNat % 16 ∧
    ((0x00000013#32 : Word).getLsbD 4 = true ∧ (0x00000013#32 : Word).toNat % 16 ≠ 4) ∧
    ((0x00000015#32 : Word).getLsbD 4 = true ∧ (0x00000015#32 : Word).toNat % 16 ≠ 4) ∧
    ∀ op ∈ [0, 1, 2, 5, 6, 9],
      (BitVec.ofNat 32 (32 + op)).getLsbD 5 = true ∧ (BitVec.ofNat 32 (32 + op)).toNat % 16 ∈ [0, 1, 2, 5, 6, 9] := by
  decide

theorem witness_IllegalWordCompletesWithCodeSixOnly :
    (pending 0x00000040#32).nextTurn = (.engine, pending 0x00000040#32) ∧
    (pending 0x00000040#32).status.busy = true ∧ ∀ i : Instr, (pending 0x00000040#32).cmdLatch ≠ encode i :=
  ⟨rfl, rfl, fun i => by cases i <;> decide⟩

theorem witness_EngineStepRunsTheDecodedCommand :
    ((pending 0x00000004#32).status.busy = true ∧ decode (pending 0x00000004#32).cmdLatch = .ok .cryptFbEnc ∧
      Instr.cryptFbEnc ≠ .sreset ∧ (pending 0x00000004#32).sched = [] ∧
      ({ pending 0x00000004#32 with sched := [.engine, .host] } : State).sched = .engine :: [.host]) ∧
    (pending 0x00000009#32).status.busy = true ∧ decode (pending 0x00000009#32).cmdLatch = .ok .sreset ∧
      (pending 0x00000009#32).sched = [] ∧
      ({ pending 0x00000009#32 with sched := [.engine] } : State).sched = .engine :: [] := by
  decide

theorem witness_HostStepPerformsItsStatementsAccess :
    HostAccesses (hosting [.wrb 3 0x41#8] State.reset) (.write 0x10003 .w8 0x41#32)
      (hosted [.wrb 3 0x41#8] State.reset) :=
  hosting_accesses _ _ _ rfl rfl

theorem witness_HostBranchFollowsBitOfScratch :
    (hosting [.bbs 2 7, .label 7] { State.reset with scratch := 4#32 }).nextTurn.1 = .host ∧
    (hosting [.bbs 2 7, .label 7] { State.reset with scratch := 4#32 }).prog[0]? = some (.bbs 2 7) ∧
    (hosting [.bbs 2 7, .label 7] { State.reset with scratch := 4#32 }).prog[1]? = some (.label 7) ∧
    (4#32 : Word).getLsbD 2 = true ∧ (4#32 : Word).getLsbD 31 = false ∧
    ∀ j, ([.bbs 2 7, .label 7] : List HostStmt)[j]? = some (.label 7) → j = 1 := by
  refine ⟨rfl, rfl, rfl, by decide, by decide, fun j hj => ?_⟩
  match j, hj with
  | 0, hj => simp at hj
  | 1, _ => rfl
  | j + 2, hj => simp at hj

theorem witness_ResetStateMeetsTheInvariant :
    Config.valid { bufCap := 16, base := 0 } = true ∧ Config.valid { bufCap := 2 ^ 24, base := 2 ^ 25 } = true := by
  decide

theorem witness_EveryStepKeepsTheInvariant :
    (pending 0x00000004#32).Inv ∧ ∃ t, step (pending 0x00000004#32) = .next t :=
  ⟨pending_inv, _, rfl⟩

theorem witness_SresetWriteResetsInItsOwnStep :
    HostAccesses (hosting [.wr .cmd 9#32] (pending 4#32)) (.write (pending 4#32).cfg.base .w32 0x00000009#32)
      (hosted [.wr .cmd 9#32] (pending 4#32)) :=
  hosting_accesses _ _ _ rfl rfl

theorem witness_CmdWriteIssuesResetsOrIsDropped :
    (0x00000004#32 : Word) ≠ 0x00000009#32 ∧ State.reset.status.busy = false ∧
    (pending 0x00000004#32).status.busy = true := by
  decide

/-- STATUS with DONE and WERR set, IRQEN with DONE_IE: the write of 0x2 clears what is pending and enabled. -/
theorem witness_IrqFollowsStatusAndEnables :
    ∀ b < 3, (doneStatus { Status.reset with werr := true }).word.getLsbD (b + 1) = true →
      (IrqEnable.ofWord 1#32).word.getLsbD b = true → (0x2#32 : Word).getLsbD (b + 1) = true := by
  decide

theorem witness_CapAndIdAreConstants : ∃ t, step (pending 0x00000004#32) = .next t := ⟨_, rfl⟩

theorem witness_IdleRegisterWritesStoreAllBits : State.reset.status.busy = false := rfl

theorem witness_IdleBufferAccessIsLittleEndian :
    (loaded keyOne 2#32 (zeros 8)).Inv ∧ (loaded keyOne 2#32 (zeros 8)).status.busy = false ∧
    (∀ w ∈ [Width.w8, .w16, .w32], 0 % widthBytes w = 0 ∧ 0 + widthBytes w ≤ (loaded keyOne 2#32 (zeros 8)).cfg.bufCap) ∧
    ∀ w ∈ [Width.w8, .w16, .w32],
      (4096 - widthBytes w) % widthBytes w = 0 ∧
        4096 - widthBytes w + widthBytes w ≤ (loaded keyOne 2#32 (zeros 8)).cfg.bufCap :=
  ⟨idle_inv, rfl, by decide, by decide⟩

theorem witness_RefusedAccessesFaultWithBusError :
    (0x004 < 0x2C ∧ (Width.w16 ≠ .w32 ∨ 0x004 % 4 ≠ 0)) ∧ (0x02B < 0x2C ∧ (Width.w32 ≠ .w32 ∨ 0x02B % 4 ≠ 0)) ∧
    (0x2C ≤ 0x2C ∧ 0x2C < 0x10000) ∧ (0x2C ≤ 0xFFFF ∧ 0xFFFF < 0x10000) ∧
    (0x10000 ≤ 0x10001 ∧ (0x10001 - 0x10000) % widthBytes .w16 ≠ 0) ∧
    (0x10000 ≤ 0x11000 ∧ State.reset.cfg.bufCap < 0x11000 - 0x10000 + widthBytes .w8) ∧
    (0x10000 ≤ 2 ^ 25 - 1 ∧ 2 ^ 25 - 1 < 2 ^ 25 ∧ State.reset.cfg.bufCap < 2 ^ 25 - 1 - 0x10000 + widthBytes .w8) := by
  decide

theorem witness_LegalAccessesComplete :
    State.reset.cfg.valid = true ∧ (0x000 < 0x2C ∧ Width.w32 = .w32 ∧ 0x000 % 4 = 0) ∧ (0x028 < 0x2C ∧ 0x028 % 4 = 0) ∧
    (0x10000 ≤ 0x10000 ∧ (0x10000 - 0x10000) % widthBytes .w32 = 0 ∧
      0x10000 - 0x10000 + widthBytes .w32 ≤ State.reset.cfg.bufCap) ∧
    (0x10000 ≤ 0x10FFF ∧ (0x10FFF - 0x10000) % widthBytes .w8 = 0 ∧
      0x10FFF - 0x10000 + widthBytes .w8 ≤ State.reset.cfg.bufCap) := by
  decide

theorem witness_BusyWritesAreDroppedWithWerr :
    (pending 4#32).cfg.valid = true ∧ (pending 4#32).status.busy = true ∧
    (lockedForWrite 0x000 ∧ (0x00000004#32 : Word) ≠ 0x00000009#32) ∧ lockedForWrite 0x01C ∧
    (lockedForWrite 0x10FFF ∧ (0x10FFF - 0x10000) % widthBytes .w8 = 0 ∧
      0x10FFF - 0x10000 + widthBytes .w8 ≤ (pending 4#32).cfg.bufCap) := by
  unfold lockedForWrite; decide

theorem witness_BusyReadsAreDraws :
    (pending 4#32).cfg.valid = true ∧ (pending 4#32).status.busy = true ∧ lockedForRead 0x00C ∧ lockedForRead 0x01C ∧
    (lockedForRead 0x10000 ∧ (0x10000 - 0x10000) % widthBytes .w32 = 0 ∧
      0x10000 - 0x10000 + widthBytes .w32 ≤ (pending 4#32).cfg.bufCap) := by
  unfold lockedForRead; decide

theorem witness_HostStepsKeepPendingInputs :
    ∃ s0 t, (hosting [.wr .key0 1#32] (pending 4#32)).nextTurn = (.host, s0) ∧
      (hosting [.wr .key0 1#32] (pending 4#32)).status.busy = true ∧
      step (hosting [.wr .key0 1#32] (pending 4#32)) = .next t :=
  ⟨_, _, rfl, rfl, rfl⟩

/-- CRYPT.FB.ENC is pending and the host waits for BUSY = 0: label, read of STATUS, branch on bit 0. -/
def waiting : State :=
  { pending 4#32 with prog := [.label 1, .rd .status, .bbs 0 1], sched := [.host, .host, .host, .host] }

theorem witness_PendingCommandCompletesWithinItsSchedule :
    waiting.status.busy = true ∧ waiting.cmdLatch ≠ 0x00000009#32 ∧ Turn.rst ∉ waiting.sched ∧
    (∀ st ∈ waiting.prog, ∀ a, stmtAccess waiting.cfg st = some a →
      a ≠ .write waiting.cfg.base .w32 0x00000009#32 ∧ ∃ t, hostAccess waiting a = .next t) ∧
    ∀ k l, HostStmt.bbs k l ∈ waiting.prog → HostStmt.label l ∈ waiting.prog := by
  refine ⟨rfl, by decide, by decide, fun st hs a ha => ?_, fun k l h => ?_⟩
  · rcases (by simpa [waiting] using hs : st = .label 1 ∨ st = .rd .status ∨ st = .bbs 0 1) with rfl | rfl | rfl
    · cases ha
    · obtain rfl : BusAccess.read (regAddr waiting.cfg .status) .w32 = a := by simpa [stmtAccess] using ha
      exact ⟨by simp, _, rfl⟩
    · cases ha
  · simp [waiting] at h ⊢; exact h.2

theorem witness_ObligedHostLosesNoWriteAndReadsNoDraw :
    ∃ t, (hosting [.rd .status] (pending 4#32)).Inv ∧
      HostAccesses (hosting [.rd .status] (pending 4#32)) (.read 0x004 .w32) (hosted [.rd .status] (pending 4#32)) ∧
      keepsObligation (hosted [.rd .status] (pending 4#32)) (.read 0x004 .w32) ∧
      step (hosting [.rd .status] (pending 4#32)) = .next t ∧
      (hosting [.rd .status] (pending 4#32)).status.werr = false :=
  ⟨_, by constructor <;> decide, hosting_accesses _ _ _ rfl rfl, fun _ => by unfold lockedForRead; decide, rfl, rfl⟩

theorem witness_WerrClearsOnlyByHostClearOrReset :
    ∃ s t : State, s.Inv ∧ step s = .next t ∧ s.status.werr = true ∧ t.status.werr = false :=
  ⟨hosting [.wr .status 8#32] (pending 4#32).dropWrite, _, by constructor <;> decide, rfl, rfl, rfl⟩

theorem witness_KeyChangesOnlyByItsWriters :
    ∃ s t : State, s.Inv ∧ step s = .next t ∧ t.key ≠ s.key :=
  ⟨pending 1#32, _, by constructor <;> decide, rfl, by decide⟩

theorem witness_CommandsWriteOnlyTheirOutputs : Instr.nop ≠ .sreset ∧ Instr.cryptVbDec ≠ .sreset := by decide

theorem witness_EachCommandReportsItsFirstError :
    expectedError .cryptVbEnc (loaded keyOne 2#32 (zeros 4)) = some .invalidBlockLength ∧
    expectedError .cryptVbEnc (loaded keyOne 2#32 (zeros 5)) = some .invalidBufferLength ∧
    expectedError .cryptVbEnc (loaded keyOne 2#32 (zeros 8)) = none ∧
    expectedError .encryptVb (loaded keyOne 2#32 (zeros 4)) = some .invalidBlockLength ∧
    expectedError .encryptVb (loaded keyOne 2#32 (zeros 5)) = none ∧
    expectedError .decryptVb (loaded keyOne 2#32 [0x2B#8]) = some .decodeError ∧
    expectedError .keytake (loaded keyOne 2#32 (zeros 15)) = some .missingKeyMaterial ∧
    expectedError .b64enc (withLen State.reset 4097#32) = some .inputTooLarge := by
  decide +kernel

theorem witness_SuccessfulDataCommandsZeroTheTail :
    (loaded keyOne 2#32 (zeros 8)).Inv ∧ Instr.padFb ≠ .nop ∧ Instr.padFb ≠ .keypack ∧ Instr.padFb ≠ .sreset ∧
    expectedError .padFb (loaded keyOne 2#32 (zeros 8)) = none :=
  ⟨idle_inv, by decide, by decide, by decide, by decide⟩

theorem witness_KeypackPacksTheFirstSixteenBytes :
    (withLen State.reset 4097#32).cfg.bufCap < (withLen State.reset 4097#32).len.toNat ∧
    (withLen State.reset 4096#32).len.toNat ≤ (withLen State.reset 4096#32).cfg.bufCap := by
  decide

theorem witness_KeytakeTakesSixteenBytesFromTheFront :
    (withLen State.reset 4097#32).cfg.bufCap < (withLen State.reset 4097#32).len.toNat ∧
    (withLen State.reset 15#32).len.toNat ≤ State.reset.cfg.bufCap ∧ (withLen State.reset 15#32).len.toNat < 16 ∧
    (withLen State.reset 16#32).len.toNat ≤ State.reset.cfg.bufCap ∧ 16 ≤ (withLen State.reset 16#32).len.toNat ∧
    16 ≤ (withLen State.reset 4096#32).len.toNat := by
  decide

theorem witness_KeypackDependsOnlyOnZeroFilledBytes :
    (loaded KeyFile.reset 2#32 [1#8]).len.toNat ≤ State.reset.cfg.bufCap ∧
    (loaded KeyFile.reset 2#32 [1#8, 0#8]).len.toNat ≤ State.reset.cfg.bufCap ∧
    ∀ i < 16, (if i < (loaded KeyFile.reset 2#32 [1#8]).len.toNat then (loaded KeyFile.reset 2#32 [1#8]).buf.read i else 0x00#8) =
      (if i < (loaded KeyFile.reset 2#32 [1#8, 0#8]).len.toNat then (loaded KeyFile.reset 2#32 [1#8, 0#8]).buf.read i
        else 0x00#8) := by
  decide

theorem witness_B64encSpellsTheBitStream :
    State.reset.cfg.valid = true ∧ State.reset.cfg.bufCap < (withLen State.reset 4097#32).len.toNat ∧
    State.reset.cfg.bufCap < (8 * (withLen State.reset 3073#32).len.toNat + 5) / 6 ∧
    (8 * (withLen State.reset 3072#32).len.toNat + 5) / 6 ≤ State.reset.cfg.bufCap ∧
    (withLen State.reset 3072#32).len.toNat ≤ State.reset.cfg.bufCap := by
  decide

theorem witness_B64decReadsTheSymbolStream :
    State.reset.cfg.bufCap < (withLen State.reset 4097#32).len.toNat ∧
    ((loaded keyOne 2#32 [0x2B#8]).len.toNat ≤ State.reset.cfg.bufCap ∧
      ∃ i < (loaded keyOne 2#32 [0x2B#8]).len.toNat, ¬isSymbol ((loaded keyOne 2#32 [0x2B#8]).buf.read i)) ∧
    ∀ i < (loaded keyOne 2#32 [0x42#8]).len.toNat, (loaded keyOne 2#32 [0x42#8]).buf.read i = symOf 1#6 := by
  refine ⟨by decide, ⟨by decide, 0, by decide, ?_⟩, by decide⟩
  unfold isSymbol
  decide

theorem witness_B64RoundTripRestoresTheBuffer :
    State.reset.cfg.valid = true ∧ (withLen State.reset 3072#32).len.toNat ≤ State.reset.cfg.bufCap ∧
    (8 * (withLen State.reset 3072#32).len.toNat + 5) / 6 ≤ State.reset.cfg.bufCap := by
  decide

theorem witness_CryptFbTransformsEachBlockAlone :
    State.reset.cfg.bufCap < (withLen State.reset 4097#32).len.toNat ∧
    ((withLen State.reset 4092#32).len.toNat ≤ State.reset.cfg.bufCap ∧ (withLen State.reset 4092#32).len.toNat % 8 ≠ 0) ∧
    ((withLen State.reset 4096#32).len.toNat ≤ State.reset.cfg.bufCap ∧ (withLen State.reset 4096#32).len.toNat % 8 = 0) ∧
    ((Instr.cryptFbEnc = .cryptFbEnc ∧ fbEncrypt = fbEncrypt) ∨ (Instr.cryptFbEnc = .cryptFbDec ∧ fbEncrypt = fbDecrypt)) :=
  ⟨by decide, by decide, by decide, .inl ⟨rfl, rfl⟩⟩

theorem witness_FixedBlockDecryptionInvertsEncryption :
    (withLen State.reset 4096#32).len.toNat ≤ State.reset.cfg.bufCap ∧ (withLen State.reset 4096#32).len.toNat % 8 = 0 ∧
    State.reset.len.toNat % 8 = 0 := by
  decide

theorem witness_VariableBlockEncryptionIsTheStatedRecurrence :
    2 = ([1#32, 2#32] : List Word).length ∧ 2 ≤ 2 ∧ 53 = (List.replicate 53 0#32 : List Word).length ∧ 2 ≤ 53 := by
  decide

theorem witness_VariableBlockDecryptionIsTheStatedRecurrence :
    3 = ([1#32, 2#32, 3#32] : List Word).length ∧ 2 ≤ 3 := by decide

theorem witness_CryptVbTransformsTheWholeBuffer :
    State.reset.cfg.bufCap < (withLen State.reset 4097#32).len.toNat ∧
    ((withLen State.reset 2#32).len.toNat ≤ State.reset.cfg.bufCap ∧ (withLen State.reset 2#32).len.toNat % 4 ≠ 0) ∧
    ((withLen State.reset 4#32).len.toNat ≤ State.reset.cfg.bufCap ∧ (withLen State.reset 4#32).len.toNat = 4) ∧
    State.reset.len.toNat = 0 ∧
    ((withLen State.reset 8#32).len.toNat ≤ State.reset.cfg.bufCap ∧ (withLen State.reset 8#32).len.toNat % 4 = 0 ∧
      8 ≤ (withLen State.reset 8#32).len.toNat) ∧
    ((Instr.cryptVbDec = .cryptVbEnc ∧ vbDecrypt = vbEncrypt) ∨ (Instr.cryptVbDec = .cryptVbDec ∧ vbDecrypt = vbDecrypt)) :=
  ⟨by decide, by decide, by decide, by decide, by decide, .inr ⟨rfl, rfl⟩⟩

theorem witness_VariableBlockDecryptionInvertsEncryption : 2 ≤ ([1#32, 2#32] : List Word).length := by decide

theorem witness_VariableBlockCommandsIgnoreRounds :
    Instr.cryptVbEnc ∈ [Instr.cryptVbEnc, .cryptVbDec, .encryptVb, .decryptVb] := by decide

theorem witness_PadExtendsToTheNextMultiple :
    State.reset.cfg.valid = true ∧ State.reset.cfg.bufCap < (withLen State.reset 4097#32).len.toNat ∧
    (withLen State.reset 4095#32).len.toNat ≤ State.reset.cfg.bufCap ∧
    ((Instr.padVb = .padFb ∧ 4 = 8) ∨ (Instr.padVb = .padVb ∧ 4 = 4)) := by
  decide

theorem witness_EncryptFbIsPadCryptEncode :
    State.reset.cfg.valid = true ∧ State.reset.cfg.bufCap < (withLen State.reset 4097#32).len.toNat ∧
    State.reset.cfg.bufCap < (8 * (8 * (((withLen State.reset 3073#32).len.toNat + 7) / 8)) + 5) / 6 ∧
    (withLen State.reset 3072#32).len.toNat ≤ State.reset.cfg.bufCap ∧
    (8 * (8 * (((withLen State.reset 3072#32).len.toNat + 7) / 8)) + 5) / 6 ≤ State.reset.cfg.bufCap := by
  decide

theorem witness_EncryptVbIsPadCryptEncode :
    State.reset.cfg.valid = true ∧ State.reset.len.toNat = 0 ∧
    State.reset.cfg.bufCap < (withLen State.reset 4097#32).len.toNat ∧
    (1 ≤ (withLen State.reset 1#32).len.toNat ∧ (withLen State.reset 4#32).len.toNat ≤ 4) ∧
    (5 ≤ (withLen State.reset 3073#32).len.toNat ∧
      State.reset.cfg.bufCap < (8 * (4 * (((withLen State.reset 3073#32).len.toNat + 3) / 4)) + 5) / 6) ∧
    5 ≤ (withLen State.reset 5#32).len.toNat ∧
    (withLen State.reset 5#32).len.toNat ≤ State.reset.cfg.bufCap ∧
    (8 * (4 * (((withLen State.reset 5#32).len.toNat + 3) / 4)) + 5) / 6 ≤ State.reset.cfg.bufCap := by
  decide

/-- A text of `n` symbols A. -/
def textOfA (n : Nat) : State := loaded keyOne 2#32 (List.replicate n 0x41#8)

theorem textOfA_symbols {n : Nat} (h : n < 2 ^ 32) : ∀ i < (textOfA n).len.toNat, isSymbol ((textOfA n).buf.read i) := by
  intro i hi
  have hm : i < n % 4294967296 := by simpa [textOfA, loaded] using hi
  have hi : i < n := by omega
  refine ⟨0#6, ?_⟩
  simp [textOfA, loaded, hi]
  decide

/-- The byte + is no symbol. -/
theorem plus_no_symbol : ∃ i < (loaded keyOne 2#32 [0x2B#8]).len.toNat, ¬isSymbol ((loaded keyOne 2#32 [0x2B#8]).buf.read i) :=
  ⟨0, by decide, by unfold isSymbol; decide⟩

/-- Eleven symbols decode to 8 bytes, seven to 5. -/
theorem witness_DecryptFbIsDecodeCrypt :
    State.reset.cfg.bufCap < (withLen State.reset 4097#32).len.toNat ∧
    (∃ i < (loaded keyOne 2#32 [0x2B#8]).len.toNat, ¬isSymbol ((loaded keyOne 2#32 [0x2B#8]).buf.read i)) ∧
    ((textOfA 7).len.toNat ≤ (textOfA 7).cfg.bufCap ∧
      (∀ i < (textOfA 7).len.toNat, isSymbol ((textOfA 7).buf.read i)) ∧ 6 * (textOfA 7).len.toNat / 8 % 8 ≠ 0) ∧
    ((textOfA 11).len.toNat ≤ (textOfA 11).cfg.bufCap ∧
      (∀ i < (textOfA 11).len.toNat, isSymbol ((textOfA 11).buf.read i)) ∧ 6 * (textOfA 11).len.toNat / 8 % 8 = 0) :=
  ⟨by decide, plus_no_symbol, ⟨by decide, textOfA_symbols (by decide), by decide⟩, by decide,
    textOfA_symbols (by decide), by decide⟩

/-- One symbol decodes to no byte, three to 2, six to 4, eleven to 8. -/
theorem witness_DecryptVbIsDecodeCrypt :
    State.reset.cfg.bufCap < (withLen State.reset 4097#32).len.toNat ∧
    (∃ i < (loaded keyOne 2#32 [0x2B#8]).len.toNat, ¬isSymbol ((loaded keyOne 2#32 [0x2B#8]).buf.read i)) ∧
    (∀ n ∈ [1, 3, 6, 11], (textOfA n).len.toNat ≤ (textOfA n).cfg.bufCap) ∧
    (∀ n ∈ [1, 3, 6, 11], ∀ i < (textOfA n).len.toNat, isSymbol ((textOfA n).buf.read i)) ∧
    6 * (textOfA 1).len.toNat / 8 = 0 ∧ 6 * (textOfA 3).len.toNat / 8 % 4 ≠ 0 ∧ 6 * (textOfA 6).len.toNat / 8 = 4 ∧
    (6 * (textOfA 11).len.toNat / 8 % 4 = 0 ∧ 8 ≤ 6 * (textOfA 11).len.toNat / 8) := by
  refine ⟨by decide, plus_no_symbol, by decide, fun n hn => textOfA_symbols ?_, by decide, by decide, by decide,
    by decide⟩
  simp only [List.mem_cons, List.not_mem_nil, or_false] at hn
  omega

theorem witness_PipelineRoundTripLeavesThePaddedPlaintext :
    State.reset.cfg.valid = true ∧ (withLen State.reset 5#32).len.toNat ≤ State.reset.cfg.bufCap ∧
    ((Instr.encryptFb = .encryptFb ∧ Instr.decryptFb = .decryptFb ∧ 8 = 8) ∨
      (Instr.encryptFb = .encryptVb ∧ Instr.decryptFb = .decryptVb ∧ 8 = 4 ∧
        ((withLen State.reset 5#32).len.toNat = 0 ∨ 5 ≤ (withLen State.reset 5#32).len.toNat))) ∧
    ((Instr.encryptVb = .encryptFb ∧ Instr.decryptVb = .decryptFb ∧ 4 = 8) ∨
      (Instr.encryptVb = .encryptVb ∧ Instr.decryptVb = .decryptVb ∧ 4 = 4 ∧
        ((withLen State.reset 5#32).len.toNat = 0 ∨ 5 ≤ (withLen State.reset 5#32).len.toNat))) ∧
    (∀ u ∈ [4, 8],
      (8 * (u * (((withLen State.reset 5#32).len.toNat + (u - 1)) / u)) + 5) / 6 ≤ State.reset.cfg.bufCap) := by
  decide

theorem witness_DataCommandsReadOnlyTheFirstLenBytes :
    Instr.b64enc ≠ .nop ∧ Instr.b64enc ≠ .keypack ∧ Instr.b64enc ≠ .sreset ∧
    (∀ j < (withLen (loaded keyOne 2#32 [1#8, 2#8]) 1#32).len.toNat,
      Memory.read [(0, 1#8), (1, 9#8)] j = (withLen (loaded keyOne 2#32 [1#8, 2#8]) 1#32).buf.read j) := by
  decide

theorem witness_TurnsWithoutAnAccessKeepTheBlock :
    (waiting.nextTurn.1 = .host ∧ waiting.prog[waiting.hpc]? = some (.label 1)) ∧
    (State.reset.nextTurn.1 = .host ∧ State.reset.prog[State.reset.hpc]? = none) ∧
    (({ State.reset with sched := [.engine] } : State).nextTurn.1 = .engine ∧
      ({ State.reset with sched := [.engine] } : State).status.busy = false) :=
  ⟨⟨rfl, rfl⟩, ⟨rfl, rfl⟩, rfl, rfl⟩

theorem witness_PendingCommandEndsByCompletionResetOrStop :
    waiting.status.busy = true ∧ waiting.cmdLatch ≠ 0x00000009#32 ∧ (pending 0x00000040#32).status.busy = true ∧
    (pending 0x00000040#32).cmdLatch ≠ 0x00000009#32 := by
  decide

end Sys2Proof.Tests
end

section
/-! SUPPORT. The rules that the proofs about the state share: what a completion leaves of each field, the word a decoded
command comes from, the host's turn as one access, and the value a register reads. -/

namespace Sys2Proof.Machine

open Sys2Proof

/-! What a completion leaves, field by field. -/

@[simp] theorem finishCommand_cfg (s : State) (r : CmdResult) : (s.finishCommand r).cfg = s.cfg := by
  obtain ⟨_ | _, _ | _⟩ := r <;> rfl

@[simp] theorem finishCommand_cmdLatch (s : State) (r : CmdResult) : (s.finishCommand r).cmdLatch = s.cmdLatch := by
  obtain ⟨_ | _, _ | _⟩ := r <;> rfl

@[simp] theorem finishCommand_status (s : State) (r : CmdResult) :
    (s.finishCommand r).status = s.status.succeeded := rfl

theorem finishCommand_key_of_none {s : State} {r : CmdResult} (h : r.key = none) : (s.finishCommand r).key = s.key := by
  obtain ⟨_, _ | _⟩ := r <;> cases h <;> rfl

theorem finishCommand_buf_of_none {s : State} {r : CmdResult} (h : r.data = none) :
    (s.finishCommand r).buf = s.buf := by
  obtain ⟨_ | _, _⟩ := r <;> cases h <;> rfl

theorem finishCommand_len_of_none {s : State} {r : CmdResult} (h : r.data = none) :
    (s.finishCommand r).len = s.len := by
  obtain ⟨_ | _, _⟩ := r <;> cases h <;> rfl

theorem finishCommand_buf_of_some {s : State} {r : CmdResult} {bs : List Byte} (h : r.data = some bs) :
    (s.finishCommand r).buf = Memory.ofBytes 0 bs := by
  obtain ⟨_ | _, _⟩ := r <;> cases h <;> rfl

theorem finishCommand_len_of_some {s : State} {r : CmdResult} {bs : List Byte} (h : r.data = some bs) :
    (s.finishCommand r).len = BitVec.ofNat 32 bs.length := by
  obtain ⟨_ | _, _⟩ := r <;> cases h <;> rfl

theorem exec_sreset (s : State) : exec .sreset s = .next s.blockReset := rfl

/-- No command changes the parameters. -/
theorem exec_cfg {i : Instr} {s t : State} (h : exec i s = .next t) : t.cfg = s.cfg := by
  by_cases hi : i = .sreset
  · subst hi
    cases h
    rfl
  · obtain ⟨r, hr⟩ := exec_complete i hi s
    rw [hr] at h
    cases h
    rw [complete_frame]

/-! The word of a decoded command. -/

/-- A word is its four fields, RSV above VAR above DIR above OP (spec/30_encoding.md R100). -/
theorem word_eq_fields (w : Word) :
    w = rsvField w ++ BitVec.ofBool (varField w) ++ BitVec.ofBool (dirField w) ++ opField w := by
  apply BitVec.eq_of_getLsbD_eq
  intro i hi
  simp only [BitVec.getLsbD_append, rsvField, varField, dirField, opField, BitVec.getLsbD_extractLsb',
    BitVec.getLsbD_ofBool]
  by_cases h4 : i < 4
  · simp [h4]
  · by_cases h5 : i = 4
    · simp [h5]
    · by_cases h6 : i = 5
      · simp [h6]
      · simp [h4, show ¬(i - 4 < 1) by omega, show ¬(i - 4 - 1 < 1) by omega, show i - 4 - 1 - 1 < 26 by omega,
          show 6 + (i - 4 - 1 - 1) = i by omega]

/-- Each row's fields spell the word of the row's command (spec/30_encoding.md R102). -/
theorem encodeFields_of_decodeFields {op : BitVec 4} {dir var : Bool} {i : Instr}
    (h : decodeFields op.toNat dir var = .ok i) : encodeFields op dir var = encode i := by
  have table : ∀ (op : BitVec 4) (dir var : Bool),
      (decodeFields op.toNat dir var).toOption.all (fun i => decide (encodeFields op dir var = encode i)) = true := by
    decide
  simpa [h, Except.toOption] using table op dir var

/-- A word that decodes to a command is that command's word. -/
theorem eq_encode_of_decode {w : Word} {i : Instr} (h : decode w = .ok i) : w = encode i := by
  unfold decode at h
  split at h
  · rename_i hrsv
    calc w = rsvField w ++ BitVec.ofBool (varField w) ++ BitVec.ofBool (dirField w) ++ opField w := word_eq_fields w
      _ = encodeFields (opField w) (dirField w) (varField w) := by rw [hrsv]; rfl
      _ = encode i := encodeFields_of_decodeFields h
  · cases h

/-- The engine's step on a pending command is that command's completion (spec/10_state.md R45). -/
theorem engineStep_of_decode {s : State} {i : Instr} (hb : s.status.busy = true) (hd : decode s.cmdLatch = .ok i) :
    engineStep s = exec i s := by
  simp [engineStep, hb, State.fetchCommand, hd]

/-- The engine's step on a pending word that is no command (spec/30_encoding.md R103). -/
theorem engineStep_of_illegal {s : State} {e : IllegalWord} (hb : s.status.busy = true)
    (hd : decode s.cmdLatch = .error e) : engineStep s = .next (s.complete (.error .illegalCommand)) := by
  simp [engineStep, hb, State.fetchCommand, hd, completeIllegal]

/-- The engine has no step while idle. -/
theorem engineStep_of_idle {s : State} (hb : s.status.busy = false) : engineStep s = .next s := by
  simp [engineStep, hb]

/-! The turn and the host's access. -/

/-- Taking a turn drops it from the schedule. -/
theorem nextTurn_eq (s : State) : s.nextTurn.2 = { s with sched := s.sched.tail } := by
  unfold State.nextTurn
  split
  · rename_i h
    rw [h, List.tail_nil, ← h]
  · rename_i h
    rw [h, List.tail_cons]

theorem eq_of_nextTurn {s s0 : State} {a : Turn} (h : s.nextTurn = (a, s0)) :
    s0 = { s with sched := s.sched.tail } := by
  rw [← nextTurn_eq, h]

/-- The state after the turn is taken, where only the agent is named. -/
theorem nextTurn_of_fst {s : State} {a : Turn} (h : s.nextTurn.1 = a) :
    s.nextTurn = (a, { s with sched := s.sched.tail }) := Prod.ext h (nextTurn_eq s)

/-- A host whose statement has a bus access makes it. -/
theorem hostStep_of_access {s : State} {st : HostStmt} {a : BusAccess} (hst : s.prog[s.hpc]? = some st)
    (ha : stmtAccess s.cfg st = some a) : hostStep s = hostAccess { s with hpc := s.hpc + 1 } a := by
  simp only [hostStep, hst]
  cases st with
  | label _ | bbs _ _ => cases ha
  | _ => simp only [hostStatement, ha]

/-- Where the next statement makes an access, the step is that access (spec/10_state.md R46). -/
theorem step_of_hostAccesses {s s1 : State} {a : BusAccess} (h : HostAccesses s a s1) : step s = hostAccess s1 a := by
  obtain ⟨s0, st, hturn, hst, ha, rfl⟩ := h
  rw [step_of_host hturn, hostStep_of_access hst ha]

/-- A host's turn moves its place in the program alone, or is one bus access. -/
theorem step_host_cases {s s0 t : State} (hturn : s.nextTurn = (.host, s0)) (h : step s = .next t) :
    (∃ n, t = { s0 with hpc := n }) ∨ ∃ a s1, HostAccesses s a s1 ∧ s1 = { s0 with hpc := s0.hpc + 1 } ∧
      hostAccess s1 a = .next t := by
  rw [step_of_host hturn] at h
  rcases hostStep_cases h with ⟨_, rfl⟩ | hmoved | ⟨st, a, hst, ha, hacc⟩
  · exact .inl ⟨t.hpc, rfl⟩
  · exact .inl hmoved
  · exact .inr ⟨a, _, ⟨s0, st, hturn, hst, ha, rfl⟩, rfl, hacc⟩

/-- The host address and width of an access that reaches a register. -/
theorem access_of_busTarget_reg {c : Config} {addr : Nat} {w : Width} {r : Reg} (hbase : c.base ≤ addr)
    (h : busTarget c (addr - c.base) w = some (.reg r)) : addr = c.base + regOffset r ∧ w = .w32 := by
  rcases busTarget_cases h with ⟨r', hr, hoff, hw⟩ | ⟨i, hi, _⟩
  · cases hr
    exact ⟨by omega, hw⟩
  · cases hi

/-- A read changes the count of draws at most. -/
theorem readTarget_frame (s : State) (w : Width) (g : Target) :
    ∃ n, (readTarget s w g).2 = { s with drawCount := n } := by
  rcases readTarget_cases s w g with h | ⟨_, h⟩
  · exact ⟨s.drawCount, h⟩
  · exact ⟨_, h⟩

/-! Reads of registers. -/

/-- A register that is not drawn reads its value and changes nothing but t, at any BUSY value. -/
theorem memRead_reg_of_not_drawn (s : State) {r : Reg} (h : drawnWhileBusy r = false) :
    memRead s (regOffset r) .w32 = .next { s with scratch := regValue s r } := by
  simp [memRead_reg, readTarget, h]

/-- While idle every register reads its value. -/
theorem memRead_reg_of_idle {s : State} (h : s.status.busy = false) (r : Reg) :
    memRead s (regOffset r) .w32 = .next { s with scratch := regValue s r } := by
  simp [memRead_reg, readTarget, h]

end Sys2Proof.Machine
end

section
/-! SUPPORT. The invariant of every run (O9): STATUS keeps its rules under each of its updates, and each shared operation
keeps the whole. -/

namespace Sys2Proof.Machine

open Sys2Proof

/-- The part of the invariant that speaks of STATUS alone (spec/10_state.md R34, spec/60_exceptions.md R261). -/
structure Status.Lawful (st : Status) : Prop where
  not_done_and_err : ¬(st.done = true ∧ st.err = true)
  errcode_zero : st.err = false → st.errcode = 0#4
  errcode_named : st.err = true → 1 ≤ st.errcode.toNat ∧ st.errcode.toNat ≤ 6
  busy_clear : st.busy = true → st.done = false ∧ st.err = false

theorem State.Inv.lawful {s : State} (h : s.Inv) : s.status.Lawful :=
  ⟨h.not_done_and_err, h.errcode_zero, h.errcode_named, h.busy_clear⟩

theorem State.inv_iff (s : State) :
    s.Inv ↔ s.cfg.valid = true ∧ s.buf.wf ∧ s.buf.below s.cfg.bufCap ∧ s.status.Lawful ∧
      (s.status.busy = true → s.cmdLatch ≠ 0x00000009#32) :=
  ⟨fun h => ⟨h.cfg_valid, h.buf_wf, h.buf_below, h.lawful, h.pending_not_sreset⟩,
    fun ⟨hcfg, hwf, hbelow, hst, hlatch⟩ => ⟨hcfg, hwf, hbelow, hst.not_done_and_err, hst.errcode_zero,
      hst.errcode_named, hst.busy_clear, hlatch⟩⟩

theorem Status.lawful_reset : Status.reset.Lawful := by
  constructor <;> decide

theorem Status.lawful_accepted (st : Status) : st.accepted.Lawful := by
  constructor <;> simp

theorem Status.lawful_succeeded (st : Status) : st.succeeded.Lawful := by
  constructor <;> simp

/-- ERRCODE 7 to 15 never occur (spec/60_exceptions.md R261). -/
theorem CmdError.code_named (e : CmdError) : 1 ≤ e.code.toNat ∧ e.code.toNat ≤ 6 := by
  cases e <;> decide

theorem Status.lawful_failed (st : Status) (e : CmdError) : (st.failed e).Lawful where
  not_done_and_err := by simp
  errcode_zero := by simp
  errcode_named _ := e.code_named
  busy_clear := by simp

theorem Status.Lawful.dropped {st : Status} (h : st.Lawful) : st.dropped.Lawful :=
  ⟨h.not_done_and_err, h.errcode_zero, h.errcode_named, h.busy_clear⟩

/-- A W1C write keeps the rules of STATUS: ERR and ERRCODE clear together. -/
theorem Status.Lawful.writeOneToClear {st : Status} (h : st.Lawful) (x : Word) : (st.writeOneToClear x).Lawful where
  not_done_and_err := by
    have := h.not_done_and_err
    simp only [writeOneToClear_done, writeOneToClear_err, Bool.and_eq_true]
    tauto
  errcode_zero := by
    have := h.errcode_zero
    cases hx : x.getLsbD 2 <;> simp_all
  errcode_named := by
    have := h.errcode_named
    cases hx : x.getLsbD 2 <;> simp_all
  busy_clear hb := by
    obtain ⟨hdone, herr⟩ := h.busy_clear hb
    simp [hdone, herr]

/-- The invariant speaks of the parameters, BUF, STATUS and CMD_LATCH alone. -/
theorem State.Inv.congr {s t : State} (h : s.Inv) (hcfg : t.cfg = s.cfg) (hbuf : t.buf = s.buf)
    (hst : t.status = s.status) (hlatch : t.cmdLatch = s.cmdLatch) : t.Inv := by
  rw [inv_iff] at h ⊢
  rwa [hcfg, hbuf, hst, hlatch]

/-- Both resets bring the invariant back (spec/70_reset_and_hazards.md R291). -/
theorem State.inv_blockReset {s : State} (h : s.cfg.valid = true) : s.blockReset.Inv :=
  (inv_iff _).2 ⟨h, ⟨.nil, by simp⟩, by simp, Status.lawful_reset, by simp⟩

theorem State.Inv.dropWrite {s : State} (h : s.Inv) : s.dropWrite.Inv :=
  (inv_iff _).2 ⟨h.cfg_valid, h.buf_wf, h.buf_below, h.lawful.dropped, h.pending_not_sreset⟩

theorem State.Inv.acceptCommand {s : State} (h : s.Inv) {w : Word} (hw : w ≠ 0x00000009#32) : (s.acceptCommand w).Inv :=
  (inv_iff _).2 ⟨h.cfg_valid, h.buf_wf, h.buf_below, s.status.lawful_accepted, fun _ => hw⟩

theorem State.Inv.writeOneToClear {s : State} (h : s.Inv) (x : Word) :
    ({ s with status := s.status.writeOneToClear x } : State).Inv :=
  (inv_iff _).2 ⟨h.cfg_valid, h.buf_wf, h.buf_below, h.lawful.writeOneToClear x, h.pending_not_sreset⟩

/-- A legal write to BUF keeps it canonical and within BUF_CAP. -/
theorem State.Inv.writeBytes {s : State} (h : s.Inv) {i : Nat} {bs : List Byte} (hi : i + bs.length ≤ s.cfg.bufCap) :
    ({ s with buf := s.buf.writeBytes i bs } : State).Inv :=
  (inv_iff _).2 ⟨h.cfg_valid, Memory.wf_writeBytes h.buf_wf i bs, Memory.below_writeBytes h.buf_below i bs hi,
    h.lawful, h.pending_not_sreset⟩

theorem State.Inv.failCommand {s : State} (h : s.Inv) (e : CmdError) : (s.failCommand e).Inv :=
  (inv_iff _).2 ⟨h.cfg_valid, h.buf_wf, h.buf_below, s.status.lawful_failed e, by simp⟩

/-- A success keeps the invariant where the data it commits, if any, fit in BUF. -/
theorem State.Inv.finishCommand {s : State} (h : s.Inv) {r : CmdResult}
    (hr : r.data = none ∨ ∃ bs, r.data = some bs ∧ bs.length ≤ s.cfg.bufCap) : (s.finishCommand r).Inv := by
  refine (inv_iff _).2 ⟨?_, ?_, ?_, s.status.lawful_succeeded, by simp⟩
  · rw [finishCommand_cfg]
    exact h.cfg_valid
  all_goals rcases hr with hnone | ⟨bs, hsome, hfits⟩
  · rw [finishCommand_buf_of_none hnone]
    exact h.buf_wf
  · rw [finishCommand_buf_of_some hsome]
    exact Memory.wf_ofBytes 0 bs
  · rw [finishCommand_buf_of_none hnone, finishCommand_cfg]
    exact h.buf_below
  · rw [finishCommand_buf_of_some hsome, finishCommand_cfg]
    exact Memory.below_ofBytes hfits

/-- A legal host write keeps the invariant. -/
theorem State.Inv.writeTarget {s : State} (h : s.Inv) {off : Nat} {w : Width} {g : Target} (x : Word)
    (hg : busTarget s.cfg off w = some g) : (writeTarget s w x g).Inv := by
  rcases writeTarget_cases s w x g with
    ⟨_, _, e⟩ | ⟨_, e⟩ | ⟨_, hx, _, e⟩ | ⟨_, e⟩ | ⟨_, e⟩ | ⟨_, ⟨_, e⟩ | ⟨_, e⟩ | ⟨k, _, e⟩ | ⟨i, hi, e⟩⟩ | ⟨_, e⟩
  · exact e ▸ State.inv_blockReset h.cfg_valid
  · exact e ▸ h.dropWrite
  · exact e ▸ h.acceptCommand hx
  · exact e ▸ h.writeOneToClear x
  · exact e ▸ h.congr rfl rfl rfl rfl
  · exact e ▸ h.congr rfl rfl rfl rfl
  · exact e ▸ h.congr rfl rfl rfl rfl
  · exact e ▸ h.congr rfl rfl rfl rfl
  · rcases busTarget_cases hg with ⟨r, hr, _⟩ | ⟨i', hi', _, _, hcap⟩
    · simp [hi] at hr
    · obtain rfl : i = i' := by simpa [hi] using hi'
      refine e ▸ h.writeBytes (le_trans ?_ hcap)
      rw [List.length_take]
      omega
  · rw [e]
    exact h

theorem State.Inv.hostAccess {s t : State} (h : s.Inv) {a : BusAccess} (ha : hostAccess s a = .next t) : t.Inv := by
  rcases hostAccess_cases ha with ⟨addr, w, g, _, _, _, _, rfl⟩ | ⟨addr, w, x, g, _, _, _, hg, rfl⟩
  · obtain ⟨n, hn⟩ := readTarget_frame s w g
    rw [hn]
    exact h.congr rfl rfl rfl rfl
  · exact h.writeTarget x hg

theorem State.Inv.exec {s t : State} (h : s.Inv) {i : Instr} (hx : exec i s = .next t) : t.Inv := by
  by_cases hs : i = .sreset
  · subst hs
    cases hx
    exact State.inv_blockReset h.cfg_valid
  rcases exec_cases i s hs with ⟨e, he⟩ | ⟨r, hr, _, hnone, hsome⟩
  · cases he.symm.trans hx
    exact h.failCommand e
  · cases hr.symm.trans hx
    obtain ⟨h8, _⟩ := Config.valid_bounds h.cfg_valid
    by_cases hi : i = .nop ∨ i = .keypack
    · exact h.finishCommand (.inl (hnone hi))
    · obtain ⟨hn, hk⟩ := not_or.1 hi
      obtain ⟨bs, hbs, hfits, _⟩ := hsome hn hk
      exact h.finishCommand (.inr ⟨bs, hbs, hfits h8⟩)

theorem State.Inv.engineStep {s t : State} (h : s.Inv) (he : engineStep s = .next t) : t.Inv := by
  rcases engineStep_cases he with ⟨_, rfl⟩ | ⟨_, i, _, hx⟩ | ⟨_, e, _, rfl⟩
  · exact h
  · exact h.exec hx
  · exact h.failCommand _

/-- Settles O9: the turn taken, each of the three agents keeps the invariant. -/
theorem everyStepKeepsTheInvariant : Obligations.EveryStepKeepsTheInvariant := by
  unfold Obligations.EveryStepKeepsTheInvariant
  intro s t h hstep
  obtain ⟨s0, as, hs0, hcases⟩ := step_cases hstep
  have h0 : s0.Inv := h.congr (by rw [hs0]) (by rw [hs0]) (by rw [hs0]) (by rw [hs0])
  rcases hcases with ⟨_, rfl⟩ | ⟨hturn, _⟩ | ⟨_, hengine⟩
  · exact State.inv_blockReset h0.cfg_valid
  · rcases step_host_cases hturn hstep with ⟨n, rfl⟩ | ⟨a, s1, _, rfl, hacc⟩
    · exact h0.congr rfl rfl rfl rfl
    · exact State.Inv.hostAccess (s := { s0 with hpc := s0.hpc + 1 }) (h0.congr rfl rfl rfl rfl) hacc
  · exact h0.engineStep hengine

end Sys2Proof.Machine
end

section
/-! SUPPORT. What a command's completion writes (O29, O32), and which step changes the parameters or the key (O17,
O28). -/

namespace Sys2Proof.Machine

open Sys2Proof

/-! The parameters (O17). -/

theorem writeTarget_cfg (s : State) (w : Width) (x : Word) (g : Target) : (writeTarget s w x g).cfg = s.cfg := by
  rcases writeTarget_cases s w x g with
    ⟨_, _, e⟩ | ⟨_, e⟩ | ⟨_, _, _, e⟩ | ⟨_, e⟩ | ⟨_, e⟩ | ⟨_, ⟨_, e⟩ | ⟨_, e⟩ | ⟨_, _, e⟩ | ⟨_, _, e⟩⟩ | ⟨_, e⟩ <;>
    rw [e] <;> rfl

theorem hostAccess_cfg {s t : State} {a : BusAccess} (h : hostAccess s a = .next t) : t.cfg = s.cfg := by
  rcases hostAccess_cases h with ⟨_, w, g, _, _, _, _, rfl⟩ | ⟨_, w, x, g, _, _, _, _, rfl⟩
  · obtain ⟨n, hn⟩ := readTarget_frame s w g
    rw [hn]
  · exact writeTarget_cfg s w x g

theorem engineStep_cfg {s t : State} (h : engineStep s = .next t) : t.cfg = s.cfg := by
  rcases engineStep_cases h with ⟨_, rfl⟩ | ⟨_, i, _, hx⟩ | ⟨_, e, _, rfl⟩
  · rfl
  · exact exec_cfg hx
  · rfl

theorem step_cfg {s t : State} (h : step s = .next t) : t.cfg = s.cfg := by
  obtain ⟨s0, as, rfl, ⟨_, rfl⟩ | ⟨hturn, _⟩ | ⟨_, hengine⟩⟩ := step_cases h
  · rfl
  · rcases step_host_cases hturn h with ⟨n, rfl⟩ | ⟨a, s1, _, rfl, hacc⟩
    · rfl
    · exact (hostAccess_cfg hacc :)
  · exact (engineStep_cfg hengine :)

/-- Settles O17: the accesses reach CAP and ID at their offsets, and no agent's step changes the parameters. -/
theorem capAndIdAreConstants : Obligations.CapAndIdAreConstants := by
  unfold Obligations.CapAndIdAreConstants
  exact ⟨fun s x => ⟨memRead_reg_of_not_drawn s (r := .cap) rfl, memRead_reg_of_not_drawn s (r := .id) rfl,
    memWrite_reg s .cap x, memWrite_reg s .id x⟩, fun s t h => step_cfg h⟩

/-! The key (O28). -/

/-- A legal access that changes the key is the SRESET write or an idle write to one of KEY0-KEY3. -/
theorem hostAccess_key_cases {s t : State} {a : BusAccess} (h : hostAccess s a = .next t) (hk : t.key ≠ s.key) :
    a = .write s.cfg.base .w32 0x00000009#32 ∨
    (s.status.busy = false ∧ ∃ x off, off ∈ [0x010, 0x014, 0x018, 0x01C] ∧ a = .write (s.cfg.base + off) .w32 x) := by
  rcases hostAccess_cases h with ⟨addr, w, g, _, _, _, _, rfl⟩ | ⟨addr, w, x, g, rfl, hbase, _, hg, rfl⟩
  · obtain ⟨n, hn⟩ := readTarget_frame s w g
    exact absurd (by rw [hn]) hk
  · rcases writeTarget_cases s w x g with
      ⟨rfl, rfl, _⟩ | ⟨_, e⟩ | ⟨_, _, _, e⟩ | ⟨_, e⟩ | ⟨_, e⟩ |
      ⟨hidle, ⟨_, e⟩ | ⟨_, e⟩ | ⟨_, hkey, _⟩ | ⟨_, _, e⟩⟩ | ⟨_, e⟩
    -- Every write but SRESET's and an idle one to KEY leaves the key.
    all_goals try exact absurd (congrArg State.key e) hk
    · obtain ⟨rfl, rfl⟩ := access_of_busTarget_reg hbase hg
      exact .inl rfl
    · refine .inr ⟨hidle, x, ?_⟩
      rcases hkey with rfl | rfl | rfl | rfl <;> obtain ⟨rfl, rfl⟩ := access_of_busTarget_reg hbase hg <;>
        exact ⟨_, by decide, rfl⟩

/-- A command that changes the key is KEYPACK or KEYTAKE, and succeeds (SRESET aside). -/
theorem exec_key_cases {i : Instr} {s t : State} (hs : i ≠ .sreset) (h : exec i s = .next t) (hk : t.key ≠ s.key) :
    (i = .keypack ∨ i = .keytake) ∧ t.status.done = true := by
  rcases exec_cases i s hs with ⟨e, he⟩ | ⟨r, hr, hnokey, _⟩
  · cases he.symm.trans h
    exact absurd rfl hk
  · cases hr.symm.trans h
    refine ⟨?_, rfl⟩
    by_contra hi
    obtain ⟨hpack, htake⟩ := not_or.1 hi
    exact hk (finishCommand_key_of_none (hnokey hpack htake))

/-- Settles O28: each agent's step changes the key by its own writers alone; no latched SRESET reaches the engine. -/
theorem keyChangesOnlyByItsWriters : Obligations.KeyChangesOnlyByItsWriters := by
  unfold Obligations.KeyChangesOnlyByItsWriters
  intro s t hinv h hk
  obtain ⟨s0, as, rfl, ⟨hturn, _⟩ | ⟨hturn, _⟩ | ⟨hturn, hengine⟩⟩ := step_cases h
  · exact .inl ⟨_, hturn⟩
  · rcases step_host_cases hturn h with ⟨n, rfl⟩ | ⟨a, s1, hacc, rfl, ha⟩
    · exact absurd rfl hk
    · rcases hostAccess_key_cases ha hk with rfl | ⟨hidle, x, off, hoff, rfl⟩
      · exact .inr (.inl ⟨_, hacc⟩)
      · exact .inr (.inr (.inl ⟨hidle, _, x, off, hoff, hacc⟩))
  · rcases engineStep_cases hengine with ⟨_, rfl⟩ | ⟨hb, i, hd, hx⟩ | ⟨_, e, _, rfl⟩
    · exact absurd rfl hk
    · have hlatch : s.cmdLatch = encode i := eq_encode_of_decode hd
      have hs : i ≠ .sreset := by
        rintro rfl
        exact hinv.pending_not_sreset hb hlatch
      obtain ⟨hi, hdone⟩ := exec_key_cases hs hx hk
      exact .inr (.inr (.inr ⟨_, hturn, hb, hdone, hi.imp (by rintro rfl; exact hlatch) (by rintro rfl; exact hlatch)⟩))
    · exact absurd rfl hk

/-! What a completion writes (O29, O32). -/

/-- Settles O29: the frame is that of every completion, the outputs those of the command's result. -/
theorem commandsWriteOnlyTheirOutputs : Obligations.CommandsWriteOnlyTheirOutputs := by
  unfold Obligations.CommandsWriteOnlyTheirOutputs
  intro i s hs
  obtain ⟨r, hr⟩ := exec_complete i hs s
  obtain ⟨hbusy, hwerr⟩ := complete_status s r
  refine ⟨s.complete r, hr, complete_frame s r, hbusy, hwerr, ?_⟩
  rcases exec_cases i s hs with ⟨e, he⟩ | ⟨r', hr', hnokey, hnodata, hdata⟩
  · rw [Host.Outcome.next.inj (hr.symm.trans he)]
    exact ⟨fun _ _ => rfl, fun _ _ => rfl, fun _ => rfl⟩
  · rw [Host.Outcome.next.inj (hr.symm.trans hr')]
    refine ⟨fun hpack htake => finishCommand_key_of_none (hnokey hpack htake),
      fun hi j => by rw [finishCommand_buf_of_none (hnodata hi)], fun hi => ?_⟩
    by_cases hn : i = .nop ∨ i = .keypack
    · exact finishCommand_len_of_none (hnodata hn)
    · obtain ⟨hnop, hpack⟩ := not_or.1 hn
      obtain ⟨bs, hbs, _, hlen⟩ := hdata hnop hpack
      rw [finishCommand_len_of_some hbs, hlen ((hi.resolve_left hnop).resolve_left hpack),
        BitVec.ofNat_toNat, BitVec.setWidth_eq]

/-- Where every byte is a symbol, decoding gives the bytes of floor(6m / 8). -/
theorem b64dec_of_inputSymbols {s : State} (h : s.inputSymbols = true) :
    ∃ c, b64dec s.input = some c ∧ c.length = 6 * s.len.toNat / 8 := by
  obtain ⟨c, hc⟩ := Option.isSome_iff_exists.1 ((b64dec_isSome s.input).trans h)
  exact ⟨c, hc, by rw [length_of_b64dec hc, State.length_input]⟩

/-- The VariableBlock engine stage succeeds on whole words other than one. -/
theorem vbStage_of_length {f : KeyFile → List Word → List Word} (hf : ∀ k v, (f k v).length = v.length) (k : KeyFile)
    {b : List Byte} (h4 : b.length % 4 = 0) (h1 : b.length ≠ 4) :
    ∃ p, vbStage f k b = .ok p ∧ p.length = b.length := by
  by_cases h0 : b.length = 0
  · obtain rfl := List.eq_nil_of_length_eq_zero h0
    exact ⟨[], rfl, rfl⟩
  · exact ⟨_, vbStage_ok k (by omega), length_bytesOf_transform hf k h4⟩

/-- An error listed first does not apply where none does. -/
theorem ite_some_eq_none {p : Prop} [Decidable p] {e : CmdError} {o : Option CmdError} :
    (if p then some e else o) = none ↔ ¬p ∧ o = none := by
  split <;> simp_all

/-- A command with no error to report succeeds (spec/60_exceptions.md R265, R266). -/
theorem exec_of_expectedError_none {i : Instr} {s : State} (hs : i ≠ .sreset) (h : expectedError i s = none) :
    ∃ r, exec i s = .next (s.finishCommand r) := by
  cases i <;> simp only [expectedError, ite_some_eq_none, Nat.not_lt, not_not, and_true] at h
  case nop => exact ⟨CmdResult.empty, rfl⟩
  case sreset => contradiction
  case keypack => exact ⟨_, exec_keypack_ok h⟩
  case keytake => exact ⟨_, exec_keytake_ok h.1 h.2⟩
  case padFb => exact ⟨_, exec_padFb_ok h⟩
  case padVb => exact ⟨_, exec_padVb_ok h⟩
  case cryptFbEnc => exact ⟨_, exec_cryptFbEnc_ok h.1 h.2⟩
  case cryptFbDec => exact ⟨_, exec_cryptFbDec_ok h.1 h.2⟩
  case cryptVbEnc =>
    obtain ⟨hle, h4, hshort⟩ := h
    exact ⟨_, exec_cryptVbEnc_ok hle h4 (by omega)⟩
  case cryptVbDec =>
    obtain ⟨hle, h4, hshort⟩ := h
    exact ⟨_, exec_cryptVbDec_ok hle h4 (by omega)⟩
  case b64enc => exact ⟨_, exec_b64enc_ok h.1 (by simpa using h.2)⟩
  case b64dec =>
    obtain ⟨hle, hsym⟩ := h
    obtain ⟨c, hc, _⟩ := b64dec_of_inputSymbols (s := s) (by simpa using hsym)
    exact ⟨_, exec_b64dec_ok hle hc⟩
  case encryptFb =>
    obtain ⟨hle, htext⟩ := h
    have hpad := length_padTo s.input (u := 8) (by omega)
    rw [State.length_input] at hpad
    refine ⟨_, exec_encryptFb_ok hle ?_⟩
    rwa [length_b64enc, length_fbBytes _ _ (by omega), hpad]
  case encryptVb =>
    obtain ⟨hle, hshort, htext⟩ := h
    have hpad := length_padTo s.input (u := 4) (by omega)
    rw [State.length_input] at hpad
    obtain ⟨c, hc, hlen⟩ := vbStage_of_length length_vbEncrypt s.key (b := padTo s.input 4) (by omega) (by omega)
    refine ⟨_, exec_encryptVb_ok hle hc ?_⟩
    rwa [length_b64enc, hlen, hpad]
  case decryptFb =>
    obtain ⟨hle, hsym, h8⟩ := h
    obtain ⟨c, hc, hlen⟩ := b64dec_of_inputSymbols (s := s) (by simpa using hsym)
    exact ⟨_, exec_decryptFb_ok hle hc (hlen ▸ h8)⟩
  case decryptVb =>
    obtain ⟨hle, hsym, h4, hone⟩ := h
    obtain ⟨c, hc, hlen⟩ := b64dec_of_inputSymbols (s := s) (by simpa using hsym)
    obtain ⟨p, hp, _⟩ := vbStage_of_length length_vbDecrypt s.key (hlen ▸ h4) (hlen ▸ hone)
    exact ⟨_, exec_decryptVb_ok hle hc (hlen ▸ h4) hp⟩

/-- Settles O32: the data that a success commits fit in BUF, and BUF reads 0x00 past them. -/
theorem successfulDataCommandsZeroTheTail : Obligations.SuccessfulDataCommandsZeroTheTail := by
  unfold Obligations.SuccessfulDataCommandsZeroTheTail
  intro i s hinv hn hk hs herr
  obtain ⟨h8, _, hcap, _⟩ := Config.valid_bounds hinv.cfg_valid
  obtain ⟨r, hr⟩ := exec_of_expectedError_none hs herr
  rcases exec_cases i s hs with ⟨e, he⟩ | ⟨r', hr', _, _, hdata⟩
  · have hdone := congrArg (fun t : State => t.status.done) (Host.Outcome.next.inj (hr.symm.trans he))
    simp at hdone
  · obtain ⟨bs, hbs, hfits, _⟩ := hdata hn hk
    have hlen : (s.finishCommand r').len.toNat = bs.length := by
      rw [finishCommand_len_of_some hbs, BitVec.toNat_ofNat, Nat.mod_eq_of_lt (by have := hfits h8; omega)]
    refine ⟨_, hr', rfl, hlen ▸ hfits h8, fun j hj => ?_⟩
    rw [finishCommand_buf_of_some hbs, Memory.read_ofBytes_zero, List.getD_eq_default _ _ (hlen ▸ hj)]

end Sys2Proof.Machine
end

section
/-! SUPPORT. How a pending command ends (O58): what a host's turn leaves of it, and its completion on the engine's turn. -/

namespace Sys2Proof.Machine

open Sys2Proof

/-- In `t` the command pending in `s` is still pending, with the inputs it had. -/
structure KeepsPending (s t : State) : Prop where
  busy : t.status.busy = true
  cmdLatch : t.cmdLatch = s.cmdLatch
  key : t.key = s.key
  buf : t.buf = s.buf
  len : t.len = s.len
  rounds : t.rounds = s.rounds

/-- While BUSY = 1, a legal write other than SRESET's changes STATUS bits, IRQEN or nothing: it leaves the pending
command and its inputs (spec/70_reset_and_hazards.md R294). -/
theorem writeTarget_keepsPending {s : State} (hb : s.status.busy = true) (w : Width) (x : Word) (g : Target) :
    (g = .reg .cmd ∧ x = 0x00000009#32 ∧ writeTarget s w x g = s.blockReset) ∨
    (KeepsPending s (writeTarget s w x g) ∧ (writeTarget s w x g).sched = s.sched) := by
  rcases writeTarget_cases s w x g with
    hreset | ⟨_, e⟩ | ⟨_, _, hidle, _⟩ | ⟨_, e⟩ | ⟨_, e⟩ | ⟨hidle, _⟩ | ⟨_, e⟩
  · exact .inl hreset
  · exact .inr (e ▸ ⟨⟨hb, rfl, rfl, rfl, rfl, rfl⟩, rfl⟩)
  · simp [hb] at hidle
  · exact .inr (e ▸ ⟨⟨hb, rfl, rfl, rfl, rfl, rfl⟩, rfl⟩)
  · exact .inr (e ▸ ⟨⟨hb, rfl, rfl, rfl, rfl, rfl⟩, rfl⟩)
  · simp [hb] at hidle
  · rw [e]
    exact .inr ⟨⟨hb, rfl, rfl, rfl, rfl, rfl⟩, rfl⟩

/-- While BUSY = 1, an access that completes is the SRESET write, or leaves the pending command and its inputs. -/
theorem hostAccess_keepsPending {s t : State} {a : BusAccess} (hb : s.status.busy = true)
    (h : hostAccess s a = .next t) :
    (a = .write s.cfg.base .w32 0x00000009#32 ∧ t = s.blockReset) ∨ (KeepsPending s t ∧ t.sched = s.sched) := by
  rcases hostAccess_cases h with ⟨_, w, g, _, _, _, _, rfl⟩ | ⟨addr, w, x, g, rfl, hbase, _, hg, rfl⟩
  · obtain ⟨n, hn⟩ := readTarget_frame s w g
    rw [hn]
    exact .inr ⟨⟨hb, rfl, rfl, rfl, rfl, rfl⟩, rfl⟩
  · rcases writeTarget_keepsPending hb w x g with ⟨rfl, rfl, e⟩ | hkeeps
    · obtain ⟨rfl, rfl⟩ := access_of_busTarget_reg hbase hg
      exact .inl ⟨rfl, e⟩
    · exact .inr hkeeps

/-- While BUSY = 1, a host step that completes is the SRESET write, or leaves the pending command and its inputs. -/
theorem step_host_keepsPending {s s0 t : State} (hturn : s.nextTurn = (.host, s0)) (hb : s.status.busy = true)
    (h : step s = .next t) :
    (∃ s1, HostAccesses s (.write s.cfg.base .w32 0x00000009#32) s1 ∧ t = s1.blockReset) ∨
    (KeepsPending s t ∧ t.sched = s.sched.tail) := by
  obtain rfl := eq_of_nextTurn hturn
  rcases step_host_cases hturn h with ⟨n, rfl⟩ | ⟨a, s1, hacc, hs1, ha⟩
  · exact .inr ⟨⟨hb, rfl, rfl, rfl, rfl, rfl⟩, rfl⟩
  · have hb1 : s1.status.busy = true := by rw [hs1]; exact hb
    rcases hostAccess_keepsPending hb1 ha with ⟨rfl, e⟩ | ⟨hkeeps, hsched⟩ <;> subst hs1
    · exact .inl ⟨_, hacc, e⟩
    · exact .inr ⟨⟨hkeeps.busy, hkeeps.cmdLatch, hkeeps.key, hkeeps.buf, hkeeps.len, hkeeps.rounds⟩, hsched⟩

/-- Every completion reports: DONE or ERR is set after it (spec/60_exceptions.md R262, R266). -/
theorem complete_reports (s : State) (r : Except CmdError CmdResult) :
    (s.complete r).status.done = true ∨ (s.complete r).status.err = true := by
  cases r with
  | ok r => exact .inl rfl
  | error e => exact .inr rfl

/-- The engine's turn on a pending command other than SRESET completes it (spec/10_state.md R45). -/
theorem completesPending_of_engine {s s0 : State} (hturn : s.nextTurn = (.engine, s0)) (hb : s.status.busy = true)
    (hlatch : s.cmdLatch ≠ 0x00000009#32) : ∃ t, CompletesPending s s t := by
  have hstep := step_of_engine hturn
  have hb0 : s0.status.busy = true := by rw [eq_of_nextTurn hturn]; exact hb
  have hlatch0 : s0.cmdLatch = s.cmdLatch := by rw [eq_of_nextTurn hturn]
  have hexec : ∀ i, decode s.cmdLatch = .ok i → step s = exec i s0 := fun i hd =>
    hstep.trans (engineStep_of_decode hb0 (hlatch0 ▸ hd))
  obtain ⟨r, hr⟩ : ∃ r, step s = .next (s0.complete r) := by
    cases hd : decode s.cmdLatch with
    | ok i =>
      have hs : i ≠ .sreset := by
        rintro rfl
        exact hlatch (eq_encode_of_decode hd)
      rw [hexec i hd]
      exact exec_complete i hs s0
    | error e => exact ⟨_, hstep.trans (engineStep_of_illegal hb0 (hlatch0 ▸ hd))⟩
  exact ⟨_, hb, rfl, rfl, rfl, rfl, rfl, s0, hturn, hexec, hr, (complete_status s0 r).1, complete_reports s0 r⟩

/-- The completion of a command that was still pending on the same inputs is the completion of the command. -/
theorem KeepsPending.completes {s s' u t : State} (h : KeepsPending s s') (hc : CompletesPending s' u t) :
    CompletesPending s u t := by
  unfold CompletesPending at hc ⊢
  rwa [h.cmdLatch, h.key, h.buf, h.len, h.rounds] at hc

/-- Settles O58, by induction on the schedule: a host's turn ends the command's being pending, stops the run, or leaves
the command pending on the same inputs with a shorter schedule. -/
theorem pendingCommandEndsByCompletionResetOrStop : Obligations.PendingCommandEndsByCompletionResetOrStop := by
  unfold Obligations.PendingCommandEndsByCompletionResetOrStop
  intro s hb hlatch
  generalize hsched : s.sched = turns
  induction turns generalizing s with
  | nil =>
    have hturn : s.nextTurn = (.engine, s) := by rw [nextTurn_nil hsched, if_pos hb]
    exact ⟨0, s, le_rfl, rfl, .inl (completesPending_of_engine hturn hb hlatch)⟩
  | cons a rest ih =>
    have hturn := nextTurn_cons hsched
    cases a with
    | rst => exact ⟨0, s, Nat.zero_le _, rfl, .inr (.inl ⟨_, hturn, step_of_rst hturn⟩)⟩
    | engine => exact ⟨0, s, Nat.zero_le _, rfl, .inl (completesPending_of_engine hturn hb hlatch)⟩
    | host =>
      cases hstep : step s with
      | fault f => exact ⟨0, s, Nat.zero_le _, rfl, .inr (.inr (.inr ⟨_, hturn, .inl ⟨f, hstep⟩⟩))⟩
      | refused r => exact ⟨0, s, Nat.zero_le _, rfl, .inr (.inr (.inr ⟨_, hturn, .inr ⟨r, hstep⟩⟩))⟩
      | next t =>
        rcases step_host_keepsPending hturn hb hstep with ⟨s1, hacc, rfl⟩ | ⟨hkeeps, hrest⟩
        · exact ⟨0, s, Nat.zero_le _, rfl, .inr (.inr (.inl ⟨s1, hacc, hstep⟩))⟩
        · obtain ⟨k, u, hk, hrun, hends⟩ := ih t hkeeps.busy (hkeeps.cmdLatch ▸ hlatch) (by rw [hrest, hsched]; rfl)
          refine ⟨k + 1, u, Nat.succ_le_succ hk, (run_succ_of_next hstep k).trans hrun, hends.imp_left ?_⟩
          exact fun ⟨t', hc⟩ => ⟨t', hkeeps.completes hc⟩

end Sys2Proof.Machine
end

section
/-! SUPPORT. The host's accesses to the registers, the words it reads, and the turns (O5, O6, O12 to O16, O18, O57). -/

namespace Sys2Proof.Machine

open Sys2Proof

/-! The turns (O5, O6, O57). -/

/-- Settles O5: the turn is the engine's on a scheduled one and on a used-up schedule, and its step is `exec`. -/
theorem engineStepRunsTheDecodedCommand : Obligations.EngineStepRunsTheDecodedCommand := by
  unfold Obligations.EngineStepRunsTheDecodedCommand
  intro s i hb hd
  have scheduled : ∀ rest, s.sched = .engine :: rest → step s = exec i { s with sched := rest } := fun rest h =>
    (step_of_engine (nextTurn_cons h)).trans (engineStep_of_decode (s := { s with sched := rest }) hb hd)
  have usedUp : s.sched = [] → step s = exec i s := fun h =>
    (step_of_engine ((nextTurn_nil h).trans (by rw [if_pos hb]))).trans (engineStep_of_decode hb hd)
  exact ⟨fun _ => scheduled, fun _ => usedUp, by rintro rfl; exact ⟨scheduled, usedUp⟩⟩

/-- Settles O6: a host's turn on a statement with an access is that access; R106's table holds by definition. -/
theorem hostStepPerformsItsStatementsAccess : Obligations.HostStepPerformsItsStatementsAccess := by
  unfold Obligations.HostStepPerformsItsStatementsAccess
  exact ⟨fun s s1 a h => step_of_hostAccesses h, fun c r i b h x => ⟨rfl, rfl, rfl, rfl, rfl, rfl, rfl, rfl⟩⟩

/-- A label moves the host to its next statement (notes/assumptions/9.md). -/
theorem hostStep_of_label {s : State} {l : Nat} (h : s.prog[s.hpc]? = some (.label l)) :
    hostStep s = .next { s with hpc := s.hpc + 1 } := by
  simp [hostStep, h, hostStatement, stmtAccess]

/-- A host whose program has ended does nothing (notes/assumptions/11.md). -/
theorem hostStep_of_ended {s : State} (h : s.prog[s.hpc]? = none) : hostStep s = .next s := by
  simp only [hostStep, h]

/-- Settles O57: each of the three turns comes off the schedule, and the agent's step is the stated one. -/
theorem turnsWithoutAnAccessKeepTheBlock : Obligations.TurnsWithoutAnAccessKeepTheBlock := by
  unfold Obligations.TurnsWithoutAnAccessKeepTheBlock
  refine fun s => ⟨fun l hturn hst => ?_, fun hturn hst => ?_, fun hturn hidle => ?_⟩
  · rw [step_of_host (nextTurn_of_fst hturn)]
    exact hostStep_of_label (s := { s with sched := s.sched.tail }) hst
  · rw [step_of_host (nextTurn_of_fst hturn)]
    exact hostStep_of_ended (s := { s with sched := s.sched.tail }) hst
  · rw [step_of_engine (nextTurn_of_fst hturn)]
    exact engineStep_of_idle (s := { s with sched := s.sched.tail }) hidle

/-! CMD and the idle registers (O12, O18). -/

theorem cmdWrite_sreset (s : State) : cmdWrite s 0x00000009#32 = s.blockReset := rfl

theorem cmdWrite_of_idle {s : State} {x : Word} (hx : x ≠ 0x00000009#32) (h : s.status.busy = false) :
    cmdWrite s x = s.acceptCommand x := by
  simp [cmdWrite, hx, h]

theorem cmdWrite_of_busy {s : State} {x : Word} (hx : x ≠ 0x00000009#32) (h : s.status.busy = true) :
    cmdWrite s x = s.dropWrite := by
  simp [cmdWrite, hx, h]

/-- Settles O12: the three cases of a CMD write, and CMD is no drawn register. -/
theorem cmdWriteIssuesResetsOrIsDropped : Obligations.CmdWriteIssuesResetsOrIsDropped := by
  unfold Obligations.CmdWriteIssuesResetsOrIsDropped
  refine ⟨fun s x => ?_, fun c => rfl⟩
  have hwrite : memWrite s 0x000 .w32 x = .next (cmdWrite s x) := memWrite_reg s .cmd x
  rw [hwrite]
  refine ⟨?_, fun hx hidle => ?_, fun hx hb => ?_, memRead_reg_of_not_drawn s (r := .cmd) rfl⟩
  · rintro rfl
    rw [cmdWrite_sreset, exec_sreset]
  · rw [cmdWrite_of_idle hx hidle]
    rfl
  · rw [cmdWrite_of_busy hx hb]
    rfl

theorem lockedWrite_of_idle {s : State} (h : s.status.busy = false) (u : State) : lockedWrite s u = u := by
  simp [lockedWrite, h]

/-- Settles O18: while idle the lock lets every write through and no read is a draw. -/
theorem idleRegisterWritesStoreAllBits : Obligations.IdleRegisterWritesStoreAllBits := by
  unfold Obligations.IdleRegisterWritesStoreAllBits
  intro s x hidle
  have hlock : ∀ u, Host.Outcome.next (lockedWrite s u) = (.next u : Host.Outcome State Fault Refusal) := fun u =>
    congrArg _ (lockedWrite_of_idle hidle u)
  exact ⟨(memWrite_reg s .rounds x).trans (hlock _), (memWrite_reg s .len x).trans (hlock _),
    (memWrite_reg s .key0 x).trans (hlock _), (memWrite_reg s .key1 x).trans (hlock _),
    (memWrite_reg s .key2 x).trans (hlock _), (memWrite_reg s .key3 x).trans (hlock _),
    memRead_reg_of_idle hidle .rounds, memRead_reg_of_idle hidle .len, memRead_reg_of_idle hidle .key0,
    memRead_reg_of_idle hidle .key1, memRead_reg_of_idle hidle .key2, memRead_reg_of_idle hidle .key3⟩

/-! The words of STATUS and IRQEN, bit by bit (O13 to O16). -/

theorem getLsbD_append_ofBool_zero {n : Nat} (x : BitVec n) (b : Bool) : (x ++ BitVec.ofBool b).getLsbD 0 = b :=
  BitVec.getLsbD_concat_zero

theorem getLsbD_append_ofBool_succ {n : Nat} (x : BitVec n) (b : Bool) (i : Nat) :
    (x ++ BitVec.ofBool b).getLsbD (i + 1) = x.getLsbD i := BitVec.getLsbD_concat_succ

section
variable (st : Status)

theorem Status.getLsbD_word_zero : st.word.getLsbD 0 = st.busy := getLsbD_append_ofBool_zero _ _

theorem Status.getLsbD_word_one : st.word.getLsbD 1 = st.done := by
  simp only [word, getLsbD_append_ofBool_succ, getLsbD_append_ofBool_zero]

theorem Status.getLsbD_word_two : st.word.getLsbD 2 = st.err := by
  simp only [word, getLsbD_append_ofBool_succ, getLsbD_append_ofBool_zero]

theorem Status.getLsbD_word_three : st.word.getLsbD 3 = st.werr := by
  simp only [word, getLsbD_append_ofBool_succ, getLsbD_append_ofBool_zero]

/-- Above the four flags stand four reserved bits, ERRCODE and 20 reserved bits (spec/10_state.md R34, R39). -/
theorem Status.getLsbD_word_add_four (i : Nat) :
    st.word.getLsbD (i + 4) = if i < 4 then false else if i < 8 then st.errcode.getLsbD (i - 4) else false := by
  simp only [word, getLsbD_append_ofBool_succ]
  simp only [BitVec.getLsbD_append, BitVec.getLsbD_zero, show i - 4 < 4 ↔ i < 8 by omega]

end

section
variable (en : IrqEnable)

theorem IrqEnable.getLsbD_word_zero : en.word.getLsbD 0 = en.doneIe := getLsbD_append_ofBool_zero _ _

theorem IrqEnable.getLsbD_word_one : en.word.getLsbD 1 = en.errIe := by
  simp only [word, getLsbD_append_ofBool_succ, getLsbD_append_ofBool_zero]

theorem IrqEnable.getLsbD_word_two : en.word.getLsbD 2 = en.werrIe := by
  simp only [word, getLsbD_append_ofBool_succ, getLsbD_append_ofBool_zero]

theorem IrqEnable.getLsbD_word_add_three (i : Nat) : en.word.getLsbD (i + 3) = false := by
  simp only [word, getLsbD_append_ofBool_succ, BitVec.getLsbD_zero]

end

/-- The word of stored enables is the written word's low three bits (spec/10_state.md R35). -/
theorem IrqEnable.word_ofWord (x : Word) : (IrqEnable.ofWord x).word = x &&& 0x00000007#32 := by
  apply BitVec.eq_of_getLsbD_eq
  intro i _
  rw [BitVec.getLsbD_and, show 0x00000007#32 = IrqEnable.word ⟨true, true, true⟩ by decide]
  match i with
  | 0 => rw [getLsbD_word_zero, getLsbD_word_zero]; exact (Bool.and_true _).symm
  | 1 => rw [getLsbD_word_one, getLsbD_word_one]; exact (Bool.and_true _).symm
  | 2 => rw [getLsbD_word_two, getLsbD_word_two]; exact (Bool.and_true _).symm
  | j + 3 => rw [getLsbD_word_add_three, getLsbD_word_add_three, Bool.and_false]

/-- Settles O13: a STATUS read is no draw, and each bit of the word is its field's. -/
theorem statusReadsItsFields : Obligations.StatusReadsItsFields := by
  unfold Obligations.StatusReadsItsFields
  intro s
  refine ⟨memRead_reg_of_not_drawn s (r := .status) rfl, s.status.getLsbD_word_zero, s.status.getLsbD_word_one,
    s.status.getLsbD_word_two, s.status.getLsbD_word_three, ?_, fun i h4 h7 => ?_, fun i h12 => ?_⟩
  · apply BitVec.eq_of_getLsbD_eq
    intro i hi
    rw [BitVec.getLsbD_extractLsb', show 8 + i = (4 + i) + 4 by omega, Status.getLsbD_word_add_four,
      if_neg (by omega), if_pos (by omega), Nat.add_sub_cancel_left, decide_eq_true hi, Bool.true_and]
  · obtain ⟨j, rfl⟩ := Nat.exists_eq_add_of_le' h4
    rw [Status.getLsbD_word_add_four, if_pos (by omega)]
  · obtain ⟨j, rfl⟩ := Nat.exists_eq_add_of_le' (show 4 ≤ i by omega)
    rw [Status.getLsbD_word_add_four, if_neg (by omega), if_neg (by omega)]

/-- A STATUS write, at any BUSY value (spec/10_state.md R34). -/
theorem memWrite_status (s : State) (x : Word) :
    memWrite s 0x004 .w32 x = .next { s with status := s.status.writeOneToClear x } := memWrite_reg s .status x

/-- Settles O14: a written 1 clears its bit, and in position 2 ERRCODE with it. -/
theorem statusWriteClearsTheWrittenBits : Obligations.StatusWriteClearsTheWrittenBits := by
  unfold Obligations.StatusWriteClearsTheWrittenBits
  intro s x
  have clear : ∀ b c : Bool, (b && !c) = if c then false else b := by decide
  exact ⟨_, memWrite_status s x, rfl, rfl, clear _ _, clear _ _, clear _ _, rfl⟩

/-- Settles O15: an IRQEN write is under no lock, and what it stores reads back as the low three bits. -/
theorem irqenStoresItsThreeBits : Obligations.IrqenStoresItsThreeBits := by
  unfold Obligations.IrqenStoresItsThreeBits
  refine ⟨fun s x => ⟨_, memWrite_reg s .irqen x, rfl, ?_⟩, fun c => ?_⟩
  · refine (memRead_reg_of_not_drawn _ (r := .irqen) rfl).trans ?_
    simp only [writeReg, regValue, IrqEnable.word_ofWord]
  · show IrqEnable.reset.word = 0x00000000#32
    decide

/-- `irq` is the OR of the enabled bits (spec/10_state.md R44). -/
theorem State.irq_iff (s : State) :
    s.irq = true ↔ (s.status.done = true ∧ s.irqen.doneIe = true) ∨ (s.status.err = true ∧ s.irqen.errIe = true) ∨
      (s.status.werr = true ∧ s.irqen.werrIe = true) := by
  simp only [irq, Bool.or_eq_true, Bool.and_eq_true, or_assoc]

/-- A W1C write that writes 1 over every pending enabled bit leaves `irq` 0 (spec/70_reset_and_hazards.md R298). -/
theorem irq_writeOneToClear {s : State} {x : Word}
    (hdone : s.status.done = true → s.irqen.doneIe = true → x.getLsbD 1 = true)
    (herr : s.status.err = true → s.irqen.errIe = true → x.getLsbD 2 = true)
    (hwerr : s.status.werr = true → s.irqen.werrIe = true → x.getLsbD 3 = true) :
    State.irq { s with status := s.status.writeOneToClear x } = false := by
  rw [← Bool.not_eq_true, State.irq_iff]
  simp only [Status.writeOneToClear_done, Status.writeOneToClear_err, Status.writeOneToClear_werr, Bool.and_eq_true,
    Bool.not_eq_true']
  rintro (⟨⟨hset, hkept⟩, hen⟩ | ⟨⟨hset, hkept⟩, hen⟩ | ⟨⟨hset, hkept⟩, hen⟩)
  · exact absurd (hdone hset hen) (Bool.eq_false_iff.1 hkept)
  · exact absurd (herr hset hen) (Bool.eq_false_iff.1 hkept)
  · exact absurd (hwerr hset hen) (Bool.eq_false_iff.1 hkept)

/-- Settles O16: the words' bits are the fields that `irq` reads, and those that the write clears. -/
theorem irqFollowsStatusAndEnables : Obligations.IrqFollowsStatusAndEnables := by
  unfold Obligations.IrqFollowsStatusAndEnables
  intro s
  rw [Status.getLsbD_word_one, Status.getLsbD_word_two, Status.getLsbD_word_three, IrqEnable.getLsbD_word_zero,
    IrqEnable.getLsbD_word_one, IrqEnable.getLsbD_word_two]
  refine ⟨s.irq_iff, fun x hclears => ⟨_, memWrite_status s x, irq_writeOneToClear ?_ ?_ ?_⟩⟩
  · have h := hclears 0 (by omega)
    rwa [Status.getLsbD_word_one, IrqEnable.getLsbD_word_zero] at h
  · have h := hclears 1 (by omega)
    rwa [Status.getLsbD_word_two, IrqEnable.getLsbD_word_one] at h
  · have h := hclears 2 (by omega)
    rwa [Status.getLsbD_word_three, IrqEnable.getLsbD_word_two] at h

end Sys2Proof.Machine
end

section
/-! SUPPORT. The host's accesses to BUF, byte by byte, and which accesses the block refuses (O19 to O21). -/

namespace Sys2Proof.Machine

open Sys2Proof

/-! Legal accesses to BUF (O19). -/

theorem widthBytes_le_four (w : Width) : widthBytes w ≤ 4 := by cases w <;> decide

/-- BUF ends within the window: BUF_CAP <= 2^24 (spec/00_scope.md R7). -/
theorem bufOffset_add_lt_of_valid {c : Config} (hc : c.valid = true) {i : Nat} {w : Width}
    (hi : i + widthBytes w ≤ c.bufCap) : 0x10000 + i < 2 ^ 25 := by
  obtain ⟨_, _, hcap, _⟩ := Config.valid_bounds hc
  omega

/-- Byte k of a word, as `bytesOfWord` lists it. -/
theorem getD_bytesOfWord (x : Word) {k : Nat} (hk : k < 4) :
    (bytesOfWord x).getD k 0#8 = x.extractLsb' (8 * k) 8 := by
  match k, hk with
  | 0, _ | 1, _ | 2, _ | 3, _ => rfl

/-- The bytes of a value read from BUF: the access's bytes, then 0x00 (spec/20_memory.md R72, R77). -/
theorem getD_bytesOfWord_bufValue (m : Memory) (i : Nat) (w : Width) (k : Nat) :
    (bytesOfWord (bufValue m i w)).getD k 0#8 = if k < widthBytes w then m.read (i + k) else 0#8 := by
  cases w <;> rw [bufValue, bytesOfWord_wordOfBytes, widthBytes]
  all_goals match k with
    | 0 | 1 | 2 | 3 | _ + 4 => simp

/-- BUF after a legal write, byte by byte (spec/20_memory.md R72, R77). -/
theorem Memory.read_writeBytes_bytesOfWord {m : Memory} (h : m.wf) (i j : Nat) (w : Width) (x : Word) :
    (m.writeBytes i ((bytesOfWord x).take (widthBytes w))).read j =
      if i ≤ j ∧ j < i + widthBytes w then x.extractLsb' (8 * (j - i)) 8 else m.read j := by
  have hw := widthBytes_le_four w
  rw [read_writeBytes h, List.length_take, length_bytesOfWord, Nat.min_eq_left hw]
  refine if_ctx_congr Iff.rfl (fun hj => ?_) fun _ => rfl
  rw [← getD_bytesOfWord x (by omega), List.getD_eq_getElem?_getD, List.getElem?_take_of_lt (by omega),
    List.getD_eq_getElem?_getD]

/-- A legal read of BUF while idle, which is no draw. -/
theorem memRead_buf_of_idle {s : State} {i : Nat} {w : Width} (hidle : s.status.busy = false)
    (ha : i % widthBytes w = 0) (hi : i + widthBytes w ≤ s.cfg.bufCap) (hw : 0x10000 + i < 2 ^ 25) :
    memRead s (0x10000 + i) w = .next { s with scratch := bufValue s.buf i w } := by
  simp [memRead_buf ha hi hw, readTarget, hidle]

/-- A legal write of BUF while idle, which the lock lets through. -/
theorem memWrite_buf_of_idle {s : State} {i : Nat} {w : Width} (x : Word) (hidle : s.status.busy = false)
    (ha : i % widthBytes w = 0) (hi : i + widthBytes w ≤ s.cfg.bufCap) (hw : 0x10000 + i < 2 ^ 25) :
    memWrite s (0x10000 + i) w x =
      .next { s with buf := s.buf.writeBytes i ((bytesOfWord x).take (widthBytes w)) } := by
  rw [memWrite_buf x ha hi hw, writeTarget, lockedWrite_of_idle hidle]

/-- Settles O19: the value read has the bytes of BUF, and BUF after the write has the bytes of the value. -/
theorem idleBufferAccessIsLittleEndian : Obligations.IdleBufferAccessIsLittleEndian := by
  unfold Obligations.IdleBufferAccessIsLittleEndian
  intro s i w x hinv hidle ha hi
  have hw := bufOffset_add_lt_of_valid hinv.cfg_valid hi
  refine ⟨⟨_, memRead_buf_of_idle hidle ha hi hw, fun k hk => ?_⟩,
    ⟨_, memWrite_buf_of_idle x hidle ha hi hw, fun j => Memory.read_writeBytes_bytesOfWord hinv.buf_wf i j w x⟩⟩
  rw [← getD_bytesOfWord _ hk, getD_bytesOfWord_bufValue]

/-! Refused accesses (O20). -/

/-- Every register stands below 0x02C at a multiple of four (spec/20_memory.md R70). -/
theorem regOffset_lt_and_aligned (r : Reg) : regOffset r < 0x2C ∧ regOffset r % 4 = 0 := by
  cases r <;> decide

/-- Nothing answers a narrow or misaligned access to a register, an access between the registers and BUF, or a
misaligned access to BUF or one past its end (spec/20_memory.md R71, R72, R74). -/
theorem busTarget_eq_none {c : Config} {off : Nat} {w : Width}
    (h : (off < 0x2C ∧ (w ≠ .w32 ∨ off % 4 ≠ 0)) ∨ (0x2C ≤ off ∧ off < 0x10000) ∨
      (0x10000 ≤ off ∧ ((off - 0x10000) % widthBytes w ≠ 0 ∨ c.bufCap < off - 0x10000 + widthBytes w))) :
    busTarget c off w = none := by
  refine Option.eq_none_iff_forall_ne_some.2 fun g hg => ?_
  rcases busTarget_cases hg with ⟨r, _, rfl, rfl⟩ | ⟨i, _, rfl, ha, hi⟩
  · obtain ⟨hlt, haligned⟩ := regOffset_lt_and_aligned r
    rcases h with ⟨_, hw | hmis⟩ | ⟨hge, _⟩ | ⟨hge, _⟩
    · exact hw rfl
    · exact hmis haligned
    all_goals omega
  · rw [Nat.add_sub_cancel_left] at h
    rcases h with ⟨hlt, _⟩ | ⟨_, hlt⟩ | ⟨_, hmis | hpast⟩
    · omega
    · omega
    · exact hmis ha
    · omega

/-- An access that reaches nothing faults with its offset and width (spec/60_exceptions.md R263). -/
theorem memRead_of_busTarget_none {s : State} {off : Nat} {w : Width} (hoff : off < 2 ^ 25)
    (h : busTarget s.cfg off w = none) : memRead s off w = .fault (.busError off w) := by
  simp [memRead, hostAccess, windowOffset_base_add _ hoff, busRead, h]

theorem memWrite_of_busTarget_none {s : State} {off : Nat} {w : Width} (x : Word) (hoff : off < 2 ^ 25)
    (h : busTarget s.cfg off w = none) : memWrite s off w x = .fault (.busError off w) := by
  simp [memWrite, hostAccess, windowOffset_base_add _ hoff, busWrite, h]

/-- Settles O20: none of these accesses reaches a register or BUF, at any BUSY value. -/
theorem refusedAccessesFaultWithBusError : Obligations.RefusedAccessesFaultWithBusError := by
  unfold Obligations.RefusedAccessesFaultWithBusError
  intro s off w x hoff h
  have hnone := busTarget_eq_none h
  exact ⟨memRead_of_busTarget_none hoff hnone, memWrite_of_busTarget_none x hoff hnone⟩

/-! Legal accesses at any BUSY value (O21). -/

/-- Settles O21: a legal access reaches a register or bytes of BUF, and each answers. -/
theorem legalAccessesComplete : Obligations.LegalAccessesComplete := by
  unfold Obligations.LegalAccessesComplete
  rintro s off w x hvalid (⟨hlt, rfl, haligned⟩ | ⟨hge, ha, hi⟩)
  · obtain ⟨r, rfl⟩ := exists_reg_of_aligned hlt haligned
    exact ⟨⟨_, memRead_reg s r⟩, _, memWrite_reg s r x⟩
  · obtain ⟨i, rfl⟩ := Nat.exists_eq_add_of_le hge
    rw [Nat.add_sub_cancel_left] at ha hi
    have hw := bufOffset_add_lt_of_valid hvalid hi
    exact ⟨⟨_, memRead_buf ha hi hw⟩, _, memWrite_buf x ha hi hw⟩

end Sys2Proof.Machine
end

section
/-! SUPPORT. The command word and its completion where it is illegal (O1 to O4), and the host's branch (O7). -/

namespace Sys2Proof.Machine

open Sys2Proof

/-! Decode and encode (O1, O2, O3). -/

section
variable (op : BitVec 4) (dir var : Bool)

/-- The bits of a spelled word: OP, DIR, VAR, then RSV = 0 (spec/30_encoding.md R100). -/
theorem getLsbD_encodeFields (i : Nat) :
    (encodeFields op dir var).getLsbD i =
      if i < 4 then op.getLsbD i else if i = 4 then dir else if i = 5 then var else false := by
  simp only [encodeFields, BitVec.getLsbD_append, BitVec.getLsbD_ofBool, BitVec.getLsbD_zero]
  match i with
  | 0 | 1 | 2 | 3 | 4 | 5 => rfl
  | _ + 6 => rfl

@[simp] theorem opField_encodeFields : opField (encodeFields op dir var) = op := by
  apply BitVec.eq_of_getLsbD_eq
  intro i hi
  rw [opField, BitVec.getLsbD_extractLsb', Nat.zero_add, getLsbD_encodeFields, if_pos hi, decide_eq_true hi,
    Bool.true_and]

@[simp] theorem dirField_encodeFields : dirField (encodeFields op dir var) = dir := getLsbD_encodeFields op dir var 4

@[simp] theorem varField_encodeFields : varField (encodeFields op dir var) = var := getLsbD_encodeFields op dir var 5

@[simp] theorem rsvField_encodeFields : rsvField (encodeFields op dir var) = 0 := by
  apply BitVec.eq_of_getLsbD_eq
  intro i _
  rw [rsvField, BitVec.getLsbD_extractLsb', getLsbD_encodeFields, if_neg (by omega), if_neg (by omega),
    if_neg (by omega), Bool.and_false]
  exact BitVec.getLsbD_zero.symm

/-- The decoder takes back the fields that a word is spelled from (spec/30_encoding.md R100). -/
theorem decode_encodeFields : decode (encodeFields op dir var) = decodeFields op.toNat dir var := by
  simp [decode]

end

/-- Each command's word decodes to the command: its fields are its row's (spec/30_encoding.md R102). -/
theorem decode_encode (i : Instr) : decode (encode i) = .ok i := by
  cases i <;> exact decode_encodeFields _ _ _

/-- Settles O2: the fields of a word spell it, and the row of a word's fields is one command's. -/
theorem decodeAndEncodeAgreeOnEveryWord : Obligations.DecodeAndEncodeAgreeOnEveryWord := by
  unfold Obligations.DecodeAndEncodeAgreeOnEveryWord
  intro w i
  constructor
  · exact eq_encode_of_decode
  · rintro rfl
    exact decode_encode i

/-- Settles O1: each written-out word is the encoding of its row's command. -/
theorem commandWordsDecodeToTheirCommands : Obligations.CommandWordsDecodeToTheirCommands := by
  unfold Obligations.CommandWordsDecodeToTheirCommands
  exact ⟨decode_encode .nop, decode_encode .keypack, decode_encode .keytake, decode_encode .padFb,
    decode_encode .padVb, decode_encode .cryptFbEnc, decode_encode .cryptFbDec, decode_encode .cryptVbEnc,
    decode_encode .cryptVbDec, decode_encode .b64enc, decode_encode .b64dec, decode_encode .encryptFb,
    decode_encode .encryptVb, decode_encode .decryptFb, decode_encode .decryptVb, decode_encode .sreset⟩

/-- No command's word has one of the forms that R103 lists as illegal. -/
theorem encode_not_listed_illegal (i : Instr) :
    ¬((encode i).toNat / 2 ^ 6 ≠ 0 ∨ 10 ≤ (encode i).toNat % 16 ∨
      ((encode i).getLsbD 4 = true ∧ (encode i).toNat % 16 ≠ 4) ∨
      ((encode i).getLsbD 5 = true ∧ (encode i).toNat % 16 ∈ [0, 1, 2, 5, 6, 9])) := by
  cases i <;> decide

/-- Settles O3: a word that decodes is a command's word, and none of the 16 is of a listed form. -/
theorem listedIllegalWordsDecodeToNoCommand : Obligations.ListedIllegalWordsDecodeToNoCommand := by
  unfold Obligations.ListedIllegalWordsDecodeToNoCommand
  intro w hlisted i hd
  rw [eq_encode_of_decode hd] at hlisted
  exact encode_not_listed_illegal i hlisted

/-! The completion of an illegal word (O4). -/

/-- A word that is no command's word decodes to an error. -/
theorem decode_error_of_ne_encode {w : Word} (h : ∀ i, w ≠ encode i) : ∃ e, decode w = .error e := by
  cases hd : decode w with
  | ok i => exact absurd (eq_encode_of_decode hd) (h i)
  | error e => exact ⟨e, rfl⟩

/-- Settles O4: the pending word does not decode, and the engine's step on it records IllegalCommand alone. -/
theorem illegalWordCompletesWithCodeSixOnly : Obligations.IllegalWordCompletesWithCodeSixOnly := by
  unfold Obligations.IllegalWordCompletesWithCodeSixOnly
  intro s s0 hturn hb hword
  obtain ⟨e, he⟩ := decode_error_of_ne_encode hword
  obtain rfl := eq_of_nextTurn hturn
  rw [step_of_engine hturn]
  exact engineStep_of_illegal (s := { s with sched := s.sched.tail }) hb he

/-! The host's branch (O7). -/

/-- A label that is declared once is found at its place. -/
theorem labelIndex_of_unique {p : List HostStmt} {l j : Nat} (hj : p[j]? = some (.label l))
    (huniq : ∀ j', p[j']? = some (.label l) → j' = j) : labelIndex p l = some j := by
  obtain ⟨hlt, hget⟩ := List.getElem?_eq_some_iff.1 hj
  refine List.findIdx?_eq_some_iff_getElem.2 ⟨hlt, by simp [hget], fun k hk hlabel => ?_⟩
  have hkj : k = j := huniq k (List.getElem?_eq_some_iff.2 ⟨hk.trans hlt, by simpa using hlabel⟩)
  omega

/-- A branch whose label has the place `j` (spec/30_encoding.md R106). -/
theorem hostBranch_of_labelIndex {s : State} {l j : Nat} (h : labelIndex s.prog l = some j) (k : Fin 32) :
    hostBranch s k l = .next { s with hpc := if s.scratch.getLsbD k.val then j else s.hpc } := by
  unfold hostBranch
  split
  · simp only [h]
  · rfl

/-- A host at a branch takes it, its place already past the branch. -/
theorem hostStep_of_branch {s : State} {k : Fin 32} {l : Nat} (h : s.prog[s.hpc]? = some (.bbs k l)) :
    hostStep s = hostBranch { s with hpc := s.hpc + 1 } k l := by
  simp only [hostStep, h, hostStatement]

/-- Settles O7: the host's turn is the branch, and its one declaration is where the label is found. -/
theorem hostBranchFollowsBitOfScratch : Obligations.HostBranchFollowsBitOfScratch := by
  unfold Obligations.HostBranchFollowsBitOfScratch
  intro s s0 k l j hturn hst hj huniq
  obtain rfl := eq_of_nextTurn hturn
  rw [step_of_host hturn, hostStep_of_branch (s := { s with sched := s.sched.tail }) hst]
  exact hostBranch_of_labelIndex (s := { s with sched := s.sched.tail, hpc := s.hpc + 1 })
    (labelIndex_of_unique hj huniq) k

end Sys2Proof.Machine
end

section
/-! SUPPORT. What a data command reads of BUF (O56): its pseudocode depends on BUF[0..LEN) alone, and its results
replace BUF and LEN. -/

namespace Sys2Proof.Machine

open Sys2Proof

/-- What running a data command gives: an error, or a result that commits data (spec/30_encoding.md R101, columns
reads and writes). -/
inductive GivesData : Except CmdError CmdResult → Prop where
  | error (e : CmdError) : GivesData (.error e)
  | data (k : Option KeyFile) (bs : List Byte) : GivesData (.ok { key := k, data := some bs })

theorem GivesData.ite {p : Prop} [Decidable p] {a b : Except CmdError CmdResult} (ha : GivesData a) (hb : GivesData b) :
    GivesData (if p then a else b) := by
  split
  · exact ha
  · exact hb

theorem GivesData.output (s : State) (bs : List Byte) : GivesData (s.outputResult bs) := .ite (.error _) (.data none bs)

/-- The pseudocode of a data command: it reads BUF at BUF[0..LEN) alone, and gives data or an error. -/
structure DataRun (run : State → Except CmdError CmdResult) : Prop where
  reads : ∀ (s : State) (m : Memory), (∀ j < s.len.toNat, m.read j = s.buf.read j) →
    run { s with buf := m } = run s
  gives : ∀ s, GivesData (run s)

theorem Memory.readBytes_congr {m m' : Memory} {i n : Nat} (h : ∀ j, i ≤ j → j < i + n → m.read j = m'.read j) :
    m.readBytes i n = m'.readBytes i n :=
  List.map_congr_left fun k hk => h (i + k) (by omega) (by have := List.mem_range.1 hk; omega)

/-- The tail is no part of a command's input. -/
theorem State.input_congr {s : State} {m : Memory} (h : ∀ j < s.len.toNat, m.read j = s.buf.read j) :
    State.input { s with buf := m } = s.input :=
  Memory.readBytes_congr fun j _ hj => h j (by rwa [Nat.zero_add] at hj)

theorem dataRun_keytake : DataRun runKeytake where
  reads s m h := by
    unfold runKeytake
    refine if_congr Iff.rfl rfl (if_ctx_congr Iff.rfl (fun _ => rfl) fun h16 => ?_)
    have h16 : 16 ≤ s.len.toNat := Nat.le_of_not_lt h16
    have hkey : m.readBytes 0 16 = s.buf.readBytes 0 16 := Memory.readBytes_congr fun j _ hj => h j (by omega)
    have hrest : m.readBytes 16 (s.len.toNat - 16) = s.buf.readBytes 16 (s.len.toNat - 16) :=
      Memory.readBytes_congr fun j _ hj => h j (by omega)
    exact congrArg₂ (fun kb bs => Except.ok (CmdResult.mk (some (pack16 kb)) (some bs))) hkey hrest
  gives s := .ite (.error _) (.ite (.error _) (.data _ _))

theorem dataRun_pad (u : Nat) : DataRun (runPad u) where
  reads s m h := by rw [runPad, State.input_congr h]; rfl
  gives s := .ite (.error _) (.data none _)

theorem dataRun_cryptFb (count : State → Int) (hcount : ∀ s m, count { s with buf := m } = count s) :
    DataRun (fun s => runCryptFb (count s) s) where
  reads s m h := by simp only [runCryptFb, State.input_congr h, hcount]; rfl
  gives s := .ite (.error _) (.ite (.error _) (.data none _))

theorem dataRun_cryptVb (f : KeyFile → List Word → List Word) : DataRun (runCryptVb f) where
  reads s m h := by rw [runCryptVb, State.input_congr h]; rfl
  gives s := .ite (.error _) (.ite (.error _) (.ite (.error _) (.data none _)))

theorem dataRun_b64enc : DataRun runB64enc where
  reads s m h := by rw [runB64enc, State.input_congr h]; rfl
  gives s := .ite (.error _) (.output s _)

theorem dataRun_b64dec : DataRun runB64dec where
  reads s m h := by rw [runB64dec, State.input_congr h]; rfl
  gives s := .ite (.error _) <| by
    cases b64dec s.input with
    | none => exact .error _
    | some out => exact .data none out

theorem dataRun_encryptFb : DataRun runEncryptFb where
  reads s m h := by rw [runEncryptFb, State.input_congr h]; rfl
  gives s := .ite (.error _) (.output s _)

theorem dataRun_encryptVb : DataRun runEncryptVb where
  reads s m h := by rw [runEncryptVb, State.input_congr h]; rfl
  gives s := .ite (.error _) <| by
    cases vbStage vbEncrypt s.key (padTo s.input 4) with
    | error e => exact .error e
    | ok c => exact .output s _

theorem dataRun_decryptFb : DataRun runDecryptFb where
  reads s m h := by rw [runDecryptFb, State.input_congr h]; rfl
  gives s := .ite (.error _) <| by
    cases b64dec s.input with
    | none => exact .error _
    | some c => exact .ite (.error _) (.data none _)

theorem dataRun_decryptVb : DataRun runDecryptVb where
  reads s m h := by rw [runDecryptVb, State.input_congr h]; rfl
  gives s := .ite (.error _) <| by
    cases b64dec s.input with
    | none => exact .error _
    | some c =>
      refine .ite (.error _) ?_
      cases vbStage vbDecrypt s.key c with
      | error e => exact .error e
      | ok p => exact .data none p

/-- Every data command but KEYPACK completes from such a pseudocode. -/
theorem exec_eq_complete_dataRun {i : Instr} (hn : i ≠ .nop) (hk : i ≠ .keypack) (hs : i ≠ .sreset) :
    ∃ run, DataRun run ∧ ∀ s, exec i s = .next (s.complete (run s)) := by
  cases i with
  | nop | keypack | sreset => contradiction
  | keytake => exact ⟨_, dataRun_keytake, fun _ => rfl⟩
  | padFb => exact ⟨_, dataRun_pad 8, fun _ => rfl⟩
  | padVb => exact ⟨_, dataRun_pad 4, fun _ => rfl⟩
  | cryptFbEnc => exact ⟨_, dataRun_cryptFb State.encryptCount fun _ _ => rfl, fun _ => rfl⟩
  | cryptFbDec => exact ⟨_, dataRun_cryptFb State.decryptCount fun _ _ => rfl, fun _ => rfl⟩
  | cryptVbEnc => exact ⟨_, dataRun_cryptVb vbEncrypt, fun _ => rfl⟩
  | cryptVbDec => exact ⟨_, dataRun_cryptVb vbDecrypt, fun _ => rfl⟩
  | b64enc => exact ⟨_, dataRun_b64enc, fun _ => rfl⟩
  | b64dec => exact ⟨_, dataRun_b64dec, fun _ => rfl⟩
  | encryptFb => exact ⟨_, dataRun_encryptFb, fun _ => rfl⟩
  | encryptVb => exact ⟨_, dataRun_encryptVb, fun _ => rfl⟩
  | decryptFb => exact ⟨_, dataRun_decryptFb, fun _ => rfl⟩
  | decryptVb => exact ⟨_, dataRun_decryptVb, fun _ => rfl⟩

/-- A result with data replaces the whole of BUF, so what BUF held before is no part of the completion. -/
theorem finishCommand_data_congr (s : State) (m : Memory) (k : Option KeyFile) (bs : List Byte) :
    State.finishCommand { s with buf := m } { key := k, data := some bs } =
      s.finishCommand { key := k, data := some bs } := by
  cases k <;> rfl

/-- Settles O56: both states run to one outcome; an error leaves BUF as it was, and data replace it. -/
theorem dataCommandsReadOnlyTheFirstLenBytes : Obligations.DataCommandsReadOnlyTheFirstLenBytes := by
  unfold Obligations.DataCommandsReadOnlyTheFirstLenBytes
  intro s i m hn hk hs hm
  obtain ⟨run, hrun, hexec⟩ := exec_eq_complete_dataRun hn hk hs
  refine ⟨_, _, hexec s, hexec _, ?_⟩
  rw [hrun.reads s m hm]
  have hgives := hrun.gives s
  generalize run s = r at hgives ⊢
  cases hgives with
  | error e => exact ⟨rfl, fun hdone => by simp at hdone, fun _ => rfl⟩
  | data k bs => exact ⟨rfl, fun _ => finishCommand_data_congr s m k bs, fun herr => by simp at herr⟩

end Sys2Proof.Machine
end

section
/-! SUPPORT. The key word-pack unit (O34 to O36): the bytes of a packed key, KEYPACK's zero-filled bytes, and what KEYTAKE
leaves of LEN and BUF. -/

namespace Sys2Proof.Machine

open Sys2Proof

/-! The bytes of a packed key (spec/40_key_wordpack.md R130). -/

/-- Byte j of a word of four bytes. -/
theorem extractLsb'_wordOfBytes (b0 b1 b2 b3 : Byte) {j : Nat} (hj : j < 4) :
    (wordOfBytes b0 b1 b2 b3).extractLsb' (8 * j) 8 = [b0, b1, b2, b3].getD j 0#8 := by
  rw [← getD_bytesOfWord _ hj, bytesOfWord_wordOfBytes]

/-- Word i of a packed key is made of the bytes from 4i on. -/
theorem get_pack16 (kb : List Byte) {i : Nat} (hi : i < 4) :
    (pack16 kb).get (BitVec.ofNat 2 i) =
      wordOfBytes (kb.getD (4 * i) 0#8) (kb.getD (4 * i + 1) 0#8) (kb.getD (4 * i + 2) 0#8) (kb.getD (4 * i + 3) 0#8) := by
  match i, hi with
  | 0, _ | 1, _ | 2, _ | 3, _ => rfl

/-- Byte j of word i of a packed key is byte 4i+j of what was packed. -/
theorem extractLsb'_get_pack16 (kb : List Byte) {i j : Nat} (hi : i < 4) (hj : j < 4) :
    ((pack16 kb).get (BitVec.ofNat 2 i)).extractLsb' (8 * j) 8 = kb.getD (4 * i + j) 0#8 := by
  rw [get_pack16 kb hi, extractLsb'_wordOfBytes _ _ _ _ hj]
  match j, hj with
  | 0, _ | 1, _ | 2, _ | 3, _ => rfl

/-- Zero-filling changes no byte, since a missing byte is taken as 0x00. -/
theorem getD_append_zeros (b : List Byte) (n k : Nat) : (b ++ zeros n).getD k 0#8 = b.getD k 0#8 := by
  rcases Nat.lt_or_ge k b.length with hk | hk
  · rw [List.getD_append _ _ _ _ hk]
  · rw [List.getD_append_right _ _ _ _ hk, zeros, List.getD_eq_getElem?_getD,
      List.getElem?_getD_replicate_default_eq, List.getD_eq_default _ _ hk]

/-! KEYPACK (O34, O36). -/

/-- The bytes that KEYPACK packs: BUF[0..min(LEN, 16)), zero-filled to 16 (spec/40_key_wordpack.md R131). -/
def State.keypackBytes (s : State) : List Byte :=
  s.buf.readBytes 0 (min s.len.toNat 16) ++ zeros (16 - min s.len.toNat 16)

theorem State.length_keypackBytes (s : State) : s.keypackBytes.length = 16 := by
  rw [keypackBytes, List.length_append, Memory.length_readBytes, length_zeros]
  omega

theorem State.getD_keypackBytes (s : State) (k : Nat) :
    s.keypackBytes.getD k 0#8 = if k < min s.len.toNat 16 then s.buf.read k else 0#8 := by
  rw [keypackBytes, getD_append_zeros, Memory.getD_readBytes, Nat.zero_add]

/-- KEYPACK within BUF_CAP changes KEY and STATUS (spec/40_key_wordpack.md R131). -/
theorem exec_keypack_of_fits {s : State} (h : s.len.toNat ≤ s.cfg.bufCap) :
    exec .keypack s = .next { s with key := pack16 s.keypackBytes, status := doneStatus s.status } :=
  exec_keypack_ok h

/-- The packed bytes of two states that agree on their first 16 zero-filled bytes. -/
theorem State.keypackBytes_congr {s s' : State}
    (h : ∀ i < 16, (if i < s.len.toNat then s.buf.read i else 0#8) = if i < s'.len.toNat then s'.buf.read i else 0#8) :
    s.keypackBytes = s'.keypackBytes := by
  have zeroFilled : ∀ (u : State) {i : Nat}, i < 16 →
      u.keypackBytes.getD i 0#8 = if i < u.len.toNat then u.buf.read i else 0#8 := fun u i hi => by
    simp only [u.getD_keypackBytes, lt_min_iff, hi, and_true]
  refine byteList_ext (s.length_keypackBytes.trans s'.length_keypackBytes.symm) fun i hi => ?_
  rw [s.length_keypackBytes] at hi
  rw [zeroFilled s hi, zeroFilled s' hi, h i hi]

/-- Settles O34: KEYPACK packs its zero-filled bytes, and each byte of a packed key is one of them. -/
theorem keypackPacksTheFirstSixteenBytes : Obligations.KeypackPacksTheFirstSixteenBytes := by
  unfold Obligations.KeypackPacksTheFirstSixteenBytes
  refine ⟨decode_encode .keypack, fun s => ⟨fun h => exec_inputTooLarge h (by decide) (by decide), fun h => ?_⟩⟩
  refine ⟨pack16 s.keypackBytes, exec_keypack_of_fits h, fun i j hi hj => ?_⟩
  rw [extractLsb'_get_pack16 _ hi hj, s.getD_keypackBytes]

/-- Settles O36: both states pack the same bytes. -/
theorem keypackDependsOnlyOnZeroFilledBytes : Obligations.KeypackDependsOnlyOnZeroFilledBytes := by
  unfold Obligations.KeypackDependsOnlyOnZeroFilledBytes
  intro s s' h h' hagree
  exact ⟨_, _, exec_keypack_of_fits h, exec_keypack_of_fits h', congrArg pack16 (State.keypackBytes_congr hagree)⟩

/-! KEYTAKE (O35). -/

/-- KEYTAKE on fewer than 16 bytes (spec/40_key_wordpack.md R132). -/
theorem exec_keytake_missingKeyMaterial {s : State} (h : s.len.toNat ≤ s.cfg.bufCap) (h16 : s.len.toNat < 16) :
    exec .keytake s = .next (s.failCommand .missingKeyMaterial) := by
  simp [exec, execKeytake, runKeytake, inputTooLarge_eq, State.lenBytes, Nat.not_lt.2 h, h16]

/-- LEN after KEYTAKE. -/
theorem ofNat_toNat_sub_sixteen {len : Word} (h : 16 ≤ len.toNat) : BitVec.ofNat 32 (len.toNat - 16) = len - 16#32 := by
  bv_omega

/-- BUF after KEYTAKE: the bytes from 16 on stand 16 lower, and 0x00 follows them. -/
theorem Memory.read_ofBytes_readBytes_sixteen (m : Memory) (n j : Nat) :
    (Memory.ofBytes 0 (m.readBytes 16 (n - 16))).read j = if j + 16 < n then m.read (j + 16) else 0#8 := by
  rw [read_ofBytes_zero, getD_readBytes, Nat.add_comm 16 j]
  exact if_congr Nat.lt_sub_iff_add_lt rfl rfl

/-- KEYTAKE on at least 16 bytes within BUF_CAP changes KEY, BUF, LEN and STATUS (spec/40_key_wordpack.md R132). -/
theorem exec_keytake_of_fits {s : State} (h : s.len.toNat ≤ s.cfg.bufCap) (h16 : 16 ≤ s.len.toNat) :
    exec .keytake s = .next { s with
      key := pack16 (s.buf.readBytes 0 16)
      buf := Memory.ofBytes 0 (s.buf.readBytes 16 (s.len.toNat - 16))
      len := s.len - 16#32
      status := doneStatus s.status } := by
  rw [exec_keytake_ok h h16, State.finishCommand_keyData, Memory.length_readBytes, ofNat_toNat_sub_sixteen h16]
  rfl

/-- Settles O35: the key's bytes are BUF[0..16), all 16 of them present, and the rest is the new BUF. -/
theorem keytakeTakesSixteenBytesFromTheFront : Obligations.KeytakeTakesSixteenBytesFromTheFront := by
  unfold Obligations.KeytakeTakesSixteenBytesFromTheFront
  refine ⟨decode_encode .keytake, fun s => ⟨fun h => exec_inputTooLarge h (by decide) (by decide),
    exec_keytake_missingKeyMaterial, fun h h16 => ?_⟩⟩
  refine ⟨_, _, exec_keytake_of_fits h h16, fun i j hi hj => ?_, s.buf.read_ofBytes_readBytes_sixteen s.len.toNat⟩
  rw [extractLsb'_get_pack16 _ hi hj, Memory.getD_readBytes, if_pos (by omega), Nat.zero_add]

end Sys2Proof.Machine
end

section
/-! SUPPORT. The base-64 codec (O37 to O40): the symbol table and its lookup, the bit streams of the text and of the
buffer, and what B64ENC and B64DEC leave. -/

namespace Sys2Proof.Machine

open Sys2Proof

/-! The symbol table (O37). -/

/-- The table of spec/41_codec.md R150, with no wrapping of the byte arithmetic. -/
theorem toNat_symOf (i : BitVec 6) : (symOf i).toNat =
    if i.toNat ≤ 25 then 0x41 + i.toNat
    else if i.toNat ≤ 51 then 0x61 + (i.toNat - 26)
    else if i.toNat ≤ 61 then 0x30 + (i.toNat - 52)
    else if i.toNat = 62 then 0x2D else 0x5F := by
  unfold symOf
  split_ifs <;> simp only [BitVec.toNat_ofNat] <;> omega

/-- Each range of bytes that the lookup knows is one row of the table, and no row holds another byte. -/
theorem idxOf_eq_some_iff {c : Byte} {i : BitVec 6} : idxOf c = some i ↔ c = symOf i := by
  have hi := i.isLt
  rw [← BitVec.toNat_inj, toNat_symOf]
  unfold idxOf
  split_ifs <;> simp only [Option.some.injEq, ← BitVec.toNat_inj, BitVec.toNat_ofNat, false_iff] <;> omega

theorem isSome_idxOf_iff {c : Byte} : (idxOf c).isSome = true ↔ isSymbol c := by
  simp only [Option.isSome_iff_exists, idxOf_eq_some_iff, isSymbol]

/-- Settles O37: the lookup and the table, range by range. -/
theorem symbolLookupInvertsTheAlphabet : Obligations.SymbolLookupInvertsTheAlphabet := by
  unfold Obligations.SymbolLookupInvertsTheAlphabet
  exact ⟨fun _ _ => idxOf_eq_some_iff, toNat_symOf⟩

/-! B64ENC (O38). -/

/-- The bit stream of BUF[0..LEN) (spec/41_codec.md R152). -/
theorem State.byteStreamBit_input (s : State) (q : Nat) :
    byteStreamBit s.input q = (decide (q < 8 * s.len.toNat) && (s.buf.read (q / 8)).getLsbD (7 - q % 8)) := by
  rw [byteStreamBit, s.length_input, s.getD_input]
  by_cases hq : q < 8 * s.len.toNat
  · rw [if_pos (by omega)]
  · simp [hq]

/-- B64ENC of a text that does not fit (spec/41_codec.md R154). -/
theorem exec_b64enc_textTooLarge {s : State} (h : s.len.toNat ≤ s.cfg.bufCap)
    (hf : s.cfg.bufCap < (8 * s.len.toNat + 5) / 6) : exec .b64enc s = .next (s.failCommand .inputTooLarge) := by
  simp [exec, execB64enc, runB64enc, inputTooLarge_eq, State.outputResult, Nat.not_lt.2 h, hf]

/-- B64ENC of a text that fits changes BUF, LEN and STATUS (spec/41_codec.md R154). -/
theorem exec_b64enc_of_fits {s : State} (h : s.len.toNat ≤ s.cfg.bufCap)
    (hf : (8 * s.len.toNat + 5) / 6 ≤ s.cfg.bufCap) :
    exec .b64enc s = .next { s with
      buf := Memory.ofBytes 0 (b64enc s.input)
      len := BitVec.ofNat 32 ((8 * s.len.toNat + 5) / 6)
      status := doneStatus s.status } := by
  have hlen : (b64enc s.input).length = (8 * s.len.toNat + 5) / 6 := by rw [length_b64enc, s.length_input]
  rw [exec_b64enc_ok h (hlen ▸ hf), State.finishCommand_ofData, hlen]
  rfl

/-- Settles O38: each symbol is that of six bits of the buffer's stream. -/
theorem b64encSpellsTheBitStream : Obligations.B64encSpellsTheBitStream := by
  unfold Obligations.B64encSpellsTheBitStream
  refine ⟨decode_encode .b64enc, fun s _ => ⟨fun h => ?_, fun h hf => ?_⟩⟩
  · rcases Nat.lt_or_ge s.cfg.bufCap s.len.toNat with hbig | hle
    · exact exec_inputTooLarge hbig (by decide) (by decide)
    · exact exec_b64enc_textTooLarge hle (h.resolve_left (Nat.not_lt.2 hle))
  · refine ⟨_, exec_b64enc_of_fits h hf, fun g hg => ?_, fun g hg => ?_⟩
    · refine ⟨_, (Memory.read_ofBytes_zero ..).trans (getD_b64enc _ (by rwa [s.length_input])), fun b hb => ?_⟩
      rw [← s.byteStreamBit_input]
      exact getLsbD_ofNat_streamValue _ _ hb
    · rw [Memory.read_ofBytes_zero, List.getD_eq_default _ _ (by rwa [length_b64enc, s.length_input])]

/-! B64DEC (O39). -/

/-- The symbols of a list of indices are looked up again. -/
theorem symbolIndices_map_symOf (v : List (BitVec 6)) : symbolIndices (v.map symOf) = some v := by
  induction v with
  | nil => rfl
  | cons i is ih => rw [List.map_cons, symbolIndices, idxOf_eq_some_iff.2 rfl, ih]

theorem b64dec_map_symOf (v : List (BitVec 6)) : b64dec (v.map symOf) = some (bytesOfIndices v) := by
  rw [b64dec, symbolIndices_map_symOf, Option.map_some]

/-- A byte that is no symbol leaves the text undecoded. -/
theorem b64dec_eq_none_of_mem {l : List Byte} {c : Byte} (hc : c ∈ l) (hn : ¬isSymbol c) : b64dec l = none := by
  rw [← Option.not_isSome_iff_eq_none, b64dec_isSome, List.all_eq_true]
  exact fun hall => hn (isSome_idxOf_iff.1 (hall c hc))

/-- BUF[0..LEN) as the list of what a function gives at each index. -/
theorem State.input_eq_map {f : Nat → Byte} {s : State} (h : ∀ i < s.len.toNat, s.buf.read i = f i) :
    s.input = (List.range s.len.toNat).map f := by
  refine List.map_congr_left fun i hi => ?_
  rw [Nat.zero_add, h i (List.mem_range.1 hi)]

theorem State.read_mem_input {s : State} {i : Nat} (h : i < s.len.toNat) : s.buf.read i ∈ s.input := by
  rw [s.input_eq_map fun _ _ => rfl]
  exact List.mem_map_of_mem (List.mem_range.2 h)

/-- B64DEC of a text with a byte that is no symbol (spec/41_codec.md R155). -/
theorem exec_b64dec_decodeError {s : State} (h : s.len.toNat ≤ s.cfg.bufCap) (hd : b64dec s.input = none) :
    exec .b64dec s = .next (s.failCommand .decodeError) := by
  simp [exec, execB64dec, runB64dec, inputTooLarge_eq, Nat.not_lt.2 h, hd]

/-- B64DEC of the symbols of `v` changes BUF, LEN and STATUS (spec/41_codec.md R155). -/
theorem exec_b64dec_of_symbols {s : State} {v : List (BitVec 6)} (h : s.len.toNat ≤ s.cfg.bufCap)
    (hv : s.input = v.map symOf) :
    exec .b64dec s = .next { s with
      buf := Memory.ofBytes 0 (bytesOfIndices v)
      len := BitVec.ofNat 32 (6 * s.len.toNat / 8)
      status := doneStatus s.status } := by
  have hlen : v.length = s.len.toNat := by rw [← s.length_input, hv, List.length_map]
  rw [exec_b64dec_ok h (hv ▸ b64dec_map_symOf v), State.finishCommand_ofData, length_bytesOfIndices, hlen]
  rfl

/-- The bit stream of the indices that a function gives (spec/41_codec.md R153). -/
theorem indexStreamBit_map_range (v : Nat → BitVec 6) {n q : Nat} (h : q / 6 < n) :
    indexStreamBit ((List.range n).map v) q = (v (q / 6)).getLsbD (5 - q % 6) := by
  simp [indexStreamBit, h]

/-- Settles O39: each byte is eight bits of the symbols' stream. -/
theorem b64decReadsTheSymbolStream : Obligations.B64decReadsTheSymbolStream := by
  unfold Obligations.B64decReadsTheSymbolStream
  refine ⟨decode_encode .b64dec, fun s => ⟨fun h => exec_inputTooLarge h (by decide) (by decide), ?_, ?_⟩⟩
  · rintro h ⟨i, hi, hn⟩
    exact exec_b64dec_decodeError h (b64dec_eq_none_of_mem (State.read_mem_input hi) hn)
  · intro v h hv
    have hinput : s.input = ((List.range s.len.toNat).map v).map symOf := by
      rw [State.input_eq_map hv, List.map_map]
      rfl
    refine ⟨_, exec_b64dec_of_symbols h hinput, fun j hj b hb => ?_, fun j hj => ?_⟩
    · have hq : (8 * j + b) / 6 < s.len.toNat := by omega
      rw [Memory.read_ofBytes_zero, getD_bytesOfIndices _ (by simpa using hj), ← indexStreamBit_map_range v hq]
      exact getLsbD_ofNat_streamValue _ _ hb
    · rw [Memory.read_ofBytes_zero, List.getD_eq_default _ _ (by simpa using hj)]

/-! The round trip (O40). -/

/-- The 6-bit groups of the bit stream of a byte list, the last one filled with zeros (spec/41_codec.md R152). -/
def sextets (b : List Byte) : List (BitVec 6) :=
  (List.range ((8 * b.length + 5) / 6)).map (fun g => BitVec.ofNat 6 (streamValue (byteStreamBit b) (6 * g) 6))

@[simp] theorem length_sextets (b : List Byte) : (sextets b).length = (8 * b.length + 5) / 6 := by simp [sextets]

theorem map_symOf_sextets (b : List Byte) : (sextets b).map symOf = b64enc b := by
  rw [sextets, List.map_map]; rfl

/-- The groups have the stream that was cut into them; past its end both streams are zero. -/
theorem indexStreamBit_sextets (b : List Byte) : indexStreamBit (sextets b) = byteStreamBit b := by
  funext q
  rcases Nat.lt_or_ge (q / 6) ((8 * b.length + 5) / 6) with hq | hq
  · have hbit := getLsbD_ofNat_streamValue (byteStreamBit b) (6 * (q / 6)) (Nat.mod_lt q (by decide : 0 < 6))
    rw [Nat.div_add_mod] at hbit
    simpa [indexStreamBit, sextets, hq] using hbit
  · have hend : ¬q < 8 * b.length := by omega
    rw [indexStreamBit, List.getD_eq_default _ _ (by simpa using hq)]
    simp [byteStreamBit, hend]

/-- Eight bits from bit 8j on are byte j. -/
theorem ofNat_streamValue_byteStreamBit {b : List Byte} {j : Nat} (h : j < b.length) :
    BitVec.ofNat 8 (streamValue (byteStreamBit b) (8 * j) 8) = b.getD j 0#8 := by
  refine BitVec.eq_of_getLsbD_eq fun i hi => ?_
  have hbit := getLsbD_ofNat_streamValue (byteStreamBit b) (8 * j) (show 7 - i < 8 by omega)
  rw [show 8 - 1 - (7 - i) = i by omega] at hbit
  rw [hbit, byteStreamBit, show (8 * j + (7 - i)) / 8 = j by omega, show 7 - (8 * j + (7 - i)) % 8 = i by omega,
    decide_eq_true (by omega), Bool.true_and]

/-- The complete bytes of the groups are the bytes that were cut: the zero bits make up no byte of their own. -/
theorem bytesOfIndices_sextets (b : List Byte) : bytesOfIndices (sextets b) = b := by
  have hlen : (bytesOfIndices (sextets b)).length = b.length := by
    rw [length_bytesOfIndices, length_sextets]; omega
  refine byteList_ext hlen fun j hj => ?_
  rw [getD_bytesOfIndices _ (by rwa [length_bytesOfIndices] at hj), indexStreamBit_sextets,
    ofNat_streamValue_byteStreamBit (hlen ▸ hj)]

/-- Decoding undoes encoding (spec/41_codec.md R156). -/
theorem b64dec_b64enc (b : List Byte) : b64dec (b64enc b) = some b := by
  rw [← map_symOf_sextets, b64dec_map_symOf, bytesOfIndices_sextets]

/-- Settles O40: B64DEC finds the text that B64ENC left, which decodes to the input. -/
theorem b64RoundTripRestoresTheBuffer : Obligations.B64RoundTripRestoresTheBuffer := by
  unfold Obligations.B64RoundTripRestoresTheBuffer
  intro s hvalid h hf
  obtain ⟨_, _, hcap, _⟩ := Config.valid_bounds hvalid
  have hlen : (b64enc s.input).length = (8 * s.len.toNat + 5) / 6 := by rw [length_b64enc, s.length_input]
  have htext := s.input_finishCommand_ofData (bs := b64enc s.input) (by omega)
  have hfits : (s.finishCommand (CmdResult.ofData (b64enc s.input))).len.toNat ≤ s.cfg.bufCap := by
    rw [← State.length_input, htext, hlen]; exact hf
  refine ⟨_, _, exec_b64enc_ok h (hlen ▸ hf), exec_b64dec_ok hfits (htext ▸ b64dec_b64enc s.input), rfl, ?_,
    fun j hj => ?_⟩
  · rw [State.finishCommand_ofData, s.length_input, BitVec.ofNat_toNat, BitVec.setWidth_eq]
  · rw [State.finishCommand_ofData, Memory.read_ofBytes_zero, s.getD_input, if_pos hj]

end Sys2Proof.Machine
end

section
/-! SUPPORT. The FixedBlock engine (O41 to O44): one iteration and its undo, the loops as iterations, the engine on a list
of blocks, and what CRYPT.FB.* leave. -/

namespace Sys2Proof.Machine

open Sys2Proof

/-! The accumulator and the key selectors. -/

/-- The accumulator after `i` iterations of encryption: i * DELTA mod 2^32 (spec/42_fixed_block.md R182). -/
def fbAcc (i : Nat) : Word := delta * BitVec.ofNat 32 i

@[simp] theorem fbAcc_zero : fbAcc 0 = 0#32 := rfl

theorem fbAcc_add (i j : Nat) : fbAcc (i + j) = fbAcc i + fbAcc j := by
  rw [fbAcc, BitVec.ofNat_add, BitVec.mul_add]
  rfl

theorem fbAcc_succ (i : Nat) : fbAcc (i + 1) = fbAcc i + delta := fbAcc_add i 1

theorem fbAcc_sub {i m : Nat} (h : i ≤ m) : fbAcc m - fbAcc i = fbAcc (m - i) := by
  rw [BitVec.sub_eq_iff_eq_add, ← fbAcc_add, Nat.sub_add_cancel h]

/-- Masking by 3 leaves bits 1:0. -/
theorem and_three_setWidth (x : Word) : (x &&& 3#32).setWidth 2 = x.extractLsb' 0 2 := by
  refine BitVec.eq_of_getLsbD_eq fun i hi => ?_
  match i, hi with
  | 0, _ | 1, _ => simp

theorem lowSelector_eq (acc : Word) : lowSelector acc = acc.extractLsb' 0 2 := and_three_setWidth acc

theorem highSelector_eq (acc : Word) : highSelector acc = acc.extractLsb' 11 2 := by
  rw [highSelector, and_three_setWidth]
  refine BitVec.eq_of_getLsbD_eq fun i _ => ?_
  simp

/-! One iteration (spec/42_fixed_block.md R182, R183). -/

/-- One iteration of encryption, from the accumulator `acc`. -/
def fbMix (k : KeyFile) (acc : Word) (v : Word × Word) : Word × Word :=
  let v0 := v.1 + mixT v.2 acc (k.get (lowSelector acc))
  (v0, v.2 + mixT v0 (acc + delta) (k.get (highSelector (acc + delta))))

/-- One iteration of decryption, from the accumulator `acc`. -/
def fbUnmix (k : KeyFile) (acc : Word) (v : Word × Word) : Word × Word :=
  let v1 := v.2 - mixT v.1 acc (k.get (highSelector acc))
  (v.1 - mixT v1 (acc - delta) (k.get (lowSelector (acc - delta))), v1)

theorem fbMix_fst (k : KeyFile) (acc : Word) (v : Word × Word) :
    (fbMix k acc v).1 = v.1 + mixT v.2 acc (k.get (acc.extractLsb' 0 2)) := by
  rw [fbMix, lowSelector_eq]

theorem fbMix_snd (k : KeyFile) (acc : Word) (v : Word × Word) :
    (fbMix k acc v).2 =
      v.2 + mixT (fbMix k acc v).1 (acc + delta) (k.get ((acc + delta).extractLsb' 11 2)) := by
  rw [fbMix, highSelector_eq]

theorem fbUnmix_snd (k : KeyFile) (acc : Word) (v : Word × Word) :
    (fbUnmix k acc v).2 = v.2 - mixT v.1 acc (k.get (acc.extractLsb' 11 2)) := by
  rw [fbUnmix, highSelector_eq]

theorem fbUnmix_fst (k : KeyFile) (acc : Word) (v : Word × Word) :
    (fbUnmix k acc v).1 =
      v.1 - mixT (fbUnmix k acc v).2 (acc - delta) (k.get ((acc - delta).extractLsb' 0 2)) := by
  rw [fbUnmix, lowSelector_eq]

theorem fbEncryptLoop_succ (k : KeyFile) (m : Nat) (acc : Word) (v : Word × Word) :
    fbEncryptLoop k (m + 1) acc v = fbEncryptLoop k m (acc + delta) (fbMix k acc v) := rfl

theorem fbDecryptLoop_succ (k : KeyFile) (m : Nat) (acc : Word) (v : Word × Word) :
    fbDecryptLoop k (m + 1) acc v = fbDecryptLoop k m (acc - delta) (fbUnmix k acc v) := rfl

/-- Each undo subtracts the term that was added, which does not depend on the word it was added to
(spec/42_fixed_block.md R188). -/
theorem fbUnmix_fbMix (k : KeyFile) (acc : Word) (v : Word × Word) : fbUnmix k (acc + delta) (fbMix k acc v) = v := by
  simp only [fbUnmix, fbMix, BitVec.add_sub_cancel]

/-! The loops (O41, O42). -/

/-- The last iteration of the encryption loop has the accumulator that the others left. -/
theorem fbEncryptLoop_succ_last (k : KeyFile) (m : Nat) (acc : Word) (v : Word × Word) :
    fbEncryptLoop k (m + 1) acc v = fbMix k (acc + fbAcc m) (fbEncryptLoop k m acc v) := by
  induction m generalizing acc v with
  | zero => rw [fbAcc_zero, BitVec.add_zero]; rfl
  | succ m ih => rw [fbEncryptLoop_succ, ih, ← fbEncryptLoop_succ, fbAcc_succ, BitVec.add_assoc, BitVec.add_comm delta]

/-- The last iteration of the decryption loop has the accumulator that the others left. -/
theorem fbDecryptLoop_succ_last (k : KeyFile) (m : Nat) (acc : Word) (v : Word × Word) :
    fbDecryptLoop k (m + 1) acc v = fbUnmix k (acc - fbAcc m) (fbDecryptLoop k m acc v) := by
  induction m generalizing acc v with
  | zero => rw [fbAcc_zero, BitVec.sub_zero]; rfl
  | succ m ih =>
    rw [fbDecryptLoop_succ, ih, ← fbDecryptLoop_succ, fbAcc_succ, BitVec.sub_sub, BitVec.add_comm delta]

theorem fbEncrypt_succ (k : KeyFile) (m : Nat) (v : Word × Word) :
    fbEncrypt k (m + 1) v = fbMix k (fbAcc m) (fbEncrypt k m v) := by
  rw [fbEncrypt, fbEncryptLoop_succ_last, BitVec.zero_add, fbEncrypt]

theorem fbDecrypt_succ (k : KeyFile) (m : Nat) (v : Word × Word) :
    fbDecrypt k (m + 1) v = fbDecrypt k m (fbUnmix k (fbAcc (m + 1)) v) := by
  have hacc : fbAcc (m + 1) - delta = fbAcc m := by rw [fbAcc_succ, BitVec.add_sub_cancel]
  rw [fbDecrypt, fbDecryptLoop_succ, ← fbAcc, hacc, fbDecrypt, ← fbAcc]

/-- Settles O41: a and b are the words that i iterations give. -/
theorem fixedBlockEncryptionIsTheStatedRecurrence : Obligations.FixedBlockEncryptionIsTheStatedRecurrence := by
  unfold Obligations.FixedBlockEncryptionIsTheStatedRecurrence
  intro k m v
  refine ⟨fun i => (fbEncrypt k i v).1, fun i => (fbEncrypt k i v).2, fbAcc, fun _ => rfl, rfl, rfl, fun i _ => ?_, rfl⟩
  dsimp only
  rw [fbEncrypt_succ, fbAcc_succ]
  exact ⟨fbMix_fst .., fbMix_snd ..⟩

/-- Settles O42: a and b are the words that i iterations of the loop give. -/
theorem fixedBlockDecryptionIsTheStatedRecurrence : Obligations.FixedBlockDecryptionIsTheStatedRecurrence := by
  unfold Obligations.FixedBlockDecryptionIsTheStatedRecurrence
  intro k m v
  refine ⟨fun i => (fbDecryptLoop k i (fbAcc m) v).1, fun i => (fbDecryptLoop k i (fbAcc m) v).2,
    fun i => fbAcc m - fbAcc i, fun i hi => fbAcc_sub hi, rfl, rfl, fun i _ => ?_, rfl⟩
  dsimp only
  rw [fbDecryptLoop_succ_last, fbAcc_succ, ← BitVec.sub_sub]
  exact ⟨fbUnmix_snd .., fbUnmix_fst ..⟩

/-! The inverse, by block, by buffer and by command (O44). -/

/-- Decryption undoes encryption from its last iteration on (spec/42_fixed_block.md R188). -/
theorem fbDecrypt_fbEncrypt (k : KeyFile) (m : Nat) (v : Word × Word) : fbDecrypt k m (fbEncrypt k m v) = v := by
  induction m with
  | zero => rfl
  | succ m ih => rw [fbDecrypt_succ, fbEncrypt_succ, fbAcc_succ, fbUnmix_fbMix, ih]

/-- +ROUNDS runs encryption, and no iteration where ROUNDS = 0 (spec/42_fixed_block.md R184). -/
theorem fixedBlock_encryptCount (s : State) (k : KeyFile) : fixedBlock k s.encryptCount = fbEncrypt k s.rounds.toNat := by
  funext v
  rcases Nat.eq_zero_or_pos s.rounds.toNat with h | h
  · simp [fixedBlock, State.encryptCount, h, fbEncrypt, fbEncryptLoop]
  · simp [fixedBlock, State.encryptCount, h]

/-- -ROUNDS runs decryption, and no iteration where ROUNDS = 0 (spec/42_fixed_block.md R184). -/
theorem fixedBlock_decryptCount (s : State) (k : KeyFile) : fixedBlock k s.decryptCount = fbDecrypt k s.rounds.toNat := by
  funext v
  rcases Nat.eq_zero_or_pos s.rounds.toNat with h | h
  · simp [fixedBlock, State.decryptCount, h, fbDecrypt, fbDecryptLoop]
  · simp [fixedBlock, State.decryptCount, h]

/-- A list of blocks through two round counts of which the second undoes the first. -/
theorem fbWords_fbWords {k : KeyFile} {r r' : Int} (h : ∀ v, fixedBlock k r' (fixedBlock k r v) = v) (ws : List Word) :
    fbWords k r' (fbWords k r ws) = ws := by
  induction ws using fbWords.induct with
  | case1 v0 v1 ws ih => simp only [fbWords, Prod.mk.eta, h, ih]
  | case2 ws hshort =>
    match ws, hshort with
    | [], _ | [_], _ => rfl
    | v0 :: v1 :: vs, hshort => exact absurd rfl (hshort v0 v1 vs)

theorem fbBytes_fbBytes {k : KeyFile} {r r' : Int} (h : ∀ v, fixedBlock k r' (fixedBlock k r v) = v) {b : List Byte}
    (h4 : b.length % 4 = 0) : fbBytes k r' (fbBytes k r b) = b := by
  rw [fbBytes, fbBytes, wordsOf_bytesOf, fbWords_fbWords h, bytesOf_wordsOf h4]

/-- The engine with -ROUNDS undoes the engine with +ROUNDS. -/
theorem State.fbBytes_decryptCount_encryptCount (s : State) {b : List Byte} (h4 : b.length % 4 = 0) :
    fbBytes s.key s.decryptCount (fbBytes s.key s.encryptCount b) = b :=
  fbBytes_fbBytes (fun v => by rw [fixedBlock_encryptCount, fixedBlock_decryptCount, fbDecrypt_fbEncrypt]) h4

/-- A completion with as many bytes as LEN leaves LEN. -/
theorem State.finishCommand_ofData_of_length {s : State} {bs : List Byte} (h : bs.length = s.len.toNat) :
    s.finishCommand (CmdResult.ofData bs) = { s with buf := Memory.ofBytes 0 bs, status := doneStatus s.status } := by
  rw [finishCommand_ofData, h, BitVec.ofNat_toNat, BitVec.setWidth_eq]
  rfl

/-- LEN bytes in BUF are the input of the next command. -/
theorem State.input_of_buf_ofBytes {s : State} {bs : List Byte} (h : bs.length = s.len.toNat) (st : Status) :
    State.input { s with buf := Memory.ofBytes 0 bs, status := st } = bs := by
  refine byteList_ext (by rw [State.length_input, h]) fun j hj => ?_
  rw [State.length_input] at hj
  rw [State.getD_input, if_pos hj, Memory.read_ofBytes_zero]

/-- The engine on BUF[0..LEN) gives LEN bytes. -/
theorem State.length_fbBytes_input {s : State} (h8 : s.len.toNat % 8 = 0) (k : KeyFile) (r : Int) :
    (fbBytes k r s.input).length = s.len.toNat := by
  rw [length_fbBytes k r (by rw [s.length_input]; omega), s.length_input]

/-- CRYPT.FB.* on a length that is no whole number of blocks (spec/42_fixed_block.md R186, R187). -/
theorem runCryptFb_invalidBufferLength {s : State} (h : s.len.toNat ≤ s.cfg.bufCap) (h8 : s.len.toNat % 8 ≠ 0)
    (r : Int) : runCryptFb r s = .error .invalidBufferLength := by
  simp [runCryptFb, inputTooLarge_eq, State.lenBytes, Nat.not_lt.2 h, h8]

/-- CRYPT.FB.* on whole blocks within BUF_CAP change BUF and STATUS (spec/42_fixed_block.md R186, R187). -/
theorem complete_runCryptFb_of_blocks {s : State} (h : s.len.toNat ≤ s.cfg.bufCap) (h8 : s.len.toNat % 8 = 0)
    (r : Int) : s.complete (runCryptFb r s) =
      { s with buf := Memory.ofBytes 0 (fbBytes s.key r s.input), status := doneStatus s.status } := by
  have hrun : runCryptFb r s = .ok (CmdResult.ofData (fbBytes s.key r s.input)) := by
    simp [runCryptFb, inputTooLarge_eq, State.lenBytes, Nat.not_lt.2 h, h8]
  rw [hrun, State.complete_ok, State.finishCommand_ofData_of_length (State.length_fbBytes_input h8 s.key r)]

theorem exec_cryptFbEnc_eq (s : State) : exec .cryptFbEnc s = .next (s.complete (runCryptFb s.encryptCount s)) := rfl

theorem exec_cryptFbDec_eq (s : State) : exec .cryptFbDec s = .next (s.complete (runCryptFb s.decryptCount s)) := rfl

/-- CRYPT.FB.DEC after CRYPT.FB.ENC on whole blocks: BUF holds the bytes that it held before, its tail zero. -/
theorem exec_cryptFbDec_after_cryptFbEnc {s t : State} (h : s.len.toNat ≤ s.cfg.bufCap) (h8 : s.len.toNat % 8 = 0)
    (ht : exec .cryptFbEnc s = .next t) :
    exec .cryptFbDec t = .next { s with buf := Memory.ofBytes 0 s.input, status := doneStatus s.status } := by
  rw [exec_cryptFbEnc_eq, complete_runCryptFb_of_blocks h h8] at ht
  obtain rfl := Host.Outcome.next.inj ht
  rw [exec_cryptFbDec_eq, complete_runCryptFb_of_blocks (by exact h) (by exact h8),
    State.input_of_buf_ofBytes (State.length_fbBytes_input h8 _ _)]
  have hback := s.fbBytes_decryptCount_encryptCount (b := s.input) (by rw [s.length_input]; omega)
  exact congrArg (fun bs => Host.Outcome.next { s with buf := Memory.ofBytes 0 bs, status := doneStatus s.status }) hback

/-- Settles O44: CRYPT.FB.DEC finds the blocks that CRYPT.FB.ENC left, under the same key, ROUNDS and LEN. -/
theorem fixedBlockDecryptionInvertsEncryption : Obligations.FixedBlockDecryptionInvertsEncryption := by
  unfold Obligations.FixedBlockDecryptionInvertsEncryption
  refine ⟨fbDecrypt_fbEncrypt, fun s h h8 => ?_⟩
  refine ⟨_, _, exec_cryptFbEnc_eq s, exec_cryptFbDec_after_cryptFbEnc h h8 (exec_cryptFbEnc_eq s), rfl, rfl,
    fun j hj => ?_⟩
  rw [Memory.read_ofBytes_zero, s.getD_input, if_pos hj]

/-! The commands on each block (O43). -/

/-- Block b of a list of words: both of its words, by themselves (spec/42_fixed_block.md R185). -/
theorem getD_fbWords (k : KeyFile) (r : Int) {ws : List Word} {b : Nat} (h : 2 * b + 1 < ws.length) :
    ((fbWords k r ws).getD (2 * b) 0#32, (fbWords k r ws).getD (2 * b + 1) 0#32) =
      fixedBlock k r (ws.getD (2 * b) 0#32, ws.getD (2 * b + 1) 0#32) := by
  induction ws using fbWords.induct generalizing b with
  | case1 v0 v1 ws ih =>
    cases b with
    | zero => rfl
    | succ b =>
      rw [List.length_cons, List.length_cons] at h
      exact ih (by omega)
  | case2 ws hshort =>
    match ws, hshort with
    | [], _ | [_], _ => simp at h
    | v0 :: v1 :: vs, hshort => exact absurd rfl (hshort v0 v1 vs)

/-- Block b of BUF after the engine (spec/42_fixed_block.md R185). -/
theorem word_ofBytes_fbBytes_input (s : State) (k : KeyFile) (r : Int) {b : Nat} (h : 8 * b + 7 < s.len.toNat) :
    ((Memory.ofBytes 0 (fbBytes k r s.input)).word (2 * b), (Memory.ofBytes 0 (fbBytes k r s.input)).word (2 * b + 1)) =
      fixedBlock k r (s.buf.word (2 * b), s.buf.word (2 * b + 1)) := by
  have hwords : 2 * b + 1 < (wordsOf s.input).length := by rw [length_wordsOf, s.length_input]; omega
  rw [fbBytes, Memory.word_ofBytes_bytesOf _ _ (by rw [length_fbWords]; omega),
    Memory.word_ofBytes_bytesOf _ _ (by rwa [length_fbWords]), getD_fbWords k r hwords,
    s.getD_wordsOf_input _ (by omega), s.getD_wordsOf_input _ (by omega)]

/-- Each of CRYPT.FB.* runs its block function, through the signed round count of its direction
(spec/42_fixed_block.md R184). -/
theorem exec_cryptFb_eq {i : Instr} {f : KeyFile → Nat → Word × Word → Word × Word}
    (hif : (i = .cryptFbEnc ∧ f = fbEncrypt) ∨ (i = .cryptFbDec ∧ f = fbDecrypt)) (s : State) :
    ∃ r, fixedBlock s.key r = f s.key s.rounds.toNat ∧ exec i s = .next (s.complete (runCryptFb r s)) := by
  rcases hif with ⟨rfl, rfl⟩ | ⟨rfl, rfl⟩
  · exact ⟨_, fixedBlock_encryptCount s s.key, exec_cryptFbEnc_eq s⟩
  · exact ⟨_, fixedBlock_decryptCount s s.key, exec_cryptFbDec_eq s⟩

/-- Settles O43: both commands run the engine on the blocks of BUF, each with its own round count. -/
theorem cryptFbTransformsEachBlockAlone : Obligations.CryptFbTransformsEachBlockAlone := by
  unfold Obligations.CryptFbTransformsEachBlockAlone
  refine ⟨decode_encode .cryptFbEnc, decode_encode .cryptFbDec, fun s i f hif => ?_⟩
  obtain ⟨hnop, hsreset⟩ : i ≠ .nop ∧ i ≠ .sreset := by rcases hif with ⟨rfl, _⟩ | ⟨rfl, _⟩ <;> decide
  obtain ⟨r, hf, hexec⟩ := exec_cryptFb_eq hif s
  refine ⟨fun h => exec_inputTooLarge h hnop hsreset, fun h h8 => ?_, fun h h8 => ?_⟩
  · rw [hexec, runCryptFb_invalidBufferLength h h8]
    rfl
  · rw [hexec, complete_runCryptFb_of_blocks h h8, ← hf]
    refine ⟨_, rfl, fun b hb => word_ofBytes_fbBytes_input s s.key r (by omega), fun j hj => ?_⟩
    rw [Memory.read_ofBytes_zero, List.getD_eq_default _ _ (by rwa [State.length_fbBytes_input h8])]

end Sys2Proof.Machine
end

section
/-! SUPPORT. The VariableBlock engine (O45 to O49): the mix term, one update and its undo, a pass of updates over a list
of positions, the rounds, and what CRYPT.VB.* and the pipeline pair do. -/

namespace Sys2Proof.Machine

open Sys2Proof

/-! The mix term (spec/43_variable_block.md R201). -/

theorem vbSelector_eq (acc : Word) : vbSelector acc = acc.extractLsb' 2 2 := by
  rw [vbSelector, and_three_setWidth]
  refine BitVec.eq_of_getLsbD_eq fun i _ => ?_
  simp

/-- p & 3 is p mod 4. -/
theorem ofNat_two_mod_four (p : Nat) : BitVec.ofNat 2 (p % 4) = BitVec.ofNat 2 p :=
  BitVec.eq_of_toNat_eq (by simp)

/-- The mix term between the neighbours z and y, as R201 writes it. -/
theorem vbMixAt_of_neighbours {k : KeyFile} {acc z y : Word} {v : List Word} {n p : Nat} (hn : v.length = n)
    (hz : z = v.getD ((p + n - 1) % n) 0#32) (hy : y = v.getD ((p + 1) % n) 0#32) :
    vbMixAt k acc v p =
      (((z >>> 5) ^^^ (y <<< 2)) + ((y >>> 3) ^^^ (z <<< 4))) ^^^
        ((acc ^^^ y) + (k.get (BitVec.ofNat 2 (p % 4) ^^^ acc.extractLsb' 2 2) ^^^ z)) := by
  rw [vbMixAt, hn, ← hz, ← hy, mixMX, vbSelector_eq, ofNat_two_mod_four]

/-- A word other than the updated one keeps its value. -/
theorem getD_set_of_ne {v : List Word} {p q : Nat} (h : q ≠ p) (x : Word) :
    (v.set p x).getD q 0#32 = v.getD q 0#32 := by
  rw [List.getD_eq_getElem?_getD, List.getElem?_set_ne h.symm, ← List.getD_eq_getElem?_getD]

/-- In a ring of two or more positions, the neighbours of a position are others. -/
theorem neighbours_ne {n p : Nat} (h : 2 ≤ n) (hp : p < n) : (p + n - 1) % n ≠ p ∧ (p + 1) % n ≠ p := by
  constructor
  · rcases Nat.eq_zero_or_pos p with rfl | hpos
    · rw [Nat.zero_add, Nat.mod_eq_of_lt (by omega)]; omega
    · rw [show p + n - 1 = p - 1 + n by omega, Nat.add_mod_right, Nat.mod_eq_of_lt (by omega)]; omega
  · rcases Nat.eq_or_lt_of_le (show p + 1 ≤ n from hp) with hlast | hlt
    · rw [hlast, Nat.mod_self]; omega
    · rw [Nat.mod_eq_of_lt hlt]; omega

/-- The mix term at a position does not read the word there. -/
theorem vbMixAt_set_self (k : KeyFile) (acc : Word) {v : List Word} {p : Nat} (h : 2 ≤ v.length) (hp : p < v.length)
    (x : Word) : vbMixAt k acc (v.set p x) p = vbMixAt k acc v p := by
  obtain ⟨hz, hy⟩ := neighbours_ne h hp
  rw [vbMixAt, vbMixAt, List.length_set, getD_set_of_ne hz, getD_set_of_ne hy]

/-- The undo of one update subtracts the term that was added. -/
theorem vbSubAt_vbAddAt (k : KeyFile) (acc : Word) {v : List Word} {p : Nat} (h : 2 ≤ v.length) (hp : p < v.length) :
    vbSubAt k acc (vbAddAt k acc v p) p = v := by
  rw [vbSubAt, vbAddAt, vbMixAt_set_self k acc h hp, List.set_set, List.getD_eq_getElem _ _ (by rwa [List.length_set]),
    List.getElem_set_self, BitVec.add_sub_cancel, List.getD_eq_getElem _ _ hp, List.set_getElem_self]

/-! A pass of updates over a list of positions. -/

/-- The word list after the first `q` of the updates at the positions `ps`. -/
def afterUpdates (f : List Word → Nat → List Word) (ps : List Nat) (v : List Word) (q : Nat) : List Word :=
  (ps.take q).foldl f v

@[simp] theorem afterUpdates_zero (f : List Word → Nat → List Word) (ps : List Nat) (v : List Word) :
    afterUpdates f ps v 0 = v := rfl

theorem afterUpdates_of_length {ps : List Nat} {q : Nat} (h : ps.length = q) (f : List Word → Nat → List Word)
    (v : List Word) : afterUpdates f ps v q = ps.foldl f v := by
  rw [afterUpdates, List.take_of_length_le h.le]

theorem afterUpdates_succ (f : List Word → Nat → List Word) {ps : List Nat} (v : List Word) {q : Nat}
    (h : q < ps.length) : afterUpdates f ps v (q + 1) = f (afterUpdates f ps v q) ps[q] := by
  rw [afterUpdates, List.take_succ_eq_append_getElem h, List.foldl_append]
  rfl

theorem length_afterUpdates {f : List Word → Nat → List Word} (hf : ∀ v p, (f v p).length = v.length) (ps : List Nat)
    (v : List Word) (q : Nat) : (afterUpdates f ps v q).length = v.length := length_foldl_update hf _ _

/-- Undoing each update, the last one first, undoes the pass. -/
theorem foldl_reverse_undo {f g : List Word → Nat → List Word} (hf : ∀ v p, (f v p).length = v.length) {ps : List Nat}
    {v : List Word} (hgf : ∀ u : List Word, u.length = v.length → ∀ p ∈ ps, g (f u p) p = u) :
    ps.reverse.foldl g (ps.foldl f v) = v := by
  induction ps generalizing v with
  | nil => rfl
  | cons p ps ih =>
    have hrest : ps.reverse.foldl g (ps.foldl f (f v p)) = f v p :=
      ih fun u hu q hq => hgf u (hu.trans (hf v p)) q (List.mem_cons_of_mem p hq)
    calc (p :: ps).reverse.foldl g ((p :: ps).foldl f v)
        = g (ps.reverse.foldl g (ps.foldl f (f v p))) p := by rw [List.reverse_cons, List.foldl_append]; rfl
      _ = g (f v p) p := by rw [hrest]
      _ = v := hgf v rfl p List.mem_cons_self

/-! The rounds (O45, O46). -/

theorem vbEncryptLoop_succ (k : KeyFile) (q : Nat) (acc : Word) (v : List Word) :
    vbEncryptLoop k (q + 1) acc v = vbEncryptLoop k q (acc + delta) (vbEncryptRound k (acc + delta) v) := rfl

theorem vbDecryptLoop_succ (k : KeyFile) (q : Nat) (acc : Word) (v : List Word) :
    vbDecryptLoop k (q + 1) acc v = vbDecryptLoop k q (acc - delta) (vbDecryptRound k acc v) := rfl

/-- The last round of encryption has the accumulator that the others left, grown once more. -/
theorem vbEncryptLoop_succ_last (k : KeyFile) (q : Nat) (acc : Word) (v : List Word) :
    vbEncryptLoop k (q + 1) acc v = vbEncryptRound k (acc + fbAcc (q + 1)) (vbEncryptLoop k q acc v) := by
  induction q generalizing acc v with
  | zero => rfl
  | succ q ih =>
    rw [vbEncryptLoop_succ, ih, ← vbEncryptLoop_succ, fbAcc_succ (q + 1), BitVec.add_assoc, BitVec.add_comm delta]

/-- The last round of decryption has the accumulator that the others left. -/
theorem vbDecryptLoop_succ_last (k : KeyFile) (q : Nat) (acc : Word) (v : List Word) :
    vbDecryptLoop k (q + 1) acc v = vbDecryptRound k (acc - fbAcc q) (vbDecryptLoop k q acc v) := by
  induction q generalizing acc v with
  | zero => rw [fbAcc_zero, BitVec.sub_zero]; rfl
  | succ q ih =>
    rw [vbDecryptLoop_succ, ih, ← vbDecryptLoop_succ, fbAcc_succ, BitVec.sub_sub, BitVec.add_comm delta]

/-- The word list of encryption after `r` rounds and the next round's updates at the positions below `p`. -/
def vbEncryptState (k : KeyFile) (v : List Word) (r p : Nat) : List Word :=
  afterUpdates (vbAddAt k (fbAcc (r + 1))) (List.range v.length) (vbEncryptLoop k r 0#32 v) p

theorem length_vbEncryptState (k : KeyFile) (v : List Word) (r p : Nat) :
    (vbEncryptState k v r p).length = v.length := by
  rw [vbEncryptState, length_afterUpdates (length_vbAddAt k _), length_vbEncryptLoop]

theorem vbEncryptState_succ_zero (k : KeyFile) (v : List Word) (r : Nat) :
    vbEncryptState k v (r + 1) 0 = vbEncryptState k v r v.length := by
  rw [vbEncryptState, afterUpdates_zero, vbEncryptLoop_succ_last, BitVec.zero_add, vbEncryptRound, length_vbEncryptLoop,
    vbEncryptState, afterUpdates_of_length List.length_range]

theorem vbEncryptState_succ (k : KeyFile) {v : List Word} (r : Nat) {p : Nat} (h : p < v.length) :
    vbEncryptState k v r (p + 1) = vbAddAt k (fbAcc (r + 1)) (vbEncryptState k v r p) p := by
  rw [vbEncryptState, afterUpdates_succ _ _ (by rwa [List.length_range]), List.getElem_range, vbEncryptState]

/-- The word list of decryption after `r` rounds and the next round's updates at the `q` highest positions. -/
def vbDecryptState (k : KeyFile) (v : List Word) (r q : Nat) : List Word :=
  afterUpdates (vbSubAt k (fbAcc (vbRounds v.length - r))) (List.range v.length).reverse
    (vbDecryptLoop k r (fbAcc (vbRounds v.length)) v) q

theorem length_vbDecryptState (k : KeyFile) (v : List Word) (r q : Nat) :
    (vbDecryptState k v r q).length = v.length := by
  rw [vbDecryptState, length_afterUpdates (length_vbSubAt k _), length_vbDecryptLoop]

theorem vbDecryptState_succ_zero (k : KeyFile) {v : List Word} {r : Nat} (h : r ≤ vbRounds v.length) :
    vbDecryptState k v (r + 1) 0 = vbDecryptState k v r v.length := by
  rw [vbDecryptState, afterUpdates_zero, vbDecryptLoop_succ_last, fbAcc_sub h, vbDecryptRound, length_vbDecryptLoop,
    vbDecryptState, afterUpdates_of_length (by rw [List.length_reverse, List.length_range])]

theorem vbDecryptState_succ (k : KeyFile) {v : List Word} (r : Nat) {q : Nat} (h : q < v.length) :
    vbDecryptState k v r (q + 1) =
      vbSubAt k (fbAcc (vbRounds v.length - r)) (vbDecryptState k v r q) (v.length - 1 - q) := by
  rw [vbDecryptState, afterUpdates_succ _ _ (by rwa [List.length_reverse, List.length_range]), List.getElem_reverse,
    List.getElem_range, List.length_range, vbDecryptState]

/-- Settles O45: each state of encryption follows from the one before by the update of R202. -/
theorem variableBlockEncryptionIsTheStatedRecurrence : Obligations.VariableBlockEncryptionIsTheStatedRecurrence := by
  unfold Obligations.VariableBlockEncryptionIsTheStatedRecurrence
  rintro k v n rfl _
  refine ⟨vbEncryptState k v, rfl, fun r _ => vbEncryptState_succ_zero k v r, ?_, rfl⟩
  intro r _ p hp z y acc hz hy hacc
  obtain rfl : acc = fbAcc (r + 1) := hacc
  rw [vbEncryptState_succ k r hp, vbAddAt, vbMixAt_of_neighbours (length_vbEncryptState k v r p) hz hy]

/-- Settles O46: each state of decryption follows from the one before by the update of R203. -/
theorem variableBlockDecryptionIsTheStatedRecurrence : Obligations.VariableBlockDecryptionIsTheStatedRecurrence := by
  unfold Obligations.VariableBlockDecryptionIsTheStatedRecurrence
  rintro k v n rfl _
  refine ⟨vbDecryptState k v, rfl, fun r hr => vbDecryptState_succ_zero k hr.le, ?_, rfl⟩
  intro r _ q hq p z y acc hp hz hy hacc
  obtain rfl : acc = fbAcc (vbRounds v.length - r) := hacc
  rw [vbDecryptState_succ k r hq, ← hp, vbSubAt, vbMixAt_of_neighbours (length_vbDecryptState k v r q) hz hy]

/-! The inverse (O48). -/

/-- A round of decryption undoes the round of encryption with its accumulator: at each position the neighbours are those
that encryption read there (spec/43_variable_block.md R207). -/
theorem vbDecryptRound_vbEncryptRound (k : KeyFile) (acc : Word) {v : List Word} (h : 2 ≤ v.length) :
    vbDecryptRound k acc (vbEncryptRound k acc v) = v := by
  rw [vbDecryptRound, length_vbEncryptRound, vbEncryptRound]
  exact foldl_reverse_undo (length_vbAddAt k acc) fun u hu p hp =>
    vbSubAt_vbAddAt k acc (hu ▸ h) (hu ▸ List.mem_range.1 hp)

/-- Decryption from the accumulator that encryption ends with undoes its rounds from the last one on. -/
theorem vbDecryptLoop_vbEncryptLoop (k : KeyFile) (q : Nat) (acc : Word) {v : List Word} (h : 2 ≤ v.length) :
    vbDecryptLoop k q (acc + fbAcc q) (vbEncryptLoop k q acc v) = v := by
  induction q with
  | zero => rfl
  | succ q ih =>
    have hacc : acc + fbAcc (q + 1) - delta = acc + fbAcc q := by
      rw [fbAcc_succ, ← BitVec.add_assoc, BitVec.add_sub_cancel]
    rw [vbEncryptLoop_succ_last, vbDecryptLoop_succ,
      vbDecryptRound_vbEncryptRound k _ (by rwa [length_vbEncryptLoop]), hacc, ih]

/-- Settles O48: both directions have the round count of the same n, and decryption starts where encryption ended. -/
theorem variableBlockDecryptionInvertsEncryption : Obligations.VariableBlockDecryptionInvertsEncryption := by
  unfold Obligations.VariableBlockDecryptionInvertsEncryption
  intro k v h
  have hloop := vbDecryptLoop_vbEncryptLoop k (vbRounds v.length) 0#32 h
  rw [BitVec.zero_add] at hloop
  rw [vbDecrypt, length_vbEncrypt]
  exact hloop

/-! The commands on the whole buffer (O47). -/

/-- The words of BUF[0..LEN) are BufWord(0) to BufWord(LEN/4 - 1) (spec/20_memory.md R76). -/
theorem State.wordsOf_input (s : State) : wordsOf s.input = (List.range (s.len.toNat / 4)).map s.buf.word := by
  have hlen : (wordsOf s.input).length = s.len.toNat / 4 := by rw [length_wordsOf, s.length_input]
  refine List.ext_getElem (by rw [hlen, List.length_map, List.length_range]) fun j hj _ => ?_
  rw [List.getElem_map, List.getElem_range, ← List.getD_eq_getElem _ 0#32 hj, s.getD_wordsOf_input j (by omega)]

/-- CRYPT.VB.* on a length that is no whole number of words (spec/43_variable_block.md R205, R206). -/
theorem runCryptVb_invalidBufferLength {s : State} (f : KeyFile → List Word → List Word)
    (h : s.len.toNat ≤ s.cfg.bufCap) (h4 : s.len.toNat % 4 ≠ 0) : runCryptVb f s = .error .invalidBufferLength := by
  simp [runCryptVb, inputTooLarge_eq, State.lenBytes, Nat.not_lt.2 h, h4]

/-- CRYPT.VB.* on fewer than two words (spec/43_variable_block.md R204). -/
theorem runCryptVb_invalidBlockLength {s : State} (f : KeyFile → List Word → List Word)
    (h : s.len.toNat ≤ s.cfg.bufCap) (h04 : s.len.toNat = 0 ∨ s.len.toNat = 4) :
    runCryptVb f s = .error .invalidBlockLength := by
  simp [runCryptVb, inputTooLarge_eq, State.lenBytes, Nat.not_lt.2 h, show s.len.toNat % 4 = 0 by omega,
    show s.len.toNat / 4 < 2 by omega]

/-- CRYPT.VB.* on two words or more within BUF_CAP change BUF and STATUS (spec/43_variable_block.md R205, R206). -/
theorem complete_runCryptVb_of_words {s : State} {f : KeyFile → List Word → List Word}
    (hf : ∀ k v, (f k v).length = v.length) (h : s.len.toNat ≤ s.cfg.bufCap) (h4 : s.len.toNat % 4 = 0)
    (h8 : 8 ≤ s.len.toNat) : s.complete (runCryptVb f s) =
      { s with buf := Memory.ofBytes 0 (bytesOf (f s.key (wordsOf s.input))), status := doneStatus s.status } := by
  have hrun : runCryptVb f s = .ok (CmdResult.ofData (bytesOf (f s.key (wordsOf s.input)))) := by
    simp [runCryptVb, inputTooLarge_eq, State.lenBytes, Nat.not_lt.2 h, h4, show ¬s.len.toNat / 4 < 2 by omega]
  have hlen : (bytesOf (f s.key (wordsOf s.input))).length = s.len.toNat := by
    rw [length_bytesOf_transform hf s.key (by rwa [s.length_input]), s.length_input]
  rw [hrun, State.complete_ok, State.finishCommand_ofData_of_length hlen]

/-- Each of CRYPT.VB.* runs its transform, which keeps the number of words. -/
theorem exec_cryptVb_eq {i : Instr} {f : KeyFile → List Word → List Word}
    (hif : (i = .cryptVbEnc ∧ f = vbEncrypt) ∨ (i = .cryptVbDec ∧ f = vbDecrypt)) :
    (∀ k v, (f k v).length = v.length) ∧ ∀ s, exec i s = .next (s.complete (runCryptVb f s)) := by
  rcases hif with ⟨rfl, rfl⟩ | ⟨rfl, rfl⟩
  · exact ⟨length_vbEncrypt, fun _ => rfl⟩
  · exact ⟨length_vbDecrypt, fun _ => rfl⟩

/-- Settles O47: both commands run their transform on the words of BUF, each error ahead of the next. -/
theorem cryptVbTransformsTheWholeBuffer : Obligations.CryptVbTransformsTheWholeBuffer := by
  unfold Obligations.CryptVbTransformsTheWholeBuffer
  refine ⟨decode_encode .cryptVbEnc, decode_encode .cryptVbDec, fun s i f hif => ?_⟩
  obtain ⟨hnop, hsreset⟩ : i ≠ .nop ∧ i ≠ .sreset := by rcases hif with ⟨rfl, _⟩ | ⟨rfl, _⟩ <;> decide
  obtain ⟨hf, hexec⟩ := exec_cryptVb_eq hif
  refine ⟨fun h => exec_inputTooLarge h hnop hsreset, fun h h4 => ?_, fun h h04 => ?_, fun h h4 h8 => ?_⟩
  · rw [hexec, runCryptVb_invalidBufferLength f h h4]
    rfl
  · rw [hexec, runCryptVb_invalidBlockLength f h h04]
    rfl
  · have hwords : (f s.key (wordsOf s.input)).length = s.len.toNat / 4 := by
      rw [hf, length_wordsOf, s.length_input]
    rw [hexec, complete_runCryptVb_of_words hf h h4 h8, ← s.wordsOf_input]
    refine ⟨_, rfl, fun j hj => Memory.word_ofBytes_bytesOf _ _ (hwords ▸ hj), fun j hj => ?_⟩
    rw [Memory.read_ofBytes_zero, List.getD_eq_default _ _ (by rw [length_bytesOf, hwords]; omega)]

/-! ROUNDS (O49). -/

/-- A completion neither reads nor writes ROUNDS. -/
theorem complete_set_rounds (s : State) (r : Word) (x : Except CmdError CmdResult) :
    State.complete { s with rounds := r } x = { s.complete x with rounds := r } := by
  cases x with
  | error e => rfl
  | ok res => obtain ⟨_ | _, _ | _⟩ := res <;> rfl

/-- Each VariableBlock command completes from a pseudocode that does not read ROUNDS
(spec/43_variable_block.md R200, R205, R206). -/
theorem exec_eq_complete_run_ignoring_rounds {i : Instr}
    (hi : i ∈ [Instr.cryptVbEnc, .cryptVbDec, .encryptVb, .decryptVb]) :
    ∃ run : State → Except CmdError CmdResult, (∀ s, exec i s = .next (s.complete (run s))) ∧
      ∀ (s : State) (r : Word), run { s with rounds := r } = run s := by
  simp only [List.mem_cons, List.not_mem_nil, or_false] at hi
  rcases hi with rfl | rfl | rfl | rfl
  · exact ⟨runCryptVb vbEncrypt, fun _ => rfl, fun _ _ => rfl⟩
  · exact ⟨runCryptVb vbDecrypt, fun _ => rfl, fun _ _ => rfl⟩
  · exact ⟨runEncryptVb, fun _ => rfl, fun _ _ => rfl⟩
  · exact ⟨runDecryptVb, fun _ => rfl, fun _ _ => rfl⟩

/-- Settles O49: the same result is committed, and ROUNDS keeps what it holds. -/
theorem variableBlockCommandsIgnoreRounds : Obligations.VariableBlockCommandsIgnoreRounds := by
  unfold Obligations.VariableBlockCommandsIgnoreRounds
  intro s i r hi
  obtain ⟨run, hexec, hrun⟩ := exec_eq_complete_run_ignoring_rounds hi
  exact ⟨_, hexec s, by rw [hexec, hrun, complete_set_rounds]⟩

end Sys2Proof.Machine
end

section
/-! SUPPORT. The padding controller and the pipeline (O50 to O55): what PAD.* leave, each command on the bytes that another
one left, what ENCRYPT.* and DECRYPT.* leave or report, and the round trip. -/

namespace Sys2Proof.Machine

open Sys2Proof

/-! PAD.* (O50). -/

/-- The padded length of BUF[0..LEN) (spec/44_padding_pipeline.md R220). -/
theorem State.length_padTo_input (s : State) {u : Nat} (hu : 0 < u) :
    (padTo s.input u).length = u * ((s.len.toNat + (u - 1)) / u) := by
  rw [length_padTo _ hu, s.length_input]

/-- The bytes of the padded BUF[0..LEN). -/
theorem State.getD_padTo_input (s : State) (u j : Nat) :
    (padTo s.input u).getD j 0#8 = if j < s.len.toNat then s.buf.read j else 0#8 := by
  rw [getD_padTo, s.getD_input]

/-- Each of PAD.* within BUF_CAP commits BUF[0..LEN), padded to its unit (spec/44_padding_pipeline.md R221, R222). -/
theorem exec_pad_ok {i : Instr} {u : Nat} (hiu : (i = .padFb ∧ u = 8) ∨ (i = .padVb ∧ u = 4)) {s : State}
    (h : s.len.toNat ≤ s.cfg.bufCap) :
    exec i s = .next (s.finishCommand (CmdResult.ofData (padTo s.input u))) := by
  rcases hiu with ⟨rfl, rfl⟩ | ⟨rfl, rfl⟩
  · exact exec_padFb_ok h
  · exact exec_padVb_ok h

/-- Settles O50: the padded length fits, since BUF_CAP is a multiple of both units. -/
theorem padExtendsToTheNextMultiple : Obligations.PadExtendsToTheNextMultiple := by
  unfold Obligations.PadExtendsToTheNextMultiple
  refine ⟨decode_encode .padFb, decode_encode .padVb, fun s i u hvalid hiu => ?_⟩
  obtain ⟨hcap8, _⟩ := Config.valid_bounds hvalid
  obtain ⟨hnop, hsreset, hu⟩ : i ≠ .nop ∧ i ≠ .sreset ∧ 0 < u := by rcases hiu with ⟨rfl, rfl⟩ | ⟨rfl, rfl⟩ <;> decide
  refine ⟨fun h => exec_inputTooLarge h hnop hsreset, fun h =>
    ⟨Memory.ofBytes 0 (padTo s.input u), ?_, ?_, fun j => ?_⟩⟩
  · rcases hiu with ⟨_, rfl⟩ | ⟨_, rfl⟩ <;> omega
  · rw [exec_pad_ok hiu h, State.finishCommand_ofData, s.length_padTo_input hu]
    rfl
  · rw [Memory.read_ofBytes_zero, s.getD_padTo_input]

/-! Each stage of the pipeline as a command on the bytes `b` that another command left. -/

section Stage

variable {s : State} {b : List Byte} (h32 : b.length < 2 ^ 32)

include h32

theorem State.len_finishCommand_ofData : (s.finishCommand (CmdResult.ofData b)).len.toNat = b.length := by
  rw [← State.length_input, s.input_finishCommand_ofData h32]

variable (hfit : b.length ≤ s.cfg.bufCap)

include hfit

theorem State.len_finishCommand_ofData_le :
    (s.finishCommand (CmdResult.ofData b)).len.toNat ≤ (s.finishCommand (CmdResult.ofData b)).cfg.bufCap :=
  (State.len_finishCommand_ofData h32).trans_le hfit

theorem exec_cryptFbEnc_finishCommand (h8 : b.length % 8 = 0) :
    exec .cryptFbEnc (s.finishCommand (CmdResult.ofData b)) =
      .next (s.finishCommand (CmdResult.ofData (fbBytes s.key s.encryptCount b))) := by
  rw [exec_cryptFbEnc_ok (State.len_finishCommand_ofData_le h32 hfit) (by rwa [State.len_finishCommand_ofData h32]),
    s.input_finishCommand_ofData h32]
  rfl

theorem exec_cryptFbDec_finishCommand (h8 : b.length % 8 = 0) :
    exec .cryptFbDec (s.finishCommand (CmdResult.ofData b)) =
      .next (s.finishCommand (CmdResult.ofData (fbBytes s.key s.decryptCount b))) := by
  rw [exec_cryptFbDec_ok (State.len_finishCommand_ofData_le h32 hfit) (by rwa [State.len_finishCommand_ofData h32]),
    s.input_finishCommand_ofData h32]
  rfl

theorem exec_cryptVbEnc_finishCommand (h4 : b.length % 4 = 0) (h8 : 8 ≤ b.length) :
    exec .cryptVbEnc (s.finishCommand (CmdResult.ofData b)) =
      .next (s.finishCommand (CmdResult.ofData (bytesOf (vbEncrypt s.key (wordsOf b))))) := by
  rw [exec_cryptVbEnc_ok (State.len_finishCommand_ofData_le h32 hfit) (by rwa [State.len_finishCommand_ofData h32])
    (by rwa [State.len_finishCommand_ofData h32]), s.input_finishCommand_ofData h32]
  rfl

theorem exec_cryptVbDec_finishCommand (h4 : b.length % 4 = 0) (h8 : 8 ≤ b.length) :
    exec .cryptVbDec (s.finishCommand (CmdResult.ofData b)) =
      .next (s.finishCommand (CmdResult.ofData (bytesOf (vbDecrypt s.key (wordsOf b))))) := by
  rw [exec_cryptVbDec_ok (State.len_finishCommand_ofData_le h32 hfit) (by rwa [State.len_finishCommand_ofData h32])
    (by rwa [State.len_finishCommand_ofData h32]), s.input_finishCommand_ofData h32]
  rfl

theorem exec_b64enc_finishCommand (hf : (b64enc b).length ≤ s.cfg.bufCap) :
    exec .b64enc (s.finishCommand (CmdResult.ofData b)) = .next (s.finishCommand (CmdResult.ofData (b64enc b))) := by
  rw [exec_b64enc_ok (State.len_finishCommand_ofData_le h32 hfit) (by rwa [s.input_finishCommand_ofData h32]),
    s.input_finishCommand_ofData h32]
  rfl

end Stage

/-! ENCRYPT.FB (O51). -/

/-- The text of ENCRYPT.FB, as R223 counts its symbols. -/
theorem State.length_encryptFb_text (s : State) :
    (b64enc (fbBytes s.key s.encryptCount (padTo s.input 8))).length = (8 * (8 * ((s.len.toNat + 7) / 8)) + 5) / 6 := by
  have hpad := s.length_padTo_input (u := 8) (by decide)
  rw [length_b64enc, length_fbBytes _ _ (by omega), hpad]

/-- ENCRYPT.FB of a text that does not fit (spec/44_padding_pipeline.md R223). -/
theorem exec_encryptFb_textTooLarge {s : State} (h : s.len.toNat ≤ s.cfg.bufCap)
    (hf : s.cfg.bufCap < (8 * (8 * ((s.len.toNat + 7) / 8)) + 5) / 6) :
    exec .encryptFb s = .next (s.failCommand .inputTooLarge) := by
  rw [← s.length_encryptFb_text] at hf
  simp only [exec, execEncryptFb, runEncryptFb, inputTooLarge_eq, State.outputResult, Nat.not_lt.2 h, hf]
  rfl

/-- Settles O51: the three commands commit in turn what ENCRYPT.FB computes at once; each commit replaces the last. -/
theorem encryptFbIsPadCryptEncode : Obligations.EncryptFbIsPadCryptEncode := by
  unfold Obligations.EncryptFbIsPadCryptEncode
  refine ⟨decode_encode .encryptFb, fun s hvalid => ⟨fun h => ?_, fun h hf => ?_⟩⟩
  · rcases Nat.lt_or_ge s.cfg.bufCap s.len.toNat with hbig | hle
    · exact exec_inputTooLarge hbig (by decide) (by decide)
    · exact exec_encryptFb_textTooLarge hle (h.resolve_left (Nat.not_lt.2 hle))
  · obtain ⟨hcap8, _, hcap, _⟩ := Config.valid_bounds hvalid
    have hpad := s.length_padTo_input (u := 8) (by decide)
    have hcrypt := length_fbBytes s.key s.encryptCount (b := padTo s.input 8) (by omega)
    have htext := s.length_encryptFb_text.trans_le hf
    exact ⟨_, _, _, exec_padFb_ok h, exec_cryptFbEnc_finishCommand (by omega) (by omega) (by omega),
      exec_b64enc_finishCommand (by omega) (by omega) htext, rfl, exec_encryptFb_ok h htext⟩

/-! ENCRYPT.VB (O52). -/

/-- The VariableBlock engine stage on one word (spec/44_padding_pipeline.md R224, R226). -/
theorem vbStage_of_one_word (f : KeyFile → List Word → List Word) (k : KeyFile) {b : List Byte} (hb : b.length = 4) :
    vbStage f k b = .error .invalidBlockLength := by
  simp [vbStage, hb]

/-- The empty buffer has no padding. -/
theorem State.padTo_input_of_empty {s : State} (h : s.len.toNat = 0) : padTo s.input 4 = [] :=
  List.eq_nil_of_length_eq_zero (by rw [s.length_padTo_input (by decide), h])

/-- ENCRYPT.VB on a plaintext that the engine stage refuses (spec/44_padding_pipeline.md R224). -/
theorem exec_encryptVb_stageError {s : State} {e : CmdError} (h : s.len.toNat ≤ s.cfg.bufCap)
    (he : vbStage vbEncrypt s.key (padTo s.input 4) = .error e) : exec .encryptVb s = .next (s.failCommand e) := by
  simp [exec, execEncryptVb, runEncryptVb, inputTooLarge_eq, Nat.not_lt.2 h, he]

/-- ENCRYPT.VB of a text that does not fit (spec/44_padding_pipeline.md R224). -/
theorem exec_encryptVb_textTooLarge {s : State} {c : List Byte} (h : s.len.toNat ≤ s.cfg.bufCap)
    (hc : vbStage vbEncrypt s.key (padTo s.input 4) = .ok c) (hf : s.cfg.bufCap < (b64enc c).length) :
    exec .encryptVb s = .next (s.failCommand .inputTooLarge) := by
  simp only [exec, execEncryptVb, runEncryptVb, inputTooLarge_eq, State.outputResult, Nat.not_lt.2 h, hc, hf]
  rfl

/-- The text of ENCRYPT.VB, as R224 counts its symbols. -/
theorem State.length_encryptVb_text (s : State) :
    (b64enc (bytesOf (vbEncrypt s.key (wordsOf (padTo s.input 4))))).length =
      (8 * (4 * ((s.len.toNat + 3) / 4)) + 5) / 6 := by
  have hpad := s.length_padTo_input (u := 4) (by decide)
  rw [length_b64enc, length_bytesOf_transform length_vbEncrypt _ (by omega), hpad]

/-- Five bytes and more pad to two words and more. -/
theorem State.vbStage_padTo_input {s : State} (f : KeyFile → List Word → List Word) (h : 5 ≤ s.len.toNat) :
    vbStage f s.key (padTo s.input 4) = .ok (bytesOf (f s.key (wordsOf (padTo s.input 4)))) :=
  vbStage_ok _ (by rw [s.length_padTo_input (by decide)]; omega)

/-- ENCRYPT.VB on the empty plaintext gives the empty text (spec/44_padding_pipeline.md R224). -/
theorem exec_encryptVb_of_empty {s : State} (h : s.len.toNat = 0) :
    exec .encryptVb s = .next (s.finishCommand (CmdResult.ofData [])) :=
  exec_encryptVb_ok (h ▸ Nat.zero_le _) (by rw [State.padTo_input_of_empty h, vbStage_nil]) (Nat.zero_le _)

/-- Settles O52: the errors in their order, and the three commands commit in turn what ENCRYPT.VB computes at once. -/
theorem encryptVbIsPadCryptEncode : Obligations.EncryptVbIsPadCryptEncode := by
  unfold Obligations.EncryptVbIsPadCryptEncode
  refine ⟨decode_encode .encryptVb, fun s hvalid => ?_⟩
  obtain ⟨hcap8, hcap16, hcap, _⟩ := Config.valid_bounds hvalid
  have hpad := s.length_padTo_input (u := 4) (by decide)
  refine ⟨fun h0 => ⟨[], ?_, fun _ => rfl⟩, fun h => exec_inputTooLarge h (by decide) (by decide), fun h1 h4 => ?_,
    fun h5 hf => ?_, fun h5 h hf => ?_⟩
  · rw [exec_encryptVb_of_empty h0, State.finishCommand_ofData_of_length (bs := []) h0.symm]
    rfl
  · exact exec_encryptVb_stageError (by omega) (vbStage_of_one_word _ _ (by omega))
  · rcases Nat.lt_or_ge s.cfg.bufCap s.len.toNat with hbig | hle
    · exact exec_inputTooLarge hbig (by decide) (by decide)
    · exact exec_encryptVb_textTooLarge hle (State.vbStage_padTo_input _ h5) (s.length_encryptVb_text.symm ▸ hf)
  · have hcrypt := length_bytesOf_transform length_vbEncrypt s.key (b := padTo s.input 4) (by omega)
    have htext := s.length_encryptVb_text.trans_le hf
    exact ⟨_, _, _, exec_padVb_ok h, exec_cryptVbEnc_finishCommand (by omega) (by omega) (by omega) (by omega),
      exec_b64enc_finishCommand (by omega) (by omega) htext, rfl,
      exec_encryptVb_ok h (State.vbStage_padTo_input _ h5) htext⟩

/-! The codec stage of DECRYPT.* -/

/-- A byte of BUF[0..LEN) that is no symbol leaves it undecoded. -/
theorem State.b64dec_input_eq_none {s : State} (h : ∃ i < s.len.toNat, ¬isSymbol (s.buf.read i)) :
    b64dec s.input = none := by
  obtain ⟨i, hi, hn⟩ := h
  exact b64dec_eq_none_of_mem (State.read_mem_input hi) hn

/-- Where BUF[0..LEN) holds symbols alone, it decodes to floor(6 LEN / 8) bytes (spec/41_codec.md R153). -/
theorem State.b64dec_input_of_symbols {s : State} (h : ∀ i < s.len.toNat, isSymbol (s.buf.read i)) :
    ∃ c, b64dec s.input = some c ∧ c.length = 6 * s.len.toNat / 8 := by
  refine b64dec_of_inputSymbols (List.all_eq_true.2 fun c hc => ?_)
  rw [State.input_eq_map fun _ _ => rfl] at hc
  obtain ⟨i, hi, rfl⟩ := List.mem_map.1 hc
  exact isSome_idxOf_iff.2 (h i (List.mem_range.1 hi))

/-! DECRYPT.FB (O53). -/

/-- DECRYPT.FB of a text with a byte that is no symbol (spec/44_padding_pipeline.md R225). -/
theorem exec_decryptFb_decodeError {s : State} (h : s.len.toNat ≤ s.cfg.bufCap) (hd : b64dec s.input = none) :
    exec .decryptFb s = .next (s.failCommand .decodeError) := by
  simp [exec, execDecryptFb, runDecryptFb, inputTooLarge_eq, Nat.not_lt.2 h, hd]

/-- DECRYPT.FB of a text whose bytes are no whole number of blocks (spec/44_padding_pipeline.md R225). -/
theorem exec_decryptFb_invalidBufferLength {s : State} {c : List Byte} (h : s.len.toNat ≤ s.cfg.bufCap)
    (hd : b64dec s.input = some c) (h8 : c.length % 8 ≠ 0) :
    exec .decryptFb s = .next (s.failCommand .invalidBufferLength) := by
  simp [exec, execDecryptFb, runDecryptFb, inputTooLarge_eq, Nat.not_lt.2 h, hd, h8]

/-- Settles O53: the errors in their order, and both commands commit in turn what DECRYPT.FB computes at once. -/
theorem decryptFbIsDecodeCrypt : Obligations.DecryptFbIsDecodeCrypt := by
  unfold Obligations.DecryptFbIsDecodeCrypt
  refine ⟨decode_encode .decryptFb, fun s => ⟨fun h => exec_inputTooLarge h (by decide) (by decide),
    fun h hbad => exec_decryptFb_decodeError h (State.b64dec_input_eq_none hbad), fun h hsym h8 => ?_, fun h hsym h8 => ?_⟩⟩
  · obtain ⟨c, hc, hlen⟩ := State.b64dec_input_of_symbols hsym
    exact exec_decryptFb_invalidBufferLength h hc (hlen ▸ h8)
  · obtain ⟨c, hc, hlen⟩ := State.b64dec_input_of_symbols hsym
    have h32 := s.len.isLt
    have hcrypt := length_fbBytes s.key s.decryptCount (b := c) (by omega)
    refine ⟨_, _, exec_b64dec_ok h hc, exec_cryptFbDec_finishCommand (by omega) (by omega) (by omega), rfl, ?_,
      exec_decryptFb_ok h hc (by omega)⟩
    rw [State.len_finishCommand_ofData (by omega), hcrypt, hlen]

/-! DECRYPT.VB (O54). -/

/-- DECRYPT.VB of a text with a byte that is no symbol (spec/44_padding_pipeline.md R226). -/
theorem exec_decryptVb_decodeError {s : State} (h : s.len.toNat ≤ s.cfg.bufCap) (hd : b64dec s.input = none) :
    exec .decryptVb s = .next (s.failCommand .decodeError) := by
  simp [exec, execDecryptVb, runDecryptVb, inputTooLarge_eq, Nat.not_lt.2 h, hd]

/-- DECRYPT.VB of a text whose bytes are no whole number of words (spec/44_padding_pipeline.md R226). -/
theorem exec_decryptVb_invalidBufferLength {s : State} {c : List Byte} (h : s.len.toNat ≤ s.cfg.bufCap)
    (hd : b64dec s.input = some c) (h4 : c.length % 4 ≠ 0) :
    exec .decryptVb s = .next (s.failCommand .invalidBufferLength) := by
  simp [exec, execDecryptVb, runDecryptVb, inputTooLarge_eq, Nat.not_lt.2 h, hd, h4]

/-- DECRYPT.VB of a text of one word (spec/44_padding_pipeline.md R226). -/
theorem exec_decryptVb_invalidBlockLength {s : State} {c : List Byte} (h : s.len.toNat ≤ s.cfg.bufCap)
    (hd : b64dec s.input = some c) (h4 : c.length = 4) :
    exec .decryptVb s = .next (s.failCommand .invalidBlockLength) := by
  simp [exec, execDecryptVb, runDecryptVb, inputTooLarge_eq, Nat.not_lt.2 h, hd, vbStage_of_one_word _ _ h4, h4]

/-- Settles O54: the errors in their order, and both commands commit in turn what DECRYPT.VB computes at once. -/
theorem decryptVbIsDecodeCrypt : Obligations.DecryptVbIsDecodeCrypt := by
  unfold Obligations.DecryptVbIsDecodeCrypt
  refine ⟨decode_encode .decryptVb, fun s => ⟨fun h => exec_inputTooLarge h (by decide) (by decide),
    fun h hbad => exec_decryptVb_decodeError h (State.b64dec_input_eq_none hbad), fun h hsym h4 => ?_, fun h hsym h4 => ?_,
    fun h hsym h0 => ⟨[], ?_, fun _ => rfl⟩, fun h hsym h4 h8 => ?_⟩⟩ <;>
    obtain ⟨c, hc, hlen⟩ := State.b64dec_input_of_symbols hsym
  · exact exec_decryptVb_invalidBufferLength h hc (hlen ▸ h4)
  · exact exec_decryptVb_invalidBlockLength h hc (hlen.trans h4)
  · obtain rfl := List.eq_nil_of_length_eq_zero (hlen.trans h0)
    rw [exec_decryptVb_ok h hc rfl (vbStage_nil _)]
    rfl
  · have h32 := s.len.isLt
    have hcrypt := length_bytesOf_transform length_vbDecrypt s.key (b := c) (by omega)
    refine ⟨_, _, exec_b64dec_ok h hc, exec_cryptVbDec_finishCommand (by omega) (by omega) (by omega) (by omega), rfl, ?_,
      exec_decryptVb_ok h hc (by omega) (vbStage_ok _ (by omega))⟩
    rw [State.len_finishCommand_ofData (by omega), hcrypt, hlen]

/-! The round trip (O55). -/

/-- The VariableBlock engine stage of DECRYPT.VB undoes that of ENCRYPT.VB (spec/43_variable_block.md R207). -/
theorem vbStage_vbDecrypt_of_vbEncrypt {k : KeyFile} {b : List Byte} (h4 : b.length % 4 = 0) (h1 : b.length ≠ 4) :
    ∃ c, vbStage vbEncrypt k b = .ok c ∧ c.length = b.length ∧ vbStage vbDecrypt k c = .ok b := by
  rcases Nat.eq_zero_or_pos b.length with h0 | hpos
  · obtain rfl := List.eq_nil_of_length_eq_zero h0
    exact ⟨[], rfl, rfl, rfl⟩
  · have hlen := length_bytesOf_transform length_vbEncrypt k h4
    have hwords : 2 ≤ (wordsOf b).length := by rw [length_wordsOf]; omega
    refine ⟨_, vbStage_ok k (by omega), hlen, ?_⟩
    rw [vbStage_ok k (by omega), wordsOf_bytesOf, variableBlockDecryptionInvertsEncryption k _ hwords, bytesOf_wordsOf h4]

/-- DECRYPT.FB after ENCRYPT.FB leaves what PAD.FB leaves (spec/44_padding_pipeline.md R228). -/
theorem exec_decryptFb_after_encryptFb {s : State} (hvalid : s.cfg.valid = true) (h : s.len.toNat ≤ s.cfg.bufCap)
    (hf : (8 * (8 * ((s.len.toNat + 7) / 8)) + 5) / 6 ≤ s.cfg.bufCap) :
    ∃ t, exec .encryptFb s = .next t ∧
      exec .decryptFb t = .next (s.finishCommand (CmdResult.ofData (padTo s.input 8))) := by
  obtain ⟨_, _, hcap, _⟩ := Config.valid_bounds hvalid
  have hpad := s.length_padTo_input (u := 8) (by decide)
  have hcrypt := length_fbBytes s.key s.encryptCount (b := padTo s.input 8) (by omega)
  have htext := s.length_encryptFb_text.trans_le hf
  have hdec := congrArg b64dec (s.input_finishCommand_ofData (htext.trans_lt (by omega)))
  rw [b64dec_b64enc] at hdec
  refine ⟨_, exec_encryptFb_ok h htext, ?_⟩
  rw [exec_decryptFb_ok (State.len_finishCommand_ofData_le (by omega) htext) hdec (by omega)]
  exact congrArg (fun b => Host.Outcome.next (s.finishCommand (CmdResult.ofData b)))
    (s.fbBytes_decryptCount_encryptCount (by omega))

/-- DECRYPT.VB after ENCRYPT.VB leaves what PAD.VB leaves (spec/44_padding_pipeline.md R228). -/
theorem exec_decryptVb_after_encryptVb {s : State} (hvalid : s.cfg.valid = true) (h : s.len.toNat ≤ s.cfg.bufCap)
    (hlen : s.len.toNat = 0 ∨ 5 ≤ s.len.toNat) (hf : (8 * (4 * ((s.len.toNat + 3) / 4)) + 5) / 6 ≤ s.cfg.bufCap) :
    ∃ t, exec .encryptVb s = .next t ∧
      exec .decryptVb t = .next (s.finishCommand (CmdResult.ofData (padTo s.input 4))) := by
  obtain ⟨_, _, hcap, _⟩ := Config.valid_bounds hvalid
  have hpad := s.length_padTo_input (u := 4) (by decide)
  obtain ⟨c, hc, hclen, hback⟩ := vbStage_vbDecrypt_of_vbEncrypt (k := s.key) (b := padTo s.input 4) (by omega) (by omega)
  have htext : (b64enc c).length ≤ s.cfg.bufCap := by rwa [length_b64enc, hclen, hpad]
  have hdec := congrArg b64dec (s.input_finishCommand_ofData (htext.trans_lt (by omega)))
  rw [b64dec_b64enc] at hdec
  refine ⟨_, exec_encryptVb_ok h hc htext, ?_⟩
  rw [exec_decryptVb_ok (State.len_finishCommand_ofData_le (by omega) htext) hdec (by omega) hback]
  rfl

/-- Settles O55: both variants leave the padded plaintext as PAD.* does. -/
theorem pipelineRoundTripLeavesThePaddedPlaintext : Obligations.PipelineRoundTripLeavesThePaddedPlaintext := by
  unfold Obligations.PipelineRoundTripLeavesThePaddedPlaintext
  intro s enc dec u hvalid h hvariant hf
  obtain ⟨hcap8, _, hcap, _⟩ := Config.valid_bounds hvalid
  have hleaves : (padTo s.input u).length < 2 ^ 32 ∧ 0 < u ∧ ∃ t, exec enc s = .next t ∧
      exec dec t = .next (s.finishCommand (CmdResult.ofData (padTo s.input u))) := by
    rcases hvariant with ⟨rfl, rfl, rfl⟩ | ⟨rfl, rfl, rfl, hlen⟩
    · exact ⟨by rw [s.length_padTo_input (by decide)]; omega, by decide, exec_decryptFb_after_encryptFb hvalid h hf⟩
    · exact ⟨by rw [s.length_padTo_input (by decide)]; omega, by decide, exec_decryptVb_after_encryptVb hvalid h hlen hf⟩
  obtain ⟨h32, hu, t, henc, hdec⟩ := hleaves
  refine ⟨t, _, henc, hdec, rfl, ?_, fun j => ?_⟩
  · rw [State.len_finishCommand_ofData h32, s.length_padTo_input hu]
  · rw [State.finishCommand_ofData, Memory.read_ofBytes_zero, s.getD_padTo_input]

end Sys2Proof.Machine
end

section
/-! SUPPORT. The SRESET write and the completion of NOP (O11, O33). -/

namespace Sys2Proof.Machine

open Sys2Proof

/-! The control commands (O11, O33). -/

/-- The host's access is made with the parameters that the block had before the turn. -/
theorem HostAccesses.cfg_eq {s s1 : State} {a : BusAccess} (h : HostAccesses s a s1) : s1.cfg = s.cfg := by
  obtain ⟨s0, _, hturn, _, _, rfl⟩ := h
  obtain rfl := eq_of_nextTurn hturn
  rfl

/-- A host write of the SRESET word to CMD is the reset of the whole block, in the same step (spec/10_state.md R36). -/
theorem step_of_sresetWrite {s s1 : State} (h : HostAccesses s (.write s.cfg.base .w32 0x00000009#32) s1) :
    step s = .next s1.blockReset :=
  calc step s = memWrite s1 (regOffset .cmd) .w32 0x00000009#32 := by
        rw [step_of_hostAccesses h, ← h.cfg_eq]
        rfl
    _ = .next (cmdWrite s1 0x00000009#32) := memWrite_reg s1 .cmd _
    _ = .next s1.blockReset := by rw [cmdWrite_sreset]

@[simp] theorem Status.word_reset : Status.reset.word = 0#32 := by decide

@[simp] theorem IrqEnable.word_reset : IrqEnable.reset.word = 0#32 := by decide

/-- After a reset no STATUS bit is set, so nothing raises `irq` (spec/10_state.md R44). -/
@[simp] theorem State.irq_blockReset (s : State) : s.blockReset.irq = false := rfl

/-- Settles O11: the write's step is the block's reset, whatever BUSY is, and every field reads its reset value. -/
theorem sresetWriteResetsInItsOwnStep : Obligations.SresetWriteResetsInItsOwnStep := by
  unfold Obligations.SresetWriteResetsInItsOwnStep
  intro s s1 haccess
  refine ⟨s1.blockReset, step_of_sresetWrite haccess, exec_sreset s1, s1.blockReset_cmdLatch, ?_, s1.blockReset_rounds,
    s1.blockReset_len, s1.blockReset_key, ?_, fun i => ?_, s1.irq_blockReset, rfl⟩
  · rw [State.blockReset_status, Status.word_reset]
  · rw [State.blockReset_irqen, IrqEnable.word_reset]
  · rw [State.blockReset_buf, Memory.read_nil]

/-- NOP's completion writes neither KEY nor BUF and LEN: its result is empty (spec/45_control.md R250). -/
theorem exec_nop (s : State) : exec .nop s = .next { s with status := s.status.succeeded } := rfl

/-- Settles O33: NOP has no check to fail, and STATUS after its success is the stated one. -/
theorem nopCompletesWithNoEffect : Obligations.NopCompletesWithNoEffect := by
  unfold Obligations.NopCompletesWithNoEffect
  exact ⟨decode_encode .nop, exec_nop⟩

end Sys2Proof.Machine
end

section
/-! SUPPORT. The errors a command reports (O30, O31), and the steps that clear WERR (O27). -/

namespace Sys2Proof.Machine

open Sys2Proof

/-! The error codes (O30). -/

/-- Settles O30: the codes of R261's table. -/
theorem errorCodesAreNumbered : Obligations.ErrorCodesAreNumbered := by
  unfold Obligations.ErrorCodesAreNumbered
  exact ⟨rfl, rfl, rfl, rfl, rfl, rfl⟩

/-! The first error of each command (O31). -/

/-- The error reported is the one listed first if that applies, and else comes from the rest of the list. -/
theorem ite_some_eq_some {p : Prop} [Decidable p] {e e' : CmdError} {o : Option CmdError} :
    (if p then some e else o) = some e' ↔ (p ∧ e = e') ∨ (¬p ∧ o = some e') := by
  split <;> simp_all

/-- LEN > BUF_CAP comes first in the list of every command that reads BUF (spec/60_exceptions.md R265). -/
theorem expectedError_of_inputTooLarge {i : Instr} {s : State} (h : s.cfg.bufCap < s.len.toNat) (hn : i ≠ .nop)
    (hs : i ≠ .sreset) : expectedError i s = some .inputTooLarge := by
  cases i with
  | nop | sreset => contradiction
  | _ => exact if_pos h

/-- A byte of BUF[0..LEN) that is no symbol leaves it undecoded. -/
theorem b64dec_of_not_inputSymbols {s : State} (h : s.inputSymbols = false) : b64dec s.input = none := by
  rw [← Option.not_isSome_iff_eq_none, b64dec_isSome, Bool.not_eq_true]
  exact h

/-- Each of CRYPT.FB.* on a length that is no whole number of blocks (spec/42_fixed_block.md R186, R187). -/
theorem exec_cryptFb_invalidBufferLength {i : Instr} (hi : i = .cryptFbEnc ∨ i = .cryptFbDec) {s : State}
    (h : s.len.toNat ≤ s.cfg.bufCap) (h8 : s.len.toNat % 8 ≠ 0) :
    exec i s = .next (s.failCommand .invalidBufferLength) := by
  rcases hi with rfl | rfl
  · rw [exec_cryptFbEnc_eq, runCryptFb_invalidBufferLength h h8, State.complete_error]
  · rw [exec_cryptFbDec_eq, runCryptFb_invalidBufferLength h h8, State.complete_error]

/-- ENCRYPT.VB of a text that does not fit, from LEN alone; the empty plaintext's text always fits
(spec/44_padding_pipeline.md R224). -/
theorem exec_encryptVb_longText {s : State} (h : s.len.toNat ≤ s.cfg.bufCap)
    (hshort : ¬(1 ≤ s.len.toNat ∧ s.len.toNat ≤ 4)) (hf : s.cfg.bufCap < (8 * (4 * ((s.len.toNat + 3) / 4)) + 5) / 6) :
    exec .encryptVb s = .next (s.failCommand .inputTooLarge) :=
  exec_encryptVb_textTooLarge h (State.vbStage_padTo_input _ (by omega)) (s.length_encryptVb_text.symm ▸ hf)

/-- Each of CRYPT.VB.* reports the error of a length that is no whole number of words, or of fewer than two
(spec/43_variable_block.md R204 to R206). -/
theorem exec_cryptVb_lengthError {i : Instr} {f : KeyFile → List Word → List Word}
    (hif : (i = .cryptVbEnc ∧ f = vbEncrypt) ∨ (i = .cryptVbDec ∧ f = vbDecrypt)) {s : State} {e : CmdError}
    (hle : s.len.toNat ≤ s.cfg.bufCap)
    (h : s.len.toNat % 4 ≠ 0 ∧ .invalidBufferLength = e ∨
      (s.len.toNat = 0 ∨ s.len.toNat = 4) ∧ .invalidBlockLength = e) :
    exec i s = .next (s.failCommand e) := by
  rw [(exec_cryptVb_eq hif).2]
  rcases h with ⟨h4, rfl⟩ | ⟨h04, rfl⟩
  · rw [runCryptVb_invalidBufferLength f hle h4, State.complete_error]
  · rw [runCryptVb_invalidBlockLength f hle h04, State.complete_error]

/-- A command with an error to report completes with that error (spec/60_exceptions.md R262, R265). -/
theorem exec_of_expectedError_some {i : Instr} {s : State} {e : CmdError} (h : expectedError i s = some e) :
    exec i s = .next (s.failCommand e) := by
  by_cases hns : i = .nop ∨ i = .sreset
  · rcases hns with rfl | rfl <;> cases h
  obtain ⟨hn, hs⟩ := not_or.1 hns
  rcases Nat.lt_or_ge s.cfg.bufCap s.len.toNat with hbig | hle
  · obtain rfl := Option.some.inj ((expectedError_of_inputTooLarge hbig hn hs).symm.trans h)
    exact exec_inputTooLarge hbig hn hs
  cases i <;> simp only [expectedError, if_neg (Nat.not_lt.2 hle), ite_some_eq_some,
    Option.ite_none_left_eq_some, Option.some.injEq, reduceCtorEq, and_false, or_false] at h
  case keytake =>
    obtain ⟨h16, rfl⟩ := h
    exact exec_keytake_missingKeyMaterial hle h16
  case cryptFbEnc =>
    obtain ⟨h8, rfl⟩ := h
    exact exec_cryptFb_invalidBufferLength (.inl rfl) hle h8
  case cryptFbDec =>
    obtain ⟨h8, rfl⟩ := h
    exact exec_cryptFb_invalidBufferLength (.inr rfl) hle h8
  case cryptVbEnc => exact exec_cryptVb_lengthError (.inl ⟨rfl, rfl⟩) hle (h.imp_right And.right)
  case cryptVbDec => exact exec_cryptVb_lengthError (.inr ⟨rfl, rfl⟩) hle (h.imp_right And.right)
  case b64enc =>
    obtain ⟨hf, rfl⟩ := h
    exact exec_b64enc_textTooLarge hle hf
  case b64dec =>
    obtain ⟨hbad, rfl⟩ := h
    exact exec_b64dec_decodeError hle (b64dec_of_not_inputSymbols (by simpa using hbad))
  case encryptFb =>
    obtain ⟨hf, rfl⟩ := h
    exact exec_encryptFb_textTooLarge hle hf
  case encryptVb =>
    rcases h with ⟨hone, rfl⟩ | ⟨hshort, hf, rfl⟩
    · have hpad := s.length_padTo_input (u := 4) (by decide)
      exact exec_encryptVb_stageError hle (vbStage_of_one_word _ _ (by omega))
    · exact exec_encryptVb_longText hle hshort hf
  case decryptFb =>
    rcases h with ⟨hbad, rfl⟩ | ⟨hsym, h8, rfl⟩
    · exact exec_decryptFb_decodeError hle (b64dec_of_not_inputSymbols (by simpa using hbad))
    · obtain ⟨c, hc, hlen⟩ := b64dec_of_inputSymbols (s := s) (by simpa using hsym)
      exact exec_decryptFb_invalidBufferLength hle hc (hlen ▸ h8)
  case decryptVb =>
    rcases h with ⟨hbad, rfl⟩ | ⟨hsym, h⟩
    · exact exec_decryptVb_decodeError hle (b64dec_of_not_inputSymbols (by simpa using hbad))
    · obtain ⟨c, hc, hlen⟩ := b64dec_of_inputSymbols (s := s) (by simpa using hsym)
      rcases h with ⟨h4, rfl⟩ | ⟨_, hone, rfl⟩
      · exact exec_decryptVb_invalidBufferLength hle hc (hlen ▸ h4)
      · exact exec_decryptVb_invalidBlockLength hle hc (hlen.trans hone)

/-- Settles O31: the completion with the error listed first, and the success where none is listed. -/
theorem eachCommandReportsItsFirstError : Obligations.EachCommandReportsItsFirstError := by
  unfold Obligations.EachCommandReportsItsFirstError
  refine fun i s hs => ⟨fun e h => exec_of_expectedError_some h, fun h => ?_⟩
  obtain ⟨r, hr⟩ := exec_of_expectedError_none hs h
  exact ⟨_, hr, finishCommand_status s r⟩

/-! WERR (O27). -/

/-- A legal write that clears WERR is SRESET's or one to STATUS with bit 3 set; every other one sets WERR or leaves it
(spec/60_exceptions.md R264). -/
theorem writeTarget_clears_werr {s : State} {w : Width} {x : Word} {g : Target} (hset : s.status.werr = true)
    (hclear : (writeTarget s w x g).status.werr = false) :
    (g = .reg .cmd ∧ x = 0x00000009#32) ∨ (g = .reg .status ∧ x.getLsbD 3 = true) := by
  rcases writeTarget_cases s w x g with
    ⟨hg, hx, _⟩ | ⟨_, e⟩ | ⟨_, _, _, e⟩ | ⟨hg, e⟩ | ⟨_, e⟩ | ⟨_, ⟨_, e⟩ | ⟨_, e⟩ | ⟨_, _, e⟩ | ⟨_, _, e⟩⟩ | ⟨_, e⟩
  · exact .inl ⟨hg, hx⟩
  · simp [e] at hclear
  · simp [e, hset] at hclear
  · exact .inr ⟨hg, by simpa [e, hset] using hclear⟩
  all_goals simp [e, hset] at hclear

/-- A host access that clears WERR is the SRESET write or a STATUS write with bit 3 set. -/
theorem hostAccess_clears_werr {s t : State} {a : BusAccess} (h : hostAccess s a = .next t)
    (hset : s.status.werr = true) (hclear : t.status.werr = false) :
    a = .write s.cfg.base .w32 0x00000009#32 ∨
    ∃ x : Word, a = .write (s.cfg.base + 0x004) .w32 x ∧ x.getLsbD 3 = true := by
  rcases hostAccess_cases h with ⟨_, w, g, _, _, _, _, rfl⟩ | ⟨addr, w, x, g, rfl, hbase, _, hg, rfl⟩
  · obtain ⟨n, hn⟩ := readTarget_frame s w g
    simp [hn, hset] at hclear
  · rcases writeTarget_clears_werr hset hclear with ⟨rfl, rfl⟩ | ⟨rfl, hx⟩ <;>
      obtain ⟨rfl, rfl⟩ := access_of_busTarget_reg hbase hg
    · exact .inl rfl
    · exact .inr ⟨x, rfl, hx⟩

/-- No command but SRESET changes WERR, whether it succeeds or fails (spec/60_exceptions.md R262, R266). -/
theorem exec_werr {i : Instr} {s t : State} (hs : i ≠ .sreset) (h : exec i s = .next t) :
    t.status.werr = s.status.werr := by
  obtain ⟨r, hr⟩ := exec_complete i hs s
  cases hr.symm.trans h
  exact (complete_status s r).2

/-- The engine's step leaves WERR, unless SRESET is latched, which the invariant excludes. -/
theorem engineStep_werr {s t : State} (hinv : s.Inv) (h : engineStep s = .next t) :
    t.status.werr = s.status.werr := by
  rcases engineStep_cases h with ⟨_, rfl⟩ | ⟨hb, i, hd, hx⟩ | ⟨_, e, _, rfl⟩
  · rfl
  · refine exec_werr ?_ hx
    rintro rfl
    exact hinv.pending_not_sreset hb (eq_encode_of_decode hd)
  · rfl

/-- Settles O27: of the three agents' steps, the platform's reset and a host access of the two kinds clear WERR. -/
theorem werrClearsOnlyByHostClearOrReset : Obligations.WerrClearsOnlyByHostClearOrReset := by
  unfold Obligations.WerrClearsOnlyByHostClearOrReset
  intro s t hinv h hset hclear
  obtain ⟨s0, as, rfl, ⟨hturn, _⟩ | ⟨hturn, _⟩ | ⟨_, hengine⟩⟩ := step_cases h
  · exact .inl ⟨_, hturn⟩
  · rcases step_host_cases hturn h with ⟨n, rfl⟩ | ⟨a, s1, hacc, rfl, ha⟩
    · simp [hset] at hclear
    · rcases hostAccess_clears_werr ha hset hclear with rfl | ⟨x, rfl, hx⟩
      · exact .inr (.inl ⟨_, hacc⟩)
      · exact .inr (.inr ⟨_, x, hacc, hx⟩)
  · have hkeep := engineStep_werr (s := { s with sched := as }) (hinv.congr rfl rfl rfl rfl) hengine
    simp [hkeep, hset] at hclear

end Sys2Proof.Machine
end

section
/-! SUPPORT. The reset state (O8), and the two resets (O10). -/

namespace Sys2Proof.Machine

open Sys2Proof

/-- The reset state is its own reset. -/
theorem blockReset_resetWith (c : Config) : (State.resetWith c).blockReset = State.resetWith c := rfl

/-- Settles O8: every reset brings the invariant, and the standard parameters are legal. -/
theorem resetStateMeetsTheInvariant : Obligations.ResetStateMeetsTheInvariant := by
  unfold Obligations.ResetStateMeetsTheInvariant
  have hreset : ∀ c : Config, c.valid = true → (State.resetWith c).Inv := fun c hc =>
    blockReset_resetWith c ▸ State.inv_blockReset hc
  exact ⟨hreset Config.standard (by decide), hreset⟩

/-- Settles O10: SRESET's effect and that of an `rst` turn are the block's reset, and every field reads its reset
value. -/
theorem bothResetsLeaveTheStatedValues : Obligations.BothResetsLeaveTheStatedValues := by
  unfold Obligations.BothResetsLeaveTheStatedValues
  intro s
  have hrst : step { s with sched := .rst :: s.sched } = .next s.blockReset := step_of_rst (nextTurn_cons rfl)
  refine ⟨s.blockReset, exec_sreset s, hrst, s.blockReset_cmdLatch, ?_, rfl, s.blockReset_rounds, s.blockReset_len,
    s.blockReset_key, ?_, fun i => ?_, s.irq_blockReset, memRead_reg_of_not_drawn _ (r := .cap) rfl,
    memRead_reg_of_not_drawn _ (r := .id) rfl, rfl⟩
  · rw [State.blockReset_status, Status.word_reset]
  · rw [State.blockReset_irqen, IrqEnable.word_reset]
  · rw [State.blockReset_buf, Memory.read_nil]

end Sys2Proof.Machine
end

section
/-! SUPPORT. The BUSY lock (O22 to O24, O26): which targets it holds, and what it makes of a write and of a read. -/

namespace Sys2Proof.Machine

open Sys2Proof

/-! The locked targets, and their offsets. -/

/-- What a host may not write while BUSY = 1 (spec/70_reset_and_hazards.md R294). -/
def Target.locked : Target → Bool
  | .reg .cmd | .reg .rounds | .reg .len | .reg .key0 | .reg .key1 | .reg .key2 | .reg .key3 => true
  | .reg .status | .reg .irqen | .reg .cap | .reg .id => false
  | .buf _ => true

/-- What a host may not read while BUSY = 1 (spec/70_reset_and_hazards.md R295). -/
def Target.drawn : Target → Bool
  | .reg r => drawnWhileBusy r
  | .buf _ => true

section
variable {c : Config} {off : Nat} {w : Width} {g : Target} (hg : busTarget c off w = some g)

include hg

theorem lockedForWrite_iff : lockedForWrite off ↔ g.locked = true := by
  rcases busTarget_cases hg with ⟨r, rfl, rfl, _⟩ | ⟨i, rfl, rfl, _⟩
  · unfold lockedForWrite
    cases r <;> decide
  · simp [lockedForWrite, Target.locked]

theorem lockedForRead_iff : lockedForRead off ↔ g.drawn = true := by
  rcases busTarget_cases hg with ⟨r, rfl, rfl, _⟩ | ⟨i, rfl, rfl, _⟩
  · unfold lockedForRead
    cases r <;> decide
  · simp [lockedForRead, Target.drawn]

/-- CMD alone stands at offset 0. -/
theorem target_eq_cmd_iff : g = .reg .cmd ↔ off = 0 := by
  rcases busTarget_cases hg with ⟨r, rfl, rfl, _⟩ | ⟨i, rfl, rfl, _⟩
  · cases r <;> decide
  · simp

end

/-! A locked and an unlocked write. -/

/-- While BUSY = 1 a locked write other than SRESET's is dropped. -/
theorem writeTarget_of_locked {s : State} (hb : s.status.busy = true) (w : Width) {x : Word} {g : Target}
    (hlock : g.locked = true) (hx : g = .reg .cmd → x ≠ 0x00000009#32) : writeTarget s w x g = s.dropWrite := by
  have hdrop : ∀ u, lockedWrite s u = s.dropWrite := fun u => if_pos hb
  cases g with
  | buf i => exact hdrop _
  | reg r =>
    cases r with
    | cmd => exact cmdWrite_of_busy (hx rfl) hb
    | rounds | len | key0 | key1 | key2 | key3 => exact hdrop _
    | status | irqen | cap | id => cases hlock

/-- A write under no lock does not set WERR, at any BUSY value. -/
theorem writeTarget_werr_of_not_locked {s : State} (w : Width) (x : Word) {g : Target} (hfree : g.locked = false)
    (hclear : s.status.werr = false) : (writeTarget s w x g).status.werr = false := by
  cases g with
  | buf i => cases hfree
  | reg r =>
    cases r with
    | cmd | rounds | len | key0 | key1 | key2 | key3 => cases hfree
    | status => simp [writeTarget, writeReg, hclear]
    | irqen | cap | id => exact hclear

/-- No write sets WERR while idle. -/
theorem writeTarget_werr_of_idle {s : State} (hidle : s.status.busy = false) (w : Width) (x : Word) (g : Target)
    (hclear : s.status.werr = false) : (writeTarget s w x g).status.werr = false := by
  rcases writeTarget_cases s w x g with
    ⟨_, _, e⟩ | ⟨hb, _⟩ | ⟨_, _, _, e⟩ | ⟨_, e⟩ | ⟨_, e⟩ | ⟨_, ⟨_, e⟩ | ⟨_, e⟩ | ⟨_, _, e⟩ | ⟨_, _, e⟩⟩ | ⟨_, e⟩
  · rw [e]
    rfl
  · simp [hidle] at hb
  all_goals simp [e, hclear]

/-- A write takes no draw. -/
theorem writeTarget_drawCount (s : State) (w : Width) (x : Word) (g : Target) :
    (writeTarget s w x g).drawCount = s.drawCount := by
  rcases writeTarget_cases s w x g with
    ⟨_, _, e⟩ | ⟨_, e⟩ | ⟨_, _, _, e⟩ | ⟨_, e⟩ | ⟨_, e⟩ | ⟨_, ⟨_, e⟩ | ⟨_, e⟩ | ⟨_, _, e⟩ | ⟨_, _, e⟩⟩ | ⟨_, e⟩ <;>
    rw [e] <;> rfl

/-! A drawn and an undrawn read. -/

theorem readTarget_of_drawn {s : State} (hb : s.status.busy = true) (w : Width) {g : Target} (hdrawn : g.drawn = true) :
    readTarget s w g = drawRead s w := by
  cases g with
  | buf i => exact if_pos hb
  | reg r => exact if_pos (Bool.and_eq_true_iff.2 ⟨hb, hdrawn⟩)

/-- A read that the lock does not hold leaves the state. -/
theorem readTarget_of_not_drawn {s : State} (w : Width) {g : Target} (h : s.status.busy = true → g.drawn = false) :
    (readTarget s w g).2 = s := by
  rcases readTarget_cases s w g with e | ⟨hb, _⟩
  · exact e
  · cases g with
    | buf i => cases h hb
    | reg r => simp [readTarget, show drawnWhileBusy r = false from h hb]

/-- A draw is cut to the access's width. -/
theorem toNat_truncateTo (w : Width) (v : Word) : (truncateTo w v).toNat = v.toNat % 2 ^ (8 * widthBytes w) := by
  cases w with
  | w8 => simp only [truncateTo, widthBytes, BitVec.toNat_setWidth]; omega
  | w16 => simp only [truncateTo, widthBytes, BitVec.toNat_setWidth]; omega
  | w32 => exact (Nat.mod_eq_of_lt v.isLt).symm

/-! Locked accesses while BUSY = 1 (O22, O23). -/

/-- What a write that completes reaches. -/
theorem exists_target_of_memWrite {s t : State} {off : Nat} {w : Width} {x : Word} (h : memWrite s off w x = .next t) :
    ∃ g, busTarget s.cfg off w = some g ∧ t = writeTarget s w x g := by
  rcases hostAccess_cases h with ⟨_, _, _, ha, _⟩ | ⟨_, _, _, g, ha, _, _, hg, ht⟩
  · cases ha
  · cases ha
    rw [Nat.add_sub_cancel_left] at hg
    exact ⟨g, hg, ht⟩

/-- What a read that completes reaches. -/
theorem exists_target_of_memRead {s t : State} {off : Nat} {w : Width} (h : memRead s off w = .next t) :
    ∃ g, busTarget s.cfg off w = some g ∧
      t = { (readTarget s w g).2 with scratch := (readTarget s w g).1 } := by
  rcases hostAccess_cases h with ⟨_, _, g, ha, _, _, hg, ht⟩ | ⟨_, _, _, _, ha, _⟩
  · cases ha
    rw [Nat.add_sub_cancel_left] at hg
    exact ⟨g, hg, ht⟩
  · cases ha

/-- Every offset that may not be read while BUSY = 1 may not be written either. -/
theorem lockedForWrite_of_lockedForRead {off : Nat} (h : lockedForRead off) : lockedForWrite off := by
  unfold lockedForRead at h
  unfold lockedForWrite
  omega

/-- An access to a locked offset that is legal there completes (spec/20_memory.md R71, R72). -/
theorem lockedAccess_completes {s : State} {off : Nat} {w : Width} (hvalid : s.cfg.valid = true)
    (hlock : lockedForWrite off) (hreg : off < 0x10000 → w = .w32)
    (hbuf : 0x10000 ≤ off → (off - 0x10000) % widthBytes w = 0 ∧ off - 0x10000 + widthBytes w ≤ s.cfg.bufCap)
    (x : Word) : (∃ t, memRead s off w = .next t) ∧ ∃ t, memWrite s off w x = .next t := by
  refine legalAccessesComplete s off w x hvalid ?_
  rcases Nat.lt_or_ge off 0x10000 with hlt | hge
  · unfold lockedForWrite at hlock
    exact .inl ⟨by omega, hreg hlt, by omega⟩
  · exact .inr ⟨hge, hbuf hge⟩

/-- Settles O22: the legal write reaches a locked target and is dropped; STATUS and IRQEN are under no lock. -/
theorem busyWritesAreDroppedWithWerr : Obligations.BusyWritesAreDroppedWithWerr := by
  unfold Obligations.BusyWritesAreDroppedWithWerr
  intro s off w x hvalid hb
  refine ⟨fun hlock hreg hcmd hbuf => ?_, ⟨_, memWrite_status s x, rfl⟩,
    ⟨_, memWrite_reg s .irqen x, rfl, IrqEnable.word_ofWord x⟩⟩
  obtain ⟨_, t, ht⟩ := lockedAccess_completes hvalid hlock hreg hbuf x
  obtain ⟨g, hg, rfl⟩ := exists_target_of_memWrite ht
  rw [ht, writeTarget_of_locked hb w ((lockedForWrite_iff hg).1 hlock) fun h => hcmd ((target_eq_cmd_iff hg).1 h)]
  rfl

/-- Settles O23: the legal read reaches a drawn target and is the next draw; the other registers read their values. -/
theorem busyReadsAreDraws : Obligations.BusyReadsAreDraws := by
  unfold Obligations.BusyReadsAreDraws
  intro s off w hvalid hb
  refine ⟨fun hlock hreg hbuf => ?_, memRead_reg_of_not_drawn s (r := .cmd) rfl,
    memRead_reg_of_not_drawn s (r := .status) rfl, memRead_reg_of_not_drawn s (r := .rounds) rfl,
    memRead_reg_of_not_drawn s (r := .irqen) rfl, memRead_reg_of_not_drawn s (r := .cap) rfl,
    memRead_reg_of_not_drawn s (r := .id) rfl⟩
  obtain ⟨⟨t, ht⟩, _⟩ := lockedAccess_completes hvalid (lockedForWrite_of_lockedForRead hlock) hreg hbuf 0#32
  obtain ⟨g, hg, rfl⟩ := exists_target_of_memRead ht
  rw [ht, readTarget_of_drawn hb w ((lockedForRead_iff hg).1 hlock)]
  exact ⟨_, rfl, toNat_truncateTo w _⟩

/-! Host steps while BUSY = 1 (O24), and a host that keeps its obligation (O26). -/

/-- Settles O24: a host step is the SRESET write, or leaves the command pending on its inputs. -/
theorem hostStepsKeepPendingInputs : Obligations.HostStepsKeepPendingInputs := by
  unfold Obligations.HostStepsKeepPendingInputs
  intro s s0 t hturn hb hstep
  rcases step_host_keepsPending hturn hb hstep with hreset | ⟨hkeeps, _⟩
  · exact .inr hreset
  · exact .inl ⟨hkeeps.key, hkeeps.buf, hkeeps.len, hkeeps.rounds, hkeeps.cmdLatch, hkeeps.busy⟩

/-- An access that keeps the obligation of R297 takes no draw and sets no WERR. -/
theorem hostAccess_of_keepsObligation {s t : State} {a : BusAccess} (hkeeps : keepsObligation s a)
    (h : hostAccess s a = .next t) :
    t.drawCount = s.drawCount ∧ (s.status.werr = false → t.status.werr = false) := by
  rcases hostAccess_cases h with ⟨addr, w, g, rfl, _, _, hg, rfl⟩ | ⟨addr, w, x, g, rfl, _, _, hg, rfl⟩
  · have hfree : s.status.busy = true → g.drawn = false := fun hb =>
      Bool.eq_false_iff.2 (mt (lockedForRead_iff hg).2 (hkeeps hb))
    rw [readTarget_of_not_drawn w hfree]
    exact ⟨rfl, id⟩
  · refine ⟨writeTarget_drawCount s w x g, fun hclear => ?_⟩
    cases hb : s.status.busy with
    | false => exact writeTarget_werr_of_idle hb w x g hclear
    | true =>
      rcases hkeeps hb with hfree | ⟨rfl, rfl⟩
      · exact writeTarget_werr_of_not_locked w x (Bool.eq_false_iff.2 (mt (lockedForWrite_iff hg).2 hfree)) hclear
      · obtain rfl := (target_eq_cmd_iff hg).2 (Nat.sub_self _)
        rfl

/-- Settles O26: the step is the access, which the obligation keeps off the lock. -/
theorem obligedHostLosesNoWriteAndReadsNoDraw : Obligations.ObligedHostLosesNoWriteAndReadsNoDraw := by
  unfold Obligations.ObligedHostLosesNoWriteAndReadsNoDraw
  intro s s1 t a _ haccess hkeeps hstep
  rw [step_of_hostAccesses haccess] at hstep
  obtain ⟨s0, _, hturn, _, _, rfl⟩ := haccess
  obtain rfl := eq_of_nextTurn hturn
  exact (hostAccess_of_keepsObligation hkeeps hstep :)

end Sys2Proof.Machine
end

section
/-! SUPPORT. With no reset and no stop to come, the pending command is completed (O25): what a run keeps of the two
agents, and that a legal program does not stop the host. -/

namespace Sys2Proof.Machine

open Sys2Proof

/-! What a step and a run keep of the agents. -/

/-- In `t` the host has its program of `s`, and the turns to come are those of `s`. -/
structure KeepsAgents (s t : State) : Prop where
  prog : t.prog = s.prog
  sched : t.sched = s.sched

theorem writeTarget_keepsAgents (s : State) (w : Width) (x : Word) (g : Target) :
    KeepsAgents s (writeTarget s w x g) := by
  rcases writeTarget_cases s w x g with
    ⟨_, _, e⟩ | ⟨_, e⟩ | ⟨_, _, _, e⟩ | ⟨_, e⟩ | ⟨_, e⟩ | ⟨_, ⟨_, e⟩ | ⟨_, e⟩ | ⟨_, _, e⟩ | ⟨_, _, e⟩⟩ | ⟨_, e⟩ <;>
    rw [e] <;> exact ⟨rfl, rfl⟩

theorem hostAccess_keepsAgents {s t : State} {a : BusAccess} (h : hostAccess s a = .next t) : KeepsAgents s t := by
  rcases hostAccess_cases h with ⟨_, w, g, _, _, _, _, rfl⟩ | ⟨_, w, x, g, _, _, _, _, rfl⟩
  · obtain ⟨n, hn⟩ := readTarget_frame s w g
    rw [hn]
    exact ⟨rfl, rfl⟩
  · exact writeTarget_keepsAgents s w x g

theorem exec_keepsAgents {i : Instr} {s t : State} (h : exec i s = .next t) : KeepsAgents s t := by
  by_cases hs : i = .sreset
  · subst hs
    cases h
    exact ⟨rfl, rfl⟩
  · obtain ⟨r, hr⟩ := exec_complete i hs s
    cases hr.symm.trans h
    rw [complete_frame]
    exact ⟨rfl, rfl⟩

theorem engineStep_keepsAgents {s t : State} (h : engineStep s = .next t) : KeepsAgents s t := by
  rcases engineStep_cases h with ⟨_, rfl⟩ | ⟨_, i, _, hx⟩ | ⟨_, e, _, rfl⟩
  · exact ⟨rfl, rfl⟩
  · exact exec_keepsAgents hx
  · exact ⟨rfl, rfl⟩

/-- No step writes the host's program, and each takes one turn off the schedule. -/
theorem step_prog_sched {s t : State} (h : step s = .next t) : t.prog = s.prog ∧ t.sched = s.sched.tail := by
  obtain ⟨s0, _, _, ⟨hturn, rfl⟩ | ⟨hturn, _⟩ | ⟨hturn, hengine⟩⟩ := step_cases h <;> obtain rfl := eq_of_nextTurn hturn
  · exact ⟨rfl, rfl⟩
  · rcases step_host_cases hturn h with ⟨n, rfl⟩ | ⟨a, s1, _, rfl, hacc⟩
    · exact ⟨rfl, rfl⟩
    · obtain ⟨hprog, hsched⟩ := hostAccess_keepsAgents hacc
      exact ⟨hprog, hsched⟩
  · obtain ⟨hprog, hsched⟩ := engineStep_keepsAgents hengine
    exact ⟨hprog, hsched⟩

/-- A run that takes a step and answers a state took that step to a state. -/
theorem run_succ_cases (M : Host.Core) {s u : M.State} {k : Nat} (h : M.run (k + 1) s = .next u) :
    ∃ t, M.step s = .next t ∧ M.run k t = .next u := by
  unfold Host.Core.run at h
  split at h
  · exact ⟨_, by assumption, h⟩
  · cases h
  · cases h

/-- A run keeps the parameters and the program, and takes one turn a step. -/
theorem run_cfg_prog_sched {k : Nat} {s u : State} (h : Sys2Proof.core.run k s = .next u) :
    u.cfg = s.cfg ∧ u.prog = s.prog ∧ u.sched = s.sched.drop k := by
  induction k generalizing s with
  | zero =>
    cases h
    exact ⟨rfl, rfl, rfl⟩
  | succ k ih =>
    obtain ⟨t, hstep, hrun⟩ := run_succ_cases Sys2Proof.core h
    obtain ⟨hcfg, hprog, hsched⟩ := ih hrun
    obtain ⟨hprog', hsched'⟩ := step_prog_sched hstep
    exact ⟨hcfg.trans (step_cfg hstep), hprog.trans hprog', by rw [hsched, hsched', List.drop_tail]⟩

/-! A legal program does not stop the host. -/

/-- Which accesses the block answers depends on the parameters alone. -/
theorem hostAccess_completes_of_cfg_eq {s s' : State} {a : BusAccess} (hcfg : s'.cfg = s.cfg)
    (h : ∃ t, hostAccess s a = .next t) : ∃ t, hostAccess s' a = .next t := by
  obtain ⟨t, ht⟩ := h
  rcases hostAccess_cases ht with ⟨addr, w, g, rfl, hbase, hlt, hg, _⟩ | ⟨addr, w, x, g, rfl, hbase, hlt, hg, _⟩ <;>
    obtain ⟨off, rfl⟩ := Nat.exists_eq_add_of_le hbase <;>
    rw [Nat.add_sub_cancel_left] at hg
  · simp [hostAccess, hcfg, windowOffset_base_add s.cfg (Nat.add_lt_add_iff_left.1 hlt), busRead, hg]
  · simp [hostAccess, hcfg, windowOffset_base_add s.cfg (Nat.add_lt_add_iff_left.1 hlt), busWrite, hg]

/-- A declared label has a place. -/
theorem exists_labelIndex_of_mem {p : List HostStmt} {l : Nat} (h : .label l ∈ p) : ∃ j, labelIndex p l = some j := by
  rw [← Option.isSome_iff_exists, labelIndex, List.findIdx?_isSome, List.any_eq_true]
  exact ⟨_, h, beq_self_eq_true _⟩

/-- A host whose accesses are legal and whose branches have their labels is not stopped. -/
theorem hostStep_completes {s : State}
    (haccess : ∀ st ∈ s.prog, ∀ a, stmtAccess s.cfg st = some a → ∃ t, hostAccess s a = .next t)
    (hlabel : ∀ k l, HostStmt.bbs k l ∈ s.prog → HostStmt.label l ∈ s.prog) : ∃ t, hostStep s = .next t := by
  cases hst : s.prog[s.hpc]? with
  | none => exact ⟨_, hostStep_of_ended hst⟩
  | some st =>
    have hmem : st ∈ s.prog := List.mem_of_getElem? hst
    cases ha : stmtAccess s.cfg st with
    | some a =>
      rw [hostStep_of_access hst ha]
      exact hostAccess_completes_of_cfg_eq (s := s) rfl (haccess st hmem a ha)
    | none =>
      cases st with
      | label l => exact ⟨_, hostStep_of_label hst⟩
      | bbs k l =>
        obtain ⟨j, hj⟩ := exists_labelIndex_of_mem (hlabel k l hmem)
        exact ⟨_, (hostStep_of_branch hst).trans (hostBranch_of_labelIndex (s := { s with hpc := s.hpc + 1 }) hj k)⟩
      | _ => cases ha

/-! The completion (O25). -/

/-- The platform resets only on a turn of the schedule. -/
theorem rst_mem_sched_of_nextTurn {s s0 : State} (h : s.nextTurn = (.rst, s0)) : Turn.rst ∈ s.sched := by
  cases hsched : s.sched with
  | nil =>
    rw [nextTurn_nil hsched] at h
    cases hb : s.status.busy <;> simp [hb] at h
  | cons a as =>
    rw [nextTurn_cons hsched] at h
    cases h
    exact List.mem_cons_self

/-- Settles O25: of the ends a pending command can have (O58), the hypotheses leave its completion alone, since a run
keeps the program and the parameters that they speak of and adds no turn. -/
theorem pendingCommandCompletesWithinItsSchedule : Obligations.PendingCommandCompletesWithinItsSchedule := by
  unfold Obligations.PendingCommandCompletesWithinItsSchedule
  intro s hb hlatch hrst haccess hlabel
  obtain ⟨k, u, hk, hrun, hend⟩ := pendingCommandEndsByCompletionResetOrStop s hb hlatch
  obtain ⟨hcfg, hprog, hsched⟩ := run_cfg_prog_sched hrun
  rcases hend with ⟨t, hcompletes⟩ | ⟨u0, hturn, _⟩ | ⟨u1, ⟨u0, st, hturn, hst, ha, _⟩, _⟩ | ⟨u0, hturn, hstop⟩
  · exact ⟨k, u, t, hk, hrun, hcompletes⟩
  · have hmem := rst_mem_sched_of_nextTurn hturn
    rw [hsched] at hmem
    exact absurd (List.mem_of_mem_drop hmem) hrst
  · obtain rfl := eq_of_nextTurn hturn
    simp only [hcfg, hprog] at hst ha
    exact absurd rfl (haccess st (List.mem_of_getElem? hst) _ ha).1
  · obtain rfl := eq_of_nextTurn hturn
    obtain ⟨t, ht⟩ : ∃ t, step u = .next t := by
      rw [step_of_host hturn]
      refine hostStep_completes (fun st hst a ha => ?_) (hprog ▸ hlabel)
      simp only [hcfg, hprog] at hst ha
      exact hostAccess_completes_of_cfg_eq hcfg (haccess st hst a ha).2
    rw [ht] at hstop
    rcases hstop with ⟨f, hf⟩ | ⟨r, hr⟩
    · cases hf
    · cases hr

end Sys2Proof.Machine
end
